-- ==== Sys2Proof/Word.lean ====
section
/-! DEFINITION. The two word sizes of the core: the 8-bit data byte and the 16-bit address (00_scope.md R6). -/

namespace Sys2Proof

/-- A data byte: a cell, A, X, Y, S, P (R6: data width 8). -/
abbrev Byte := BitVec 8

/-- A bus address or PC (R6: address width 16). -/
abbrev Word := BitVec 16

end Sys2Proof
end

