-- ==== Sys2Proof/Config.lean ====
section
/-! DEFINITION. What an implementation fixes: the named parameters of 00_scope.md R7 as plain data, and the free values
(bytes drawn, the PC before reset, the flags of decimal mode when left uninterpreted), which no proof can evaluate. -/

namespace Sys2Proof.Config

/-- `illegalPolicy` (R7, R125): what an illegal opcode byte does. -/
inductive IllegalPolicy where
  | nop
  | fault
  deriving DecidableEq, Repr, Inhabited

/-- `penaltyPolicy` (R7, R123, R272): whether data-dependent ticks are added. -/
inductive PenaltyPolicy where
  | none
  | nmos
  deriving DecidableEq, Repr, Inhabited

/-- How a decimal-mode flag function (R7) is taken: the NMOS behaviour, or left uninterpreted (93 I-9). -/
inductive DecimalFlags where
  | nmos
  | free
  deriving DecidableEq, Repr, Inhabited

/-- The named parameters of R7 that are plain data, with R7's defaults. `tickOverrides` lists the opcode bytes whose
`tickCost` differs from the base-ticks column; the empty list is the default table. DESIGN CHOICE, safe (log 1, 2). -/
structure Params where
  illegalPolicy   : IllegalPolicy := .nop
  illegalTicks    : Nat := 2
  tickOverrides   : List (Nat × Nat) := []
  penaltyPolicy   : PenaltyPolicy := .none
  interruptTicks  : Nat := 7
  decimalAdcFlags : DecimalFlags := .nmos
  decimalSbcFlags : DecimalFlags := .nmos
  deriving DecidableEq, Repr, Inhabited

/-- N, V and Z as one value: what a decimal flag function gives (R7, R162, R164). -/
structure NVZ where
  n : Bool
  v : Bool
  z : Bool
  deriving DecidableEq, Repr, Inhabited

/-- `rngDraw` (R7, R84): the n-th byte the RNG source gives. A FREE VALUE: no body, no law
(log 4). -/
opaque rngDraw (n : Nat) : Byte

/-- `powerOnPC` (R7, R39): PC at construction. A FREE VALUE: no body (log 5). -/
opaque powerOnPC : Word

/-- `decimalAdcFlags` left uninterpreted (R163, 93 I-9). A FREE VALUE of A, M, C and t1 (log 3). -/
opaque freeAdcFlags (a m : Byte) (c : Bool) (t1 : Nat) : NVZ

/-- `decimalSbcFlags` left uninterpreted (R165, 93 I-9). A FREE VALUE of A, M and C (log 3). -/
opaque freeSbcFlags (a m : Byte) (c : Bool) : NVZ

end Sys2Proof.Config
end

