-- ==== Sys2Proof/Syntax.lean ====
section
/-! DEFINITION. The instructions as syntax: one constructor per mnemonic of spec/opcode_table.json, carrying the operand
form (addressing mode and operand bytes) as data. The table's 256 rows are the pairs of a constructor and a form that
WellFormed admits, and the illegal bytes. -/

namespace Sys2Proof

/-- The eight addressing modes that compute a data address, with their operand bytes (30_encoding.md R100 to R109). -/
inductive MemMode where
  | zp (z : Byte)
  | zpX (z : Byte)
  | zpY (z : Byte)
  | abs (a : Word)
  | absX (a : Word)
  | absY (a : Word)
  | indX (z : Byte)
  | indY (z : Byte)
  deriving DecidableEq, Repr

/-- The operand of a read-class instruction: immediate (R99) or in memory (R111, R118). -/
inductive ReadOperand where
  | imm (v : Byte)
  | mem (m : MemMode)
  deriving DecidableEq, Repr

/-- The operand of a shift or rotate: A (R98) or memory (R111). -/
inductive ShiftOperand where
  | acc
  | mem (m : MemMode)
  deriving DecidableEq, Repr

/-- The operand of JMP: absolute (R104) or indirect (R107). -/
inductive JumpOperand where
  | abs (target : Word)
  | ind (ptr : Word)
  deriving DecidableEq, Repr

/-- The thirteen instruction formats, under their names in opcode_table.json (R91). -/
inductive Format where
  | implied | accumulator | immediate | zeropage | zeropageX | zeropageY | relative
  | indexedIndirect | indirectIndexed | absolute | absoluteX | absoluteY | indirect
  deriving DecidableEq, Repr

/-- The instructions (R94). A branch carries its displacement byte (R103), JSR its target (R104), ILLEGAL its byte (R112). -/
inductive Instr where
  -- 41_load_store.md
  | lda (o : ReadOperand)
  | ldx (o : ReadOperand)
  | ldy (o : ReadOperand)
  | sta (m : MemMode)
  | stx (m : MemMode)
  | sty (m : MemMode)
  -- 42_transfer_stack.md
  | tax
  | tay
  | tsx
  | txa
  | txs
  | tya
  | pha
  | php
  | pla
  | plp
  -- 43_arithmetic.md
  | adc (o : ReadOperand)
  | sbc (o : ReadOperand)
  | cmp (o : ReadOperand)
  | cpx (o : ReadOperand)
  | cpy (o : ReadOperand)
  -- 44_logic_bit.md
  | and (o : ReadOperand)
  | eor (o : ReadOperand)
  | ora (o : ReadOperand)
  | bit (m : MemMode)
  -- 45_inc_dec_shift.md
  | inc (m : MemMode)
  | dec (m : MemMode)
  | inx
  | iny
  | dex
  | dey
  | asl (o : ShiftOperand)
  | lsr (o : ShiftOperand)
  | rol (o : ShiftOperand)
  | ror (o : ShiftOperand)
  -- 46_control_transfer.md
  | bpl (d : Byte)
  | bmi (d : Byte)
  | bvc (d : Byte)
  | bvs (d : Byte)
  | bcc (d : Byte)
  | bcs (d : Byte)
  | bne (d : Byte)
  | beq (d : Byte)
  | jmp (t : JumpOperand)
  | jsr (target : Word)
  | rts
  -- 47_flags_system.md
  | clc
  | sec
  | cli
  | sei
  | clv
  | cld
  | sed
  | nop
  | brk
  | rti
  -- 40_step_cycle.md R125
  | illegal (op : Byte)
  deriving DecidableEq, Repr

/-- The format of a memory mode (R91). -/
def MemMode.format : MemMode → Format
  | .zp _ => .zeropage
  | .zpX _ => .zeropageX
  | .zpY _ => .zeropageY
  | .abs _ => .absolute
  | .absX _ => .absoluteX
  | .absY _ => .absoluteY
  | .indX _ => .indexedIndirect
  | .indY _ => .indirectIndexed

/-- The format of a read operand (R91). -/
def ReadOperand.format : ReadOperand → Format
  | .imm _ => .immediate
  | .mem m => m.format

/-- The format of a shift operand (R91). -/
def ShiftOperand.format : ShiftOperand → Format
  | .acc => .accumulator
  | .mem m => m.format

/-- The format of a JMP operand (R91). -/
def JumpOperand.format : JumpOperand → Format
  | .abs _ => .absolute
  | .ind _ => .indirect

/-- The format of an instruction: the `format` column of opcode_table.json. -/
def Instr.format : Instr → Format
  | .lda o | .ldx o | .ldy o | .adc o | .sbc o | .cmp o | .cpx o | .cpy o | .and o | .eor o | .ora o => o.format
  | .sta m | .stx m | .sty m | .bit m | .inc m | .dec m => m.format
  | .asl o | .lsr o | .rol o | .ror o => o.format
  | .bpl _ | .bmi _ | .bvc _ | .bvs _ | .bcc _ | .bcs _ | .bne _ | .beq _ => .relative
  | .jmp t => t.format
  | .jsr _ => .absolute
  | .tax | .tay | .tsx | .txa | .txs | .tya | .pha | .php | .pla | .plp | .inx | .iny | .dex | .dey | .rts
  | .clc | .sec | .cli | .sei | .clv | .cld | .sed | .nop | .brk | .rti | .illegal _ => .implied

/-- The length in bytes of a format (R91). -/
def Format.length : Format → Nat
  | .implied | .accumulator => 1
  | .immediate | .zeropage | .zeropageX | .zeropageY | .relative | .indexedIndirect | .indirectIndexed => 2
  | .absolute | .absoluteX | .absoluteY | .indirect => 3

/-- The length of an instruction in bytes (R90, R91, R113). -/
def Instr.length (i : Instr) : Nat := i.format.length

end Sys2Proof
end

