-- ==== Sys2Proof/Machine/State.lean ====
section
/-! DEFINITION. The state of the machine as plain data: everything 10_state.md gives it (R20 to R39), the named parameters
(R7), and the host's inputs to a step (R36, R64). No operation stands here. -/

namespace Sys2Proof.Machine

open Sys2Proof.Config

/-- What stops a step with a fault. -/
inductive Fault where
  /-- Raised by ILLEGAL under `illegalPolicy = fault` only (R125): the opcode's address and the byte. Safe: the default
  policy runs the byte as a no-op. -/
  | illegalOpcode (opAddr : Word) (op : Byte)
  deriving DecidableEq, Repr

/-- Why a step is given no meaning. -/
inductive Refusal where
  /-- Raised by an arm of `exec` whose instruction has no meaning yet. Safe. No arm raises it. -/
  | notModelled (mnemonic : String)
  /-- Raised by a step before the first reset (R130). Safe: the spec refuses it. -/
  | notReset
  /-- Raised by a step or a reset while one is in progress, and by one whose callback calls step, stepTimes, exec or reset
  (R65, R263). Safe: the spec refuses it. Before the first reset, inside a callback, this reason and not `notReset` is given
  (log 27). -/
  | reentrantStep
  /-- Raised by a step or a reset whose callback raises (93 I-11). Safe: the spec refuses it. -/
  | callbackRaised
  /-- Raised by `retire` for an operand form that no encoding table has (WellFormed refuses it). Safe: no bytes decode to it. -/
  | noSuchForm
  deriving DecidableEq, Repr

/-- The two errors of the host interface (R88). -/
inductive HostError where
  | outOfRange
  | invalidArgument
  deriving DecidableEq, Repr

/-- The lifecycle state (R30). -/
inductive Phase where
  | uninitialized
  | running
  deriving DecidableEq, Repr

/-- The six CPU registers (R20). `p` holds N V - B D I Z C in bits 7 to 0 (R24). -/
structure Cpu where
  a  : Byte
  x  : Byte
  y  : Byte
  s  : Byte
  p  : Byte
  pc : Word
  deriving DecidableEq, Repr

/-- The cells (R31) as address and byte pairs: addresses strictly rising, no byte 0 listed; an unlisted cell is 0, its
value at construction (R31, R39; log 23). -/
abbrev Memory := List Host.Cell

/-- A hook table (R32) as address and callback pairs, addresses strictly rising. A callback is named by a number
(DESIGN CHOICE, safe, log 19). -/
abbrev HookTable := List (Nat × Nat)

/-- The memory bus: cells and everything the host attaches to it (R31 to R34). -/
structure Bus where
  cells            : Memory
  readHooks        : HookTable
  writeHooks       : HookTable
  instructionHooks : List Nat
  rngBinding       : Option Word
  deriving DecidableEq, Repr

/-- The `kind` argument of the hook calls (R59): the three valid kinds, or any other value. -/
inductive KindArg where
  | read
  | write
  | readWrite
  | other (n : Nat)
  deriving DecidableEq, Repr

/-- The operations of the host interface (R134). Integer arguments are unbounded, as 90_conflicts.md C6 says. -/
inductive HostCall where
  | load (bytes : List Int) (location : Int)
  | read (location count : Int)
  | registerReadWriteHook (address : Int) (kind : KindArg) (callback : Nat)
  | deregisterReadWriteHook (address : Int) (kind : KindArg)
  | registerInstructionHook (callback : Nat)
  | clearInstructionHooks
  | configureRng (address : Word)
  | interruptRequest
  | nonMaskableInterrupt
  | getters
  | reset
  | step
  | stepTimes (n : Nat)
  | exec (targetTicks : Nat)
  deriving DecidableEq, Repr

/-- One act of a callback: a host call (R64, R65), or raising an exception (93 I-11). A finite list
of acts is a callback (DEDUCED, log 18, 24: unsafe for hosts outside that shape). -/
inductive CallbackAct where
  | call (c : HostCall)
  | raise
  deriving DecidableEq, Repr

/-- What a callback is told (R63): read or write for a bus hook, nothing for an instruction hook. -/
inductive HookKind where
  | read
  | write
  | instruction
  deriving DecidableEq, Repr

/-- One hook invocation (R15, R66): which callback, its kind argument, and what the getters give at that point (R132). -/
structure HookEvent where
  callback         : Nat
  kind             : HookKind
  cpu              : Cpu
  instructionCount : Nat
  tickCount        : Nat
  deriving DecidableEq, Repr

/-- The state. The fields from `params` on are the model's own: the parameters of the step relation (R36) as plain data,
the count of bytes drawn, the host's choices to come, the hook invocations so far, and a refused call of this step.
DESIGN CHOICE, safe (log 1, 4, 6, 7, 8). -/
structure State where
  cpu              : Cpu
  pendingIRQ       : Bool
  pendingNMI       : Bool
  instructionCount : Nat
  tickCount        : Nat
  phase            : Phase
  inStep           : Bool
  bus              : Bus
  params           : Params
  rngDraws         : Nat
  script           : List (List CallbackAct)
  hookLog          : List HookEvent
  stop             : Option Refusal
  deriving DecidableEq, Repr

/-- The bus at construction (R39): cells 0, no hooks, no RNG binding. -/
def Bus.fresh : Bus :=
  { cells := [], readHooks := [], writeHooks := [], instructionHooks := [], rngBinding := none }

/-- The registers after a reset (R38) that read the vector `pc`. -/
def Cpu.afterReset (pc : Word) : Cpu :=
  { a := 0x00, x := 0x00, y := 0x00, s := 0xFD, p := 0x24, pc := pc }

/-- The machine at construction (R39, R264). PC is the free value `Config.powerOnPC`. -/
def State.construct : State :=
  { cpu := Cpu.afterReset powerOnPC, pendingIRQ := false, pendingNMI := false, instructionCount := 0, tickCount := 0,
    phase := .uninitialized, inStep := false, bus := Bus.fresh, params := {}, rngDraws := 0, script := [],
    hookLog := [], stop := none }

/-- The machine right after the reset of a newly constructed core with nothing loaded (R38, R260): memory is zero, so the
vector read gives PC = 0x0000 (R265). DEDUCED, safe (log 10); the values are R38's own choices (log 11, unsafe). -/
def State.reset : State :=
  { cpu := Cpu.afterReset 0x0000, pendingIRQ := false, pendingNMI := false, instructionCount := 0, tickCount := 0,
    phase := .running, inStep := false, bus := Bus.fresh, params := {}, rngDraws := 0, script := [],
    hookLog := [], stop := none }

end Sys2Proof.Machine
end

