-- ==== Sys2Proof/Machine/Store.lean ====
section
/-! DEFINITION. Maps held as lists of key and value pairs, and the cells as such a map (10_state.md R31, R32). -/

namespace Sys2Proof.Machine

/-- The value listed for key `k`. -/
def lookupKey {α : Type} (k : Nat) : List (Nat × α) → Option α
  | [] => none
  | (j, v) :: rest => if j = k then some v else lookupKey k rest

/-- List `v` for key `k`, keeping the keys rising. -/
def insertKey {α : Type} (k : Nat) (v : α) : List (Nat × α) → List (Nat × α)
  | [] => [(k, v)]
  | (j, w) :: rest =>
    if k < j then (k, v) :: (j, w) :: rest
    else if j = k then (k, v) :: rest
    else (j, w) :: insertKey k v rest

/-- Drop key `k`. -/
def eraseKey {α : Type} (k : Nat) : List (Nat × α) → List (Nat × α)
  | [] => []
  | (j, w) :: rest => if j = k then eraseKey k rest else (j, w) :: eraseKey k rest

/-- The keys are strictly rising and all below the top of the address space (R50). -/
def keysRising {α : Type} : List (Nat × α) → Bool
  | [] => true
  | [(k, _)] => decide (k < 65536)
  | (k, _) :: (j, w) :: rest => decide (k < j) && keysRising ((j, w) :: rest)

/-- What an unlisted cell reads as: 0, the value of every cell at construction (R31, R39). -/
def unlistedByte : Byte := 0

/-- The byte in the cell at address `a`. -/
def readCell (m : Memory) (a : Nat) : Byte := (lookupKey a m).getD unlistedByte

/-- Store `v` in the cell at address `a`, keeping the canonical form. -/
def writeCell (m : Memory) (a : Nat) (v : Byte) : Memory :=
  if v = unlistedByte then eraseKey a m else insertKey a v m

/-- The canonical form of the cells: addresses strictly rising and in range, no unlisted byte listed. -/
def Memory.wf (m : Memory) : Bool := keysRising m && m.all (fun c => c.2 != unlistedByte)

/-- The canonical form of the bus: cells and both hook tables. -/
def Bus.wf (b : Bus) : Bool := Memory.wf b.cells && keysRising b.readHooks && keysRising b.writeHooks

/-- Store a sequence of bytes from address `a` up. -/
def writeCells (m : Memory) (a : Nat) : List Byte → Memory
  | [] => m
  | v :: vs => writeCells (writeCell m a v) (a + 1) vs

/-- The bytes of `n` cells from address `a` up. -/
def readCells (m : Memory) (a : Nat) : Nat → List Byte
  | 0 => []
  | n + 1 => readCell m a :: readCells m (a + 1) n

end Sys2Proof.Machine
end

