-- ==== Sys2Proof/Machine/Calls.lean ====
section
/-! DEFINITION. The operations of the host interface that run no instruction (20_memory.md R54, R55, R59 to R62, R80;
60_exceptions.md R231, R232), and the run of a hook callback over them (R64, R65). -/

namespace Sys2Proof.Machine

/-- `BulkRead(location, count)` (R54): hook-free, no RNG substitution (R83), no effect on the state. -/
def bulkRead (location count : Int) (s : State) : Except HostError (List Byte) :=
  if location < 0 ∨ 65536 ≤ location ∨ count < 0 ∨ 65536 < location + count then .error .outOfRange
  else .ok (readCells s.bus.cells location.toNat count.toNat)

/-- `Load(bytes, location)` (R55): hook-free; the check comes before any store; each byte is reduced mod 256. -/
def load (bytes : List Int) (location : Int) (s : State) : Except HostError State :=
  if location < 0 ∨ 65536 < location + bytes.length then .error .outOfRange
  else .ok { s with bus.cells := writeCells s.bus.cells location.toNat (bytes.map (BitVec.ofInt 8)) }

/-- `registerReadWriteHook` (R59): the address is checked before the kind (R234); `read_write` sets both entries. -/
def registerReadWriteHook (address : Int) (kind : KindArg) (callback : Nat) (s : State) : Except HostError State :=
  if address < 0 ∨ 65536 ≤ address then .error .outOfRange
  else
    let a := address.toNat
    match kind with
    | .read => .ok { s with bus.readHooks := insertKey a callback s.bus.readHooks }
    | .write => .ok { s with bus.writeHooks := insertKey a callback s.bus.writeHooks }
    | .readWrite => .ok { s with
        bus.readHooks := insertKey a callback s.bus.readHooks
        bus.writeHooks := insertKey a callback s.bus.writeHooks }
    | .other _ => .error .invalidArgument

/-- `deregisterReadWriteHook` (R60): removing an absent entry is a no-op. -/
def deregisterReadWriteHook (address : Int) (kind : KindArg) (s : State) : Except HostError State :=
  if address < 0 ∨ 65536 ≤ address then .error .outOfRange
  else
    let a := address.toNat
    match kind with
    | .read => .ok { s with bus.readHooks := eraseKey a s.bus.readHooks }
    | .write => .ok { s with bus.writeHooks := eraseKey a s.bus.writeHooks }
    | .readWrite => .ok { s with
        bus.readHooks := eraseKey a s.bus.readHooks
        bus.writeHooks := eraseKey a s.bus.writeHooks }
    | .other _ => .error .invalidArgument

/-- `registerInstructionHook` (R61): append, duplicates allowed. -/
def registerInstructionHook (callback : Nat) (s : State) : State :=
  { s with bus.instructionHooks := s.bus.instructionHooks ++ [callback] }

/-- `clearInstructionHooks` (R62). -/
def clearInstructionHooks (s : State) : State := { s with bus.instructionHooks := [] }

/-- `configureRng` (R80): a new binding replaces the old one. -/
def configureRng (address : Word) (s : State) : State := { s with bus.rngBinding := some address }

/-- `interruptRequest` (R231). -/
def interruptRequest (s : State) : State := { s with pendingIRQ := true }

/-- `nonMaskableInterrupt` (R232). -/
def nonMaskableInterrupt (s : State) : State := { s with pendingNMI := true }

/-- The state after a host call that may raise: a call that raises changes nothing (R88). -/
def afterCall (s : State) : Except HostError State → State
  | .ok t => t
  | .error _ => s

/-- This step is to be refused for `r`; the first reason stands. DEDUCED, safe (log 8, 9). -/
def refuseLater (r : Refusal) (s : State) : State := { s with stop := some (s.stop.getD r) }

/-- One host call made inside a callback (R64). An error is the callback's to handle and changes nothing (R88); step,
stepTimes, exec and reset are refused (R65, R263). DESIGN CHOICE, safe (log 27): in a callback of the FIRST reset's vector
reads, where the phase is still Uninitialized and R130 would give NotReset, the reason is ReentrantStep too. -/
def callInside (c : HostCall) (s : State) : State :=
  match c with
  | .load bytes location => afterCall s (load bytes location s)
  | .read _ _ => s
  | .registerReadWriteHook address kind callback => afterCall s (registerReadWriteHook address kind callback s)
  | .deregisterReadWriteHook address kind => afterCall s (deregisterReadWriteHook address kind s)
  | .registerInstructionHook callback => registerInstructionHook callback s
  | .clearInstructionHooks => clearInstructionHooks s
  | .configureRng address => configureRng address s
  | .interruptRequest => interruptRequest s
  | .nonMaskableInterrupt => nonMaskableInterrupt s
  | .getters => s
  | .reset | .step | .stepTimes _ | .exec _ => refuseLater .reentrantStep s

/-- One act of a callback. -/
def runAct (s : State) : CallbackAct → State
  | .call c => callInside c s
  | .raise => refuseLater .callbackRaised s

/-- Record a hook invocation with what the getters give now (R132). -/
def logHook (callback : Nat) (kind : HookKind) (s : State) : State :=
  { s with hookLog := s.hookLog ++
      [{ callback := callback, kind := kind, cpu := s.cpu, instructionCount := s.instructionCount,
         tickCount := s.tickCount }] }

/-- Invoke a callback (R63, R64): the host's next choice of acts, run in order. A script that has run out chooses no act.
DESIGN CHOICE, safe (log 6). -/
def invoke (callback : Nat) (kind : HookKind) (s : State) : State :=
  match s.script with
  | [] => logHook callback kind s
  | acts :: rest => acts.foldl runAct (logHook callback kind { s with script := rest })

end Sys2Proof.Machine
end

