-- ==== Sys2Proof/WellFormed.lean ====
section
/-! DEFINITION. Which operand forms each instruction has (the encoding tables of 41 to 47, opcode map R94), and which
bytes are illegal (R112). -/

namespace Sys2Proof

/-- The eight forms of LDA, ADC, SBC, CMP, AND, EOR and ORA (R140, R162, R164, R166, R170, R171, R172). -/
def accFormats : List Format :=
  [.immediate, .zeropage, .zeropageX, .absolute, .absoluteX, .absoluteY, .indexedIndirect, .indirectIndexed]

/-- The seven forms of STA: no immediate form (R143). -/
def staFormats : List Format :=
  [.zeropage, .zeropageX, .absolute, .absoluteX, .absoluteY, .indexedIndirect, .indirectIndexed]

/-- The forms of LDX (R141). -/
def ldxFormats : List Format := [.immediate, .zeropage, .zeropageY, .absolute, .absoluteY]

/-- The forms of LDY (R142). -/
def ldyFormats : List Format := [.immediate, .zeropage, .zeropageX, .absolute, .absoluteX]

/-- The forms of STX (R144). -/
def stxFormats : List Format := [.zeropage, .zeropageY, .absolute]

/-- The forms of STY (R145). -/
def styFormats : List Format := [.zeropage, .zeropageX, .absolute]

/-- The forms of CPX and CPY (R167, R168). -/
def cpxFormats : List Format := [.immediate, .zeropage, .absolute]

/-- The forms of BIT: no immediate form (R173). -/
def bitFormats : List Format := [.zeropage, .absolute]

/-- The forms of INC and DEC (R180, R181). -/
def incFormats : List Format := [.zeropage, .zeropageX, .absolute, .absoluteX]

/-- The forms of ASL, LSR, ROL and ROR (R186 to R189). -/
def shiftFormats : List Format := [.accumulator, .zeropage, .zeropageX, .absolute, .absoluteX]

/-- The 105 illegal opcode bytes, in the order of R112. -/
def illegalOpcodes : List Nat :=
  [0x02, 0x03, 0x04, 0x07, 0x0B, 0x0C, 0x0F, 0x12, 0x13, 0x14, 0x17, 0x1A, 0x1B, 0x1C, 0x1F] ++
  [0x22, 0x23, 0x27, 0x2B, 0x2F, 0x32, 0x33, 0x34, 0x37, 0x3A, 0x3B, 0x3C, 0x3F] ++
  [0x42, 0x43, 0x44, 0x47, 0x4B, 0x4F, 0x52, 0x53, 0x54, 0x57, 0x5A, 0x5B, 0x5C, 0x5F] ++
  [0x62, 0x63, 0x64, 0x67, 0x6B, 0x6F, 0x72, 0x73, 0x74, 0x77, 0x7A, 0x7B, 0x7C, 0x7F] ++
  [0x80, 0x82, 0x83, 0x87, 0x89, 0x8B, 0x8F, 0x92, 0x93, 0x97, 0x9B, 0x9C, 0x9E, 0x9F] ++
  [0xA3, 0xA7, 0xAB, 0xAF, 0xB2, 0xB3, 0xB7, 0xBB, 0xBF] ++
  [0xC2, 0xC3, 0xC7, 0xCB, 0xCF, 0xD2, 0xD3, 0xD4, 0xD7, 0xDA, 0xDB, 0xDC, 0xDF] ++
  [0xE2, 0xE3, 0xE7, 0xEB, 0xEF, 0xF2, 0xF3, 0xF4, 0xF7, 0xFA, 0xFB, 0xFC, 0xFF]

/-- The instruction has the form it carries: the opcode map R94 holds a byte for it. -/
def Instr.wellFormed : Instr → Bool
  | .lda o | .adc o | .sbc o | .cmp o | .and o | .eor o | .ora o => accFormats.contains o.format
  | .ldx o => ldxFormats.contains o.format
  | .ldy o => ldyFormats.contains o.format
  | .sta m => staFormats.contains m.format
  | .stx m => stxFormats.contains m.format
  | .sty m => styFormats.contains m.format
  | .cpx o | .cpy o => cpxFormats.contains o.format
  | .bit m => bitFormats.contains m.format
  | .inc m | .dec m => incFormats.contains m.format
  | .asl o | .lsr o | .rol o | .ror o => shiftFormats.contains o.format
  | .illegal op => illegalOpcodes.contains op.toNat
  | .bpl _ | .bmi _ | .bvc _ | .bvs _ | .bcc _ | .bcs _ | .bne _ | .beq _ | .jmp _ | .jsr _
  | .tax | .tay | .tsx | .txa | .txs | .tya | .pha | .php | .pla | .plp | .inx | .iny | .dex | .dey | .rts
  | .clc | .sec | .cli | .sei | .clv | .cld | .sed | .nop | .brk | .rti => true

end Sys2Proof
end

