-- ==== Sys2Proof/Decode.lean ====
section
/-! DEFINITION. Bytes to instructions and back: byte-order helpers (R53, R92), the opcode map R94 as a total function of
the opcode byte, decode, and the encoder written from the encoding tables of 41 to 47. -/

namespace Sys2Proof

/-- `hi:lo`, the 16-bit concatenation of two bytes (00_scope.md R8). -/
def wordOf (hi lo : Byte) : Word := hi ++ lo

/-- The high byte `w[15:8]` (R8). -/
def hiByte (w : Word) : Byte := w.extractLsb' 8 8

/-- The low byte `w[7:0]` (R8). -/
def loByte (w : Word) : Byte := w.extractLsb' 0 8

/-- The opcode map (R93, R94): the instruction a byte begins, with operand bytes `b1` and `b2` in fetch order, `b1` the low
byte of an address (R92). Every byte not on the map is illegal (R112). -/
def ofOpcode (op b1 b2 : Byte) : Instr :=
  match op.toNat with
  | 0x00 => .brk
  | 0x01 => .ora (.mem (.indX b1))
  | 0x05 => .ora (.mem (.zp b1))
  | 0x06 => .asl (.mem (.zp b1))
  | 0x08 => .php
  | 0x09 => .ora (.imm b1)
  | 0x0A => .asl .acc
  | 0x0D => .ora (.mem (.abs (wordOf b2 b1)))
  | 0x0E => .asl (.mem (.abs (wordOf b2 b1)))
  | 0x10 => .bpl b1
  | 0x11 => .ora (.mem (.indY b1))
  | 0x15 => .ora (.mem (.zpX b1))
  | 0x16 => .asl (.mem (.zpX b1))
  | 0x18 => .clc
  | 0x19 => .ora (.mem (.absY (wordOf b2 b1)))
  | 0x1D => .ora (.mem (.absX (wordOf b2 b1)))
  | 0x1E => .asl (.mem (.absX (wordOf b2 b1)))
  | 0x20 => .jsr (wordOf b2 b1)
  | 0x21 => .and (.mem (.indX b1))
  | 0x24 => .bit (.zp b1)
  | 0x25 => .and (.mem (.zp b1))
  | 0x26 => .rol (.mem (.zp b1))
  | 0x28 => .plp
  | 0x29 => .and (.imm b1)
  | 0x2A => .rol .acc
  | 0x2C => .bit (.abs (wordOf b2 b1))
  | 0x2D => .and (.mem (.abs (wordOf b2 b1)))
  | 0x2E => .rol (.mem (.abs (wordOf b2 b1)))
  | 0x30 => .bmi b1
  | 0x31 => .and (.mem (.indY b1))
  | 0x35 => .and (.mem (.zpX b1))
  | 0x36 => .rol (.mem (.zpX b1))
  | 0x38 => .sec
  | 0x39 => .and (.mem (.absY (wordOf b2 b1)))
  | 0x3D => .and (.mem (.absX (wordOf b2 b1)))
  | 0x3E => .rol (.mem (.absX (wordOf b2 b1)))
  | 0x40 => .rti
  | 0x41 => .eor (.mem (.indX b1))
  | 0x45 => .eor (.mem (.zp b1))
  | 0x46 => .lsr (.mem (.zp b1))
  | 0x48 => .pha
  | 0x49 => .eor (.imm b1)
  | 0x4A => .lsr .acc
  | 0x4C => .jmp (.abs (wordOf b2 b1))
  | 0x4D => .eor (.mem (.abs (wordOf b2 b1)))
  | 0x4E => .lsr (.mem (.abs (wordOf b2 b1)))
  | 0x50 => .bvc b1
  | 0x51 => .eor (.mem (.indY b1))
  | 0x55 => .eor (.mem (.zpX b1))
  | 0x56 => .lsr (.mem (.zpX b1))
  | 0x58 => .cli
  | 0x59 => .eor (.mem (.absY (wordOf b2 b1)))
  | 0x5D => .eor (.mem (.absX (wordOf b2 b1)))
  | 0x5E => .lsr (.mem (.absX (wordOf b2 b1)))
  | 0x60 => .rts
  | 0x61 => .adc (.mem (.indX b1))
  | 0x65 => .adc (.mem (.zp b1))
  | 0x66 => .ror (.mem (.zp b1))
  | 0x68 => .pla
  | 0x69 => .adc (.imm b1)
  | 0x6A => .ror .acc
  | 0x6C => .jmp (.ind (wordOf b2 b1))
  | 0x6D => .adc (.mem (.abs (wordOf b2 b1)))
  | 0x6E => .ror (.mem (.abs (wordOf b2 b1)))
  | 0x70 => .bvs b1
  | 0x71 => .adc (.mem (.indY b1))
  | 0x75 => .adc (.mem (.zpX b1))
  | 0x76 => .ror (.mem (.zpX b1))
  | 0x78 => .sei
  | 0x79 => .adc (.mem (.absY (wordOf b2 b1)))
  | 0x7D => .adc (.mem (.absX (wordOf b2 b1)))
  | 0x7E => .ror (.mem (.absX (wordOf b2 b1)))
  | 0x81 => .sta (.indX b1)
  | 0x84 => .sty (.zp b1)
  | 0x85 => .sta (.zp b1)
  | 0x86 => .stx (.zp b1)
  | 0x88 => .dey
  | 0x8A => .txa
  | 0x8C => .sty (.abs (wordOf b2 b1))
  | 0x8D => .sta (.abs (wordOf b2 b1))
  | 0x8E => .stx (.abs (wordOf b2 b1))
  | 0x90 => .bcc b1
  | 0x91 => .sta (.indY b1)
  | 0x94 => .sty (.zpX b1)
  | 0x95 => .sta (.zpX b1)
  | 0x96 => .stx (.zpY b1)
  | 0x98 => .tya
  | 0x99 => .sta (.absY (wordOf b2 b1))
  | 0x9A => .txs
  | 0x9D => .sta (.absX (wordOf b2 b1))
  | 0xA0 => .ldy (.imm b1)
  | 0xA1 => .lda (.mem (.indX b1))
  | 0xA2 => .ldx (.imm b1)
  | 0xA4 => .ldy (.mem (.zp b1))
  | 0xA5 => .lda (.mem (.zp b1))
  | 0xA6 => .ldx (.mem (.zp b1))
  | 0xA8 => .tay
  | 0xA9 => .lda (.imm b1)
  | 0xAA => .tax
  | 0xAC => .ldy (.mem (.abs (wordOf b2 b1)))
  | 0xAD => .lda (.mem (.abs (wordOf b2 b1)))
  | 0xAE => .ldx (.mem (.abs (wordOf b2 b1)))
  | 0xB0 => .bcs b1
  | 0xB1 => .lda (.mem (.indY b1))
  | 0xB4 => .ldy (.mem (.zpX b1))
  | 0xB5 => .lda (.mem (.zpX b1))
  | 0xB6 => .ldx (.mem (.zpY b1))
  | 0xB8 => .clv
  | 0xB9 => .lda (.mem (.absY (wordOf b2 b1)))
  | 0xBA => .tsx
  | 0xBC => .ldy (.mem (.absX (wordOf b2 b1)))
  | 0xBD => .lda (.mem (.absX (wordOf b2 b1)))
  | 0xBE => .ldx (.mem (.absY (wordOf b2 b1)))
  | 0xC0 => .cpy (.imm b1)
  | 0xC1 => .cmp (.mem (.indX b1))
  | 0xC4 => .cpy (.mem (.zp b1))
  | 0xC5 => .cmp (.mem (.zp b1))
  | 0xC6 => .dec (.zp b1)
  | 0xC8 => .iny
  | 0xC9 => .cmp (.imm b1)
  | 0xCA => .dex
  | 0xCC => .cpy (.mem (.abs (wordOf b2 b1)))
  | 0xCD => .cmp (.mem (.abs (wordOf b2 b1)))
  | 0xCE => .dec (.abs (wordOf b2 b1))
  | 0xD0 => .bne b1
  | 0xD1 => .cmp (.mem (.indY b1))
  | 0xD5 => .cmp (.mem (.zpX b1))
  | 0xD6 => .dec (.zpX b1)
  | 0xD8 => .cld
  | 0xD9 => .cmp (.mem (.absY (wordOf b2 b1)))
  | 0xDD => .cmp (.mem (.absX (wordOf b2 b1)))
  | 0xDE => .dec (.absX (wordOf b2 b1))
  | 0xE0 => .cpx (.imm b1)
  | 0xE1 => .sbc (.mem (.indX b1))
  | 0xE4 => .cpx (.mem (.zp b1))
  | 0xE5 => .sbc (.mem (.zp b1))
  | 0xE6 => .inc (.zp b1)
  | 0xE8 => .inx
  | 0xE9 => .sbc (.imm b1)
  | 0xEA => .nop
  | 0xEC => .cpx (.mem (.abs (wordOf b2 b1)))
  | 0xED => .sbc (.mem (.abs (wordOf b2 b1)))
  | 0xEE => .inc (.abs (wordOf b2 b1))
  | 0xF0 => .beq b1
  | 0xF1 => .sbc (.mem (.indY b1))
  | 0xF5 => .sbc (.mem (.zpX b1))
  | 0xF6 => .inc (.zpX b1)
  | 0xF8 => .sed
  | 0xF9 => .sbc (.mem (.absY (wordOf b2 b1)))
  | 0xFD => .sbc (.mem (.absX (wordOf b2 b1)))
  | 0xFE => .inc (.absX (wordOf b2 b1))
  | _ => .illegal op

/-- The length of the instruction an opcode byte begins (R91, R113): the opcode byte alone fixes it. -/
def lengthOf (op : Byte) : Nat := (ofOpcode op 0 0).length

/-- Why a byte sequence holds no whole instruction. No byte is refused for its value (R93). -/
inductive DecodeError where
  /-- There is no byte at all. -/
  | noBytes
  /-- The instruction of opcode `op` needs more operand bytes than there are. -/
  | truncated (op : Byte)
  deriving DecidableEq, Repr

/-- Read one instruction from the front of a byte sequence (R90, R93): the instruction and the bytes after it. -/
def decode : List Byte → Except DecodeError (Instr × List Byte)
  | [] => .error .noBytes
  | op :: rest =>
    match lengthOf op, rest with
    | 1, rest => .ok (ofOpcode op 0 0, rest)
    | 2, b1 :: rest => .ok (ofOpcode op b1 0, rest)
    | 3, b1 :: b2 :: rest => .ok (ofOpcode op b1 b2, rest)
    | _, _ => .error (.truncated op)

/-- One instruction's encoding table: the opcode byte of each form it has. -/
structure Forms where
  acc  : Option Byte := none
  imm  : Option Byte := none
  zp   : Option Byte := none
  zpX  : Option Byte := none
  zpY  : Option Byte := none
  abs  : Option Byte := none
  absX : Option Byte := none
  absY : Option Byte := none
  indX : Option Byte := none
  indY : Option Byte := none

/-- The opcode byte of a memory form. -/
def Forms.mem (f : Forms) : MemMode → Option Byte
  | .zp _ => f.zp
  | .zpX _ => f.zpX
  | .zpY _ => f.zpY
  | .abs _ => f.abs
  | .absX _ => f.absX
  | .absY _ => f.absY
  | .indX _ => f.indX
  | .indY _ => f.indY

/-- The opcode byte of a read form. -/
def Forms.read (f : Forms) : ReadOperand → Option Byte
  | .imm _ => f.imm
  | .mem m => f.mem m

/-- The opcode byte of a shift form. -/
def Forms.shift (f : Forms) : ShiftOperand → Option Byte
  | .acc => f.acc
  | .mem m => f.mem m

/-- The encoding table of LDA (R140). -/
def ldaForms : Forms :=
  { indX := some 0xA1, zp := some 0xA5, imm := some 0xA9, abs := some 0xAD, indY := some 0xB1, zpX := some 0xB5, absY := some 0xB9, absX := some 0xBD }

/-- The encoding table of LDX (R141). -/
def ldxForms : Forms :=
  { imm := some 0xA2, zp := some 0xA6, abs := some 0xAE, zpY := some 0xB6, absY := some 0xBE }

/-- The encoding table of LDY (R142). -/
def ldyForms : Forms :=
  { imm := some 0xA0, zp := some 0xA4, abs := some 0xAC, zpX := some 0xB4, absX := some 0xBC }

/-- The encoding table of ADC (R162). -/
def adcForms : Forms :=
  { indX := some 0x61, zp := some 0x65, imm := some 0x69, abs := some 0x6D, indY := some 0x71, zpX := some 0x75, absY := some 0x79, absX := some 0x7D }

/-- The encoding table of SBC (R164). -/
def sbcForms : Forms :=
  { indX := some 0xE1, zp := some 0xE5, imm := some 0xE9, abs := some 0xED, indY := some 0xF1, zpX := some 0xF5, absY := some 0xF9, absX := some 0xFD }

/-- The encoding table of CMP (R166). -/
def cmpForms : Forms :=
  { indX := some 0xC1, zp := some 0xC5, imm := some 0xC9, abs := some 0xCD, indY := some 0xD1, zpX := some 0xD5, absY := some 0xD9, absX := some 0xDD }

/-- The encoding table of CPX (R167). -/
def cpxForms : Forms :=
  { imm := some 0xE0, zp := some 0xE4, abs := some 0xEC }

/-- The encoding table of CPY (R168). -/
def cpyForms : Forms :=
  { imm := some 0xC0, zp := some 0xC4, abs := some 0xCC }

/-- The encoding table of AND (R170). -/
def andForms : Forms :=
  { indX := some 0x21, zp := some 0x25, imm := some 0x29, abs := some 0x2D, indY := some 0x31, zpX := some 0x35, absY := some 0x39, absX := some 0x3D }

/-- The encoding table of EOR (R171). -/
def eorForms : Forms :=
  { indX := some 0x41, zp := some 0x45, imm := some 0x49, abs := some 0x4D, indY := some 0x51, zpX := some 0x55, absY := some 0x59, absX := some 0x5D }

/-- The encoding table of ORA (R172). -/
def oraForms : Forms :=
  { indX := some 0x01, zp := some 0x05, imm := some 0x09, abs := some 0x0D, indY := some 0x11, zpX := some 0x15, absY := some 0x19, absX := some 0x1D }

/-- The encoding table of STA (R143). -/
def staForms : Forms :=
  { indX := some 0x81, zp := some 0x85, abs := some 0x8D, indY := some 0x91, zpX := some 0x95, absY := some 0x99, absX := some 0x9D }

/-- The encoding table of STX (R144). -/
def stxForms : Forms :=
  { zp := some 0x86, abs := some 0x8E, zpY := some 0x96 }

/-- The encoding table of STY (R145). -/
def styForms : Forms :=
  { zp := some 0x84, abs := some 0x8C, zpX := some 0x94 }

/-- The encoding table of BIT (R173). -/
def bitForms : Forms :=
  { zp := some 0x24, abs := some 0x2C }

/-- The encoding table of INC (R180). -/
def incForms : Forms :=
  { zp := some 0xE6, abs := some 0xEE, zpX := some 0xF6, absX := some 0xFE }

/-- The encoding table of DEC (R181). -/
def decForms : Forms :=
  { zp := some 0xC6, abs := some 0xCE, zpX := some 0xD6, absX := some 0xDE }

/-- The encoding table of ASL (R186). -/
def aslForms : Forms :=
  { zp := some 0x06, acc := some 0x0A, abs := some 0x0E, zpX := some 0x16, absX := some 0x1E }

/-- The encoding table of LSR (R187). -/
def lsrForms : Forms :=
  { zp := some 0x46, acc := some 0x4A, abs := some 0x4E, zpX := some 0x56, absX := some 0x5E }

/-- The encoding table of ROL (R188). -/
def rolForms : Forms :=
  { zp := some 0x26, acc := some 0x2A, abs := some 0x2E, zpX := some 0x36, absX := some 0x3E }

/-- The encoding table of ROR (R189). -/
def rorForms : Forms :=
  { zp := some 0x66, acc := some 0x6A, abs := some 0x6E, zpX := some 0x76, absX := some 0x7E }

/-- The opcode byte of an instruction, from the encoding tables of 41 to 47; none for a form no table lists. -/
def Instr.opcode : Instr → Option Byte
  | .lda o => ldaForms.read o
  | .ldx o => ldxForms.read o
  | .ldy o => ldyForms.read o
  | .adc o => adcForms.read o
  | .sbc o => sbcForms.read o
  | .cmp o => cmpForms.read o
  | .cpx o => cpxForms.read o
  | .cpy o => cpyForms.read o
  | .and o => andForms.read o
  | .eor o => eorForms.read o
  | .ora o => oraForms.read o
  | .sta m => staForms.mem m
  | .stx m => stxForms.mem m
  | .sty m => styForms.mem m
  | .bit m => bitForms.mem m
  | .inc m => incForms.mem m
  | .dec m => decForms.mem m
  | .asl o => aslForms.shift o
  | .lsr o => lsrForms.shift o
  | .rol o => rolForms.shift o
  | .ror o => rorForms.shift o
  | .brk => some 0x00
  | .php => some 0x08
  | .bpl _ => some 0x10
  | .clc => some 0x18
  | .jsr _ => some 0x20
  | .plp => some 0x28
  | .bmi _ => some 0x30
  | .sec => some 0x38
  | .rti => some 0x40
  | .pha => some 0x48
  | .bvc _ => some 0x50
  | .cli => some 0x58
  | .rts => some 0x60
  | .pla => some 0x68
  | .bvs _ => some 0x70
  | .sei => some 0x78
  | .dey => some 0x88
  | .txa => some 0x8A
  | .bcc _ => some 0x90
  | .tya => some 0x98
  | .txs => some 0x9A
  | .tay => some 0xA8
  | .tax => some 0xAA
  | .bcs _ => some 0xB0
  | .clv => some 0xB8
  | .tsx => some 0xBA
  | .iny => some 0xC8
  | .dex => some 0xCA
  | .bne _ => some 0xD0
  | .cld => some 0xD8
  | .inx => some 0xE8
  | .nop => some 0xEA
  | .beq _ => some 0xF0
  | .sed => some 0xF8
  | .jmp (.abs _) => some 0x4C
  | .jmp (.ind _) => some 0x6C
  | .illegal op => if illegalOpcodes.contains op.toNat then some op else none

/-- The operand bytes of a memory mode in fetch order, low byte first (R90, R92). -/
def MemMode.bytes : MemMode → List Byte
  | .zp z | .zpX z | .zpY z | .indX z | .indY z => [z]
  | .abs a | .absX a | .absY a => [loByte a, hiByte a]

/-- The operand bytes of an instruction in fetch order (R90, R92). -/
def Instr.operandBytes : Instr → List Byte
  | .lda o | .ldx o | .ldy o | .adc o | .sbc o | .cmp o | .cpx o | .cpy o | .and o | .eor o | .ora o =>
    match o with
    | .imm v => [v]
    | .mem m => m.bytes
  | .sta m | .stx m | .sty m | .bit m | .inc m | .dec m => m.bytes
  | .asl o | .lsr o | .rol o | .ror o =>
    match o with
    | .acc => []
    | .mem m => m.bytes
  | .bpl d | .bmi d | .bvc d | .bvs d | .bcc d | .bcs d | .bne d | .beq d => [d]
  | .jmp (.abs w) | .jmp (.ind w) | .jsr w => [loByte w, hiByte w]
  | .tax | .tay | .tsx | .txa | .txs | .tya | .pha | .php | .pla | .plp | .inx | .iny | .dex | .dey | .rts
  | .clc | .sec | .cli | .sei | .clv | .cld | .sed | .nop | .brk | .rti | .illegal _ => []

/-- The bytes of an instruction (R90): its opcode byte, then its operand bytes; no bytes for a form it does not have. -/
def encode (i : Instr) : List Byte :=
  match i.opcode with
  | some op => op :: i.operandBytes
  | none => []

/-- The three bytes of an instruction whose bits are `w`, the first byte bits 7..0, every bit from `nbits` up 0. -/
def tableBytes (nbits w : Nat) : List Byte :=
  let v := w % 2 ^ nbits
  [BitVec.ofNat 8 v, BitVec.ofNat 8 (v / 256), BitVec.ofNat 8 (v / 65536)]

/-- The instruction the decoder reads from an instruction whose bits are `w`, numbered as opcode_table.json does. -/
def decodeTableWord (nbits w : Nat) : Option Instr :=
  match decode (tableBytes nbits w) with
  | .ok (i, _) => some i
  | .error _ => none

end Sys2Proof
end

