-- ==== Sys2Proof/Machine/Flags.lean ====
section
/-! DEFINITION. The flags of P (10_state.md R24, R25) and every flag and ALU computation of the spec (43_arithmetic.md R160
to R169, 45_inc_dec_shift.md R186 to R189). -/

namespace Sys2Proof.Machine

open Sys2Proof.Config

/-- The flags of P (R24). -/
inductive Flag where
  | c | z | i | d | b | v | n
  deriving DecidableEq, Repr

/-- The bit of P a flag stands in (R24). -/
def Flag.index : Flag → Nat
  | .c => 0
  | .z => 1
  | .i => 2
  | .d => 3
  | .b => 4
  | .v => 6
  | .n => 7

/-- The flag's value in a status byte. -/
def flagOf (f : Flag) (p : Byte) : Bool := p.getLsbD f.index

/-- A status byte with one flag written and every other bit kept. -/
def withFlag (f : Flag) (v : Bool) (p : Byte) : Byte :=
  if v then p ||| BitVec.twoPow 8 f.index else p &&& ~~~BitVec.twoPow 8 f.index

/-- `WriteP(m)` (R25): the byte P holds after a whole-byte write of `m`. -/
def writePByte (m : Byte) : Byte := (m &&& 0xCF) ||| 0x20

/-- The copy of P that PHP and BRK push (R157, R218): bits 5 and 4 set. -/
def pushedCopy (p : Byte) : Byte := p ||| 0x30

/-- `SetNZ(v)` (00_scope.md R11) on a status byte. -/
def withNZ (v p : Byte) : Byte := withFlag .z (v == 0) (withFlag .n v.msb p)

/-- A bit as a natural. -/
def bitNat (b : Bool) : Nat := if b then 1 else 0

/-- The result of an addition or subtraction and the flags it writes. -/
structure AluResult where
  result : Byte
  n : Bool
  v : Bool
  z : Bool
  c : Bool
  deriving DecidableEq, Repr

/-- The V formula of R160 and R163: the operands have one sign, `r` the other. -/
def overflowOf (a m r : Byte) : Bool := (~~~(a ^^^ m) &&& (a ^^^ r) &&& 0x80) != 0

/-- `AddBinary(a, m, c)` (R160). -/
def addBinary (a m : Byte) (c : Bool) : AluResult :=
  let sum := a.toNat + m.toNat + bitNat c
  let result := BitVec.ofNat 8 sum
  { result := result, n := result.msb, v := overflowOf a m result, z := result == 0, c := decide (sum > 0xFF) }

/-- The low digit and the carry into the high digit of `AddDecimal` (R161). -/
def decimalLowDigit (a m : Byte) (c : Bool) : Nat :=
  let al := (a.toNat &&& 0x0F) + (m.toNat &&& 0x0F) + bitNat c
  if al ≥ 0x0A then ((al + 0x06) &&& 0x0F) + 0x10 else al

/-- The intermediate value `t1` of `AddDecimal` (R161), before the high-digit adjust. -/
def decimalSum (a m : Byte) (c : Bool) : Nat :=
  (a.toNat &&& 0xF0) + (m.toNat &&& 0xF0) + decimalLowDigit a m c

/-- The value `t` of `AddDecimal` (R161), after the high-digit adjust. -/
def decimalAdjusted (a m : Byte) (c : Bool) : Nat :=
  if decimalSum a m c ≥ 0xA0 then decimalSum a m c + 0x60 else decimalSum a m c

/-- The NMOS `decimalAdcFlags` (R163). -/
def nmosAdcFlags (a m : Byte) (c : Bool) (t1 : Nat) : NVZ :=
  { n := t1.testBit 7
    v := overflowOf a m (BitVec.ofNat 8 t1)
    z := decide ((a.toNat + m.toNat + bitNat c) % 256 = 0) }

/-- `decimalAdcFlags` as the parameter chooses it (R7). -/
def adcFlags (how : DecimalFlags) (a m : Byte) (c : Bool) (t1 : Nat) : NVZ :=
  match how with
  | .nmos => nmosAdcFlags a m c t1
  | .free => freeAdcFlags a m c t1

/-- ADC in decimal mode (R161, R162, R163). -/
def addDecimal (how : DecimalFlags) (a m : Byte) (c : Bool) : AluResult :=
  let t := decimalAdjusted a m c
  let f := adcFlags how a m c (decimalSum a m c)
  { result := BitVec.ofNat 8 t, n := f.n, v := f.v, z := f.z, c := decide (t ≥ 0x100) }

/-- `SubDecimal(a, m, c)` (R165), on signed integers. -/
def subDecimal (a m : Byte) (c : Bool) : Byte :=
  let al : Int := ((a.toNat &&& 0x0F : Nat) : Int) - ((m.toNat &&& 0x0F : Nat) : Int) + (bitNat c : Int) - 1
  let al : Int := if al < 0 then (al - 0x06) % 16 - 0x10 else al
  let t : Int := ((a.toNat &&& 0xF0 : Nat) : Int) - ((m.toNat &&& 0xF0 : Nat) : Int) + al
  BitVec.ofInt 8 (if t < 0 then t - 0x60 else t)

/-- `decimalSbcFlags` as the parameter chooses it (R165): by default the N, V and Z that `AddBinary(a, ~m, c)` writes. -/
def sbcFlags (how : DecimalFlags) (a m : Byte) (c : Bool) : NVZ :=
  match how with
  | .nmos => let r := addBinary a (~~~m) c; { n := r.n, v := r.v, z := r.z }
  | .free => freeSbcFlags a m c

/-- SBC in decimal mode (R164, R165). C is that of `AddBinary(a, ~m, c)` under either parameter (D12 leaves N, V, Z open):
DEDUCED, unsafe (log 3). -/
def subtractDecimal (how : DecimalFlags) (a m : Byte) (c : Bool) : AluResult :=
  let f := sbcFlags how a m c
  { result := subDecimal a m c, n := f.n, v := f.v, z := f.z, c := (addBinary a (~~~m) c).c }

/-- What ADC computes (R162): binary or decimal as D says. -/
def adcResult (params : Params) (p a m : Byte) : AluResult :=
  if flagOf .d p then addDecimal params.decimalAdcFlags a m (flagOf .c p) else addBinary a m (flagOf .c p)

/-- What SBC computes (R164): binary or decimal as D says. -/
def sbcResult (params : Params) (p a m : Byte) : AluResult :=
  if flagOf .d p then subtractDecimal params.decimalSbcFlags a m (flagOf .c p)
  else addBinary a (~~~m) (flagOf .c p)

/-- A status byte with N, V, Z and C of a result written. -/
def withNVZC (r : AluResult) (p : Byte) : Byte :=
  withFlag .c r.c (withFlag .z r.z (withFlag .v r.v (withFlag .n r.n p)))

/-- `Compare(r, m)` (R169) on a status byte. -/
def withCompare (r m p : Byte) : Byte :=
  withFlag .n (r - m).msb (withFlag .z (r == m) (withFlag .c (decide (m.toNat ≤ r.toNat)) p))

/-- BIT (R173) on a status byte: Z from `A & M`, N and V from bits 7 and 6 of M. -/
def withBit (a m p : Byte) : Byte :=
  withFlag .v (m.getLsbD 6) (withFlag .n (m.getLsbD 7) (withFlag .z ((a &&& m) == 0) p))

/-- The result of a shift or rotate and the bit shifted out. -/
structure ShiftResult where
  result : Byte
  carry  : Bool
  deriving DecidableEq, Repr

/-- ASL (R186). -/
def aslByte (v : Byte) : ShiftResult := { result := v <<< 1, carry := v.getLsbD 7 }

/-- LSR (R187). -/
def lsrByte (v : Byte) : ShiftResult := { result := v >>> 1, carry := v.getLsbD 0 }

/-- ROL (R188): the old C enters bit 0. -/
def rolByte (c : Bool) (v : Byte) : ShiftResult :=
  { result := (v <<< 1) ||| BitVec.ofNat 8 (bitNat c), carry := v.getLsbD 7 }

/-- ROR (R189): the old C enters bit 7. -/
def rorByte (c : Bool) (v : Byte) : ShiftResult :=
  { result := (v >>> 1) ||| (BitVec.ofNat 8 (bitNat c) <<< 7), carry := v.getLsbD 0 }

/-- A status byte with C, N and Z of a shift or rotate written. -/
def withShift (r : ShiftResult) (p : Byte) : Byte := withNZ r.result (withFlag .c r.carry p)

end Sys2Proof.Machine
end

