-- ==== Sys2Proof/Machine/Ops.lean ====
section
/-! DEFINITION. The named operations over registers and memory: register writes, the CPU's byte accesses (20_memory.md R56,
R57), fetch, push and pull (00_scope.md R11), vector entry, the return from it, and the interrupt service
(60_exceptions.md R236, R242; 47_flags_system.md R218, R219). -/

namespace Sys2Proof.Machine

/-- `A <- v`. -/
def setA (v : Byte) (s : State) : State := { s with cpu.a := v }

/-- `X <- v`. -/
def setX (v : Byte) (s : State) : State := { s with cpu.x := v }

/-- `Y <- v`. -/
def setY (v : Byte) (s : State) : State := { s with cpu.y := v }

/-- `S <- v`. -/
def setS (v : Byte) (s : State) : State := { s with cpu.s := v }

/-- `P <- v`, bits 5 and 4 as given: used for flag updates, which leave them as they are (R25). -/
def setP (v : Byte) (s : State) : State := { s with cpu.p := v }

/-- `PC <- v`. -/
def setPC (v : Word) (s : State) : State := { s with cpu.pc := v }

/-- One flag written. -/
def setFlag (f : Flag) (v : Bool) (s : State) : State := setP (withFlag f v s.cpu.p) s

/-- `SetNZ(v)` (R11). -/
def setNZ (v : Byte) (s : State) : State := setP (withNZ v s.cpu.p) s

/-- `WriteP(m)` (R25). -/
def writeP (m : Byte) (s : State) : State := setP (writePByte m) s

/-- The value a CPU read of `a` takes, and the state when its hook runs (R56): the cell, or at the bound address a draw
(R81, R84). -/
def readValue (a : Word) (s : State) : Byte × State :=
  if s.bus.rngBinding = some a then (Config.rngDraw s.rngDraws, { s with rngDraws := s.rngDraws + 1 })
  else (readCell s.bus.cells a.toNat, s)

/-- The hook of a table at an address, if any, is invoked (R56, R57, R66). -/
def fireBusHook (table : HookTable) (kind : HookKind) (a : Word) (s : State) : State :=
  match lookupKey a.toNat table with
  | none => s
  | some callback => invoke callback kind s

/-- `MemRead(a, 1)` (R56): the value is fixed before the read hook runs (R58). -/
def memRead (a : Word) (s : State) : Byte × State :=
  let r := readValue a s
  (r.1, fireBusHook r.2.bus.readHooks .read a r.2)

/-- Store a byte in its cell, hook-free. -/
def storeCell (a : Word) (v : Byte) (s : State) : State :=
  { s with bus.cells := writeCell s.bus.cells a.toNat v }

/-- `MemWrite(a, 1, v)` (R57): the store comes before the write hook. -/
def memWrite (a : Word) (v : Byte) (s : State) : State :=
  let t := storeCell a v s
  fireBusHook t.bus.writeHooks .write a t

/-- `FetchByte()` (R11): read at PC, then advance PC. -/
def fetchByte (s : State) : Byte × State :=
  let r := memRead s.cpu.pc s
  (r.1, setPC (r.2.cpu.pc + 1) r.2)

/-- The stack address `0x0100 + S` (R23, R70). -/
def stackAddr (sp : Byte) : Word := 0x0100 + sp.zeroExtend 16

/-- `Push(v)` (R11): store at `0x0100 + S`, then decrement S mod 256. -/
def push (v : Byte) (s : State) : State :=
  let t := memWrite (stackAddr s.cpu.s) v s
  setS (t.cpu.s - 1) t

/-- `Pull()` (R11): increment S mod 256, then read at `0x0100 + S`. -/
def pull (s : State) : Byte × State :=
  let t := setS (s.cpu.s + 1) s
  memRead (stackAddr t.cpu.s) t

/-- Push a 16-bit value, high byte first (R200, R218, R236). -/
def pushWord (w : Word) (s : State) : State := push (loByte w) (push (hiByte w) s)

/-- Pull a 16-bit value, low byte first (R201, R219). -/
def pullWord (s : State) : Word × State :=
  let lo := pull s
  let hi := pull lo.2
  (wordOf hi.1 lo.1, hi.2)

/-- Two byte reads, the low byte at `a` first and then the high byte at `b` (R68). -/
def readPair (a b : Word) (s : State) : Word × State :=
  let lo := memRead a s
  let hi := memRead b lo.2
  (wordOf hi.1 lo.1, hi.2)

/-- `Read16(a)` (R11): the second byte is at `a + 1` mod 65536. -/
def read16 (a : Word) (s : State) : Word × State := readPair a (a + 1) s

/-- The three vectors (R6, R240). -/
def nmiVector : Word := 0xFFFA

/-- The reset vector (R6, R240). -/
def resetVector : Word := 0xFFFC

/-- The IRQ and BRK vector (R6, R240). -/
def irqVector : Word := 0xFFFE

/-- TAKING AN EXCEPTION, the entry BRK and the interrupt service share (R218, R236): push PC high then low, push a copy of
P, set I, then load PC from the vector. D is not cleared (R218, R236). -/
def enterHandler (copy : Byte → Byte) (vector : Word) (s : State) : State :=
  let pushed := pushWord s.cpu.pc s
  let framed := push (copy pushed.cpu.p) pushed
  let target := read16 vector (setFlag .i true framed)
  setPC target.1 target.2

/-- THE RETURN from a handler (R219, R242): pull P's copy, then PC low, then PC high; load P through WriteP and PC without
adding one. -/
def leaveHandler (s : State) : State :=
  let copy := pull s
  let target := pullWord copy.2
  setPC target.1 (writeP copy.1 target.2)

/-- The two interrupt lines (R230). -/
inductive Line where
  | irq
  | nmi
  deriving DecidableEq, Repr

/-- The vector of a line (R230, R240). -/
def Line.vector : Line → Word
  | .irq => irqVector
  | .nmi => nmiVector

/-- Clear a line's pending flag (R28, R236). -/
def clearPending (line : Line) (s : State) : State :=
  match line with
  | .irq => { s with pendingIRQ := false }
  | .nmi => { s with pendingNMI := false }

/-- Add to `tickCount` (R29). -/
def addTicks (n : Nat) (s : State) : State := { s with tickCount := s.tickCount + n }

/-- `Service(kind)` (R236, R237): the copy is P as held (R239), the pending flag is cleared last, and `interruptTicks` are
added. -/
def service (line : Line) (s : State) : State :=
  let t := clearPending line (enterHandler (fun p => p) line.vector s)
  addTicks t.params.interruptTicks t

/-- `CheckPoint()` (R235): NMI first, then IRQ if I is clear, at most one service. -/
def checkPoint (s : State) : State :=
  if s.pendingNMI then service .nmi s
  else if s.pendingIRQ && !flagOf .i s.cpu.p then service .irq s
  else s

/-- `FireInstructionHooks()` (R126): each callback of the list as it stands when firing begins, in order. -/
def fireInstructionHooks (s : State) : State :=
  s.bus.instructionHooks.foldl (fun t callback => invoke callback .instruction t) s

end Sys2Proof.Machine
end

