-- ==== Sys2Proof/Machine/Operands.lean ====
section
/-! DEFINITION. The operand forms: effective addresses (30_encoding.md R100 to R109), the read operand (R99, R118) and the
jump and branch targets (R103, R104, R107). The operand bytes are already fetched, so PC is past the instruction (R96). -/

namespace Sys2Proof.Machine

/-- A page-zero address (R70). -/
def zeroPage (z : Byte) : Word := z.zeroExtend 16

/-- The effective address of a memory mode, whether its sum crosses a page (R110), and the state after its pointer reads. -/
structure Resolved where
  ea    : Word
  cross : Bool
  state : State

/-- `pageCross` (R105, R109): the two addresses lie in different pages. -/
def crosses (a b : Word) : Bool := hiByte a != hiByte b

/-- The sum of a base and an index register mod 65536, and whether it crosses a page (R105, R106, R109). -/
def indexed (base : Word) (index : Byte) (s : State) : Resolved :=
  let ea := base + index.zeroExtend 16
  { ea := ea, cross := crosses base ea, state := s }

/-- A pointer in page zero: both bytes come from page zero (R108, R109). -/
def zeroPagePointer (p : Byte) (s : State) : Word × State := readPair (zeroPage p) (zeroPage (p + 1)) s

/-- `Resolve(mode)` for the memory modes (R100 to R102, R104 to R106, R108, R109). -/
def resolve (m : MemMode) (s : State) : Resolved :=
  match m with
  | .zp z => { ea := zeroPage z, cross := false, state := s }
  | .zpX z => { ea := zeroPage (z + s.cpu.x), cross := false, state := s }
  | .zpY z => { ea := zeroPage (z + s.cpu.y), cross := false, state := s }
  | .abs a => { ea := a, cross := false, state := s }
  | .absX a => indexed a s.cpu.x s
  | .absY a => indexed a s.cpu.y s
  | .indX z =>
    let r := zeroPagePointer (z + s.cpu.x) s
    { ea := r.1, cross := false, state := r.2 }
  | .indY z =>
    let r := zeroPagePointer z s
    indexed r.1 r.2.cpu.y r.2

/-- The value of a read operand, whether its address crossed a page, and the state after the reads. -/
structure Fetched where
  value : Byte
  cross : Bool
  state : State

/-- `Operand(mode)` (R118): the immediate byte, or one read of the effective address (R111). -/
def readOperand (o : ReadOperand) (s : State) : Fetched :=
  match o with
  | .imm v => { value := v, cross := false, state := s }
  | .mem m =>
    let r := resolve m s
    let v := memRead r.ea r.state
    { value := v.1, cross := r.cross, state := v.2 }

/-- The address of the high byte of an indirect jump's pointer (R107): it stays in the pointer's page. -/
def samePageNext (ptr : Word) : Word := (ptr &&& 0xFF00) ||| ((ptr + 1) &&& 0x00FF)

/-- The target of JMP (R104, R107) and the state after its pointer reads. -/
def jumpTarget (t : JumpOperand) (s : State) : Word × State :=
  match t with
  | .abs w => (w, s)
  | .ind ptr => readPair ptr (samePageNext ptr) s

/-- The target of a branch from the address after it (R103). -/
def branchTarget (d : Byte) (pcAfter : Word) : Word := pcAfter + d.signExtend 16

end Sys2Proof.Machine
end

