-- ==== Sys2Proof/Machine/Retire.lean ====
section
/-! DEFINITION. The end of an instruction's execute phase: ticks (40_step_cycle.md R123; 70_reset_and_hazards.md R271, R272)
and the instruction count (R124). -/

namespace Sys2Proof.Machine

open Sys2Proof.Config

/-- The base ticks of a read-class form (R271). -/
def readTicks : Format → Nat
  | .immediate => 2
  | .zeropage => 3
  | .zeropageX | .zeropageY => 4
  | .absolute | .absoluteX | .absoluteY => 4
  | .indexedIndirect => 6
  | .indirectIndexed => 5
  | .implied | .accumulator | .relative | .indirect => 0

/-- The base ticks of a write-class form (R271). -/
def writeTicks : Format → Nat
  | .zeropage => 3
  | .zeropageX | .zeropageY => 4
  | .absolute => 4
  | .absoluteX | .absoluteY => 5
  | .indexedIndirect | .indirectIndexed => 6
  | .implied | .accumulator | .immediate | .relative | .indirect => 0

/-- The base ticks of a read-modify-write form (R271). -/
def modifyTicks : Format → Nat
  | .accumulator => 2
  | .zeropage => 5
  | .zeropageX => 6
  | .absolute => 6
  | .absoluteX => 7
  | .implied | .immediate | .zeropageY | .relative | .absoluteY | .indexedIndirect | .indirectIndexed | .indirect => 0

/-- The base ticks of an instruction (R271; the `base_ticks` column of opcode_table.json). An illegal byte's cost is the
parameter `illegalTicks`, not this. -/
def baseTicks (i : Instr) : Nat :=
  match i with
  | .lda _ | .ldx _ | .ldy _ | .adc _ | .sbc _ | .cmp _ | .cpx _ | .cpy _ | .and _ | .eor _ | .ora _ | .bit _ =>
    readTicks i.format
  | .sta _ | .stx _ | .sty _ => writeTicks i.format
  | .asl _ | .lsr _ | .rol _ | .ror _ | .inc _ | .dec _ => modifyTicks i.format
  | .tax | .tay | .tsx | .txa | .txs | .tya | .inx | .iny | .dex | .dey
  | .clc | .sec | .cli | .sei | .clv | .cld | .sed | .nop => 2
  | .pha | .php => 3
  | .pla | .plp => 4
  | .jmp (.abs _) => 3
  | .jmp (.ind _) => 5
  | .jsr _ | .rts | .rti => 6
  | .brk => 7
  | .bpl _ | .bmi _ | .bvc _ | .bvs _ | .bcc _ | .bcs _ | .bne _ | .beq _ => 2
  | .illegal _ => 2

/-- `tickCost(op)` of an instruction with opcode byte `op` (R7, R123): a listed override, else the base ticks; for an
illegal byte `illegalTicks` (R125). -/
def tickCost (params : Params) (i : Instr) (op : Byte) : Nat :=
  match i with
  | .illegal _ => params.illegalTicks
  | _ => (lookupKey op.toNat params.tickOverrides).getD (baseTicks i)

/-- The penalty of a page cross or a taken branch under the policy (R123, R272): `n` ticks under `nmos`, none otherwise. -/
def penalty (params : Params) (n : Nat) : Nat :=
  match params.penaltyPolicy with
  | .none => 0
  | .nmos => n

/-- The end of the execute phase (R120, R123, R124): `tickCount` grows by the instruction's cost and penalty, and
`instructionCount` by 1. A form without an opcode byte is refused (DESIGN CHOICE, safe, log 13).
That exec holds the counting is DEDUCED, safe (log 12). -/
def retire (i : Instr) (extra : Nat) (s : State) : Host.Outcome State Fault Refusal :=
  match i.opcode with
  | none => .refused .noSuchForm
  | some op =>
    .next { s with
      tickCount := s.tickCount + (tickCost s.params i op + penalty s.params extra)
      instructionCount := s.instructionCount + 1 }

/-- An instruction of the read class (R111): read the operand, let it act on the state, retire. Its indexed forms pay one
tick for a page cross (R272). -/
def readClass (i : Instr) (o : ReadOperand) (act : Byte → State → State) (s : State) : Host.Outcome State Fault Refusal :=
  let r := readOperand o s
  retire i (bitNat r.cross) (act r.value r.state)

/-- An instruction of the write class (R111): one write of the effective address, which is not read. -/
def writeClass (i : Instr) (m : MemMode) (v : Byte) (s : State) : Host.Outcome State Fault Refusal :=
  let r := resolve m s
  retire i 0 (memWrite r.ea v r.state)

/-- The data accesses of a read-modify-write instruction (R111): one read, one write of the result; then its flags. -/
def modifyMem (m : MemMode) (f : Byte → Byte) (act : Byte → State → State) (s : State) : State :=
  let r := resolve m s
  let v := memRead r.ea r.state
  act v.1 (memWrite r.ea (f v.1) v.2)

end Sys2Proof.Machine
end

