-- ==== Sys2Proof/Machine/Arithmetic.lean ====
section
/-! DEFINITION. The meanings of 43_arithmetic.md: ADC, SBC, CMP, CPX, CPY. -/

namespace Sys2Proof.Machine

/-- ADC (R162), binary or decimal as D says. -/
def execAdc (o : ReadOperand) (s : State) : Host.Outcome State Fault Refusal :=
  readClass (.adc o) o
    (fun m t =>
      let r := adcResult t.params t.cpu.p t.cpu.a m
      setP (withNVZC r t.cpu.p) (setA r.result t)) s

/-- SBC (R164), binary or decimal as D says. -/
def execSbc (o : ReadOperand) (s : State) : Host.Outcome State Fault Refusal :=
  readClass (.sbc o) o
    (fun m t =>
      let r := sbcResult t.params t.cpu.p t.cpu.a m
      setP (withNVZC r t.cpu.p) (setA r.result t)) s

/-- CMP (R166). -/
def execCmp (o : ReadOperand) (s : State) : Host.Outcome State Fault Refusal :=
  readClass (.cmp o) o (fun m t => setP (withCompare t.cpu.a m t.cpu.p) t) s

/-- CPX (R167). -/
def execCpx (o : ReadOperand) (s : State) : Host.Outcome State Fault Refusal :=
  readClass (.cpx o) o (fun m t => setP (withCompare t.cpu.x m t.cpu.p) t) s

/-- CPY (R168). -/
def execCpy (o : ReadOperand) (s : State) : Host.Outcome State Fault Refusal :=
  readClass (.cpy o) o (fun m t => setP (withCompare t.cpu.y m t.cpu.p) t) s

end Sys2Proof.Machine
end

