-- ==== Sys2Proof/Machine/Control.lean ====
section
/-! DEFINITION. The meanings of 46_control_transfer.md: the eight branches, JMP, JSR, RTS. -/

namespace Sys2Proof.Machine

/-- `Branch(cond)` (R190): PC is already past the branch; the penalty is 1 when taken and 1 more on a page cross (R272). -/
def branch (i : Instr) (d : Byte) (taken : Bool) (s : State) : Host.Outcome State Fault Refusal :=
  let target := branchTarget d s.cpu.pc
  if taken then retire i (1 + bitNat (crosses s.cpu.pc target)) (setPC target s) else retire i 0 s

/-- BPL (R191): taken on N = 0. -/
def execBpl (d : Byte) (s : State) : Host.Outcome State Fault Refusal := branch (.bpl d) d (!flagOf .n s.cpu.p) s

/-- BMI (R192): taken on N = 1. -/
def execBmi (d : Byte) (s : State) : Host.Outcome State Fault Refusal := branch (.bmi d) d (flagOf .n s.cpu.p) s

/-- BVC (R193): taken on V = 0. -/
def execBvc (d : Byte) (s : State) : Host.Outcome State Fault Refusal := branch (.bvc d) d (!flagOf .v s.cpu.p) s

/-- BVS (R194): taken on V = 1. -/
def execBvs (d : Byte) (s : State) : Host.Outcome State Fault Refusal := branch (.bvs d) d (flagOf .v s.cpu.p) s

/-- BCC (R195): taken on C = 0. -/
def execBcc (d : Byte) (s : State) : Host.Outcome State Fault Refusal := branch (.bcc d) d (!flagOf .c s.cpu.p) s

/-- BCS (R196): taken on C = 1. -/
def execBcs (d : Byte) (s : State) : Host.Outcome State Fault Refusal := branch (.bcs d) d (flagOf .c s.cpu.p) s

/-- BNE (R197): taken on Z = 0. -/
def execBne (d : Byte) (s : State) : Host.Outcome State Fault Refusal := branch (.bne d) d (!flagOf .z s.cpu.p) s

/-- BEQ (R198): taken on Z = 1. -/
def execBeq (d : Byte) (s : State) : Host.Outcome State Fault Refusal := branch (.beq d) d (flagOf .z s.cpu.p) s

/-- JMP (R199). -/
def execJmp (t : JumpOperand) (s : State) : Host.Outcome State Fault Refusal :=
  let r := jumpTarget t s
  retire (.jmp t) 0 (setPC r.1 r.2)

/-- JSR (R200): it pushes the address of its own last byte. -/
def execJsr (target : Word) (s : State) : Host.Outcome State Fault Refusal :=
  retire (.jsr target) 0 (setPC target (pushWord (s.cpu.pc - 1) s))

/-- RTS (R201): the pulled address plus one. -/
def execRts (s : State) : Host.Outcome State Fault Refusal :=
  let r := pullWord s
  retire .rts 0 (setPC (r.1 + 1) r.2)

end Sys2Proof.Machine
end

