-- ==== Sys2Proof/Machine/LoadStore.lean ====
section
/-! DEFINITION. The meanings of 41_load_store.md: LDA, LDX, LDY, STA, STX, STY. -/

namespace Sys2Proof.Machine

/-- LDA (R140). -/
def execLda (o : ReadOperand) (s : State) : Host.Outcome State Fault Refusal :=
  readClass (.lda o) o (fun m t => setNZ m (setA m t)) s

/-- LDX (R141). -/
def execLdx (o : ReadOperand) (s : State) : Host.Outcome State Fault Refusal :=
  readClass (.ldx o) o (fun m t => setNZ m (setX m t)) s

/-- LDY (R142). -/
def execLdy (o : ReadOperand) (s : State) : Host.Outcome State Fault Refusal :=
  readClass (.ldy o) o (fun m t => setNZ m (setY m t)) s

/-- STA (R143). -/
def execSta (m : MemMode) (s : State) : Host.Outcome State Fault Refusal := writeClass (.sta m) m s.cpu.a s

/-- STX (R144). -/
def execStx (m : MemMode) (s : State) : Host.Outcome State Fault Refusal := writeClass (.stx m) m s.cpu.x s

/-- STY (R145). -/
def execSty (m : MemMode) (s : State) : Host.Outcome State Fault Refusal := writeClass (.sty m) m s.cpu.y s

end Sys2Proof.Machine
end

