-- ==== Sys2Proof/Machine/Logic.lean ====
section
/-! DEFINITION. The meanings of 44_logic_bit.md: AND, EOR, ORA, BIT. -/

namespace Sys2Proof.Machine

/-- AND (R170). -/
def execAnd (o : ReadOperand) (s : State) : Host.Outcome State Fault Refusal :=
  readClass (.and o) o (fun m t => setNZ (t.cpu.a &&& m) (setA (t.cpu.a &&& m) t)) s

/-- EOR (R171). -/
def execEor (o : ReadOperand) (s : State) : Host.Outcome State Fault Refusal :=
  readClass (.eor o) o (fun m t => setNZ (t.cpu.a ^^^ m) (setA (t.cpu.a ^^^ m) t)) s

/-- ORA (R172). -/
def execOra (o : ReadOperand) (s : State) : Host.Outcome State Fault Refusal :=
  readClass (.ora o) o (fun m t => setNZ (t.cpu.a ||| m) (setA (t.cpu.a ||| m) t)) s

/-- BIT (R173): A is not written. -/
def execBit (m : MemMode) (s : State) : Host.Outcome State Fault Refusal :=
  readClass (.bit m) (.mem m) (fun v t => setP (withBit t.cpu.a v t.cpu.p) t) s

end Sys2Proof.Machine
end

