-- ==== Sys2Proof/Machine/Shift.lean ====
section
/-! DEFINITION. The meanings of 45_inc_dec_shift.md: INC, DEC, INX, INY, DEX, DEY, ASL, LSR, ROL, ROR. The flags are
written after the write (40_step_cycle.md R132). -/

namespace Sys2Proof.Machine

/-- INC (R180). -/
def execInc (m : MemMode) (s : State) : Host.Outcome State Fault Refusal :=
  retire (.inc m) 0 (modifyMem m (fun v => v + 1) (fun v t => setNZ (v + 1) t) s)

/-- DEC (R181). -/
def execDec (m : MemMode) (s : State) : Host.Outcome State Fault Refusal :=
  retire (.dec m) 0 (modifyMem m (fun v => v - 1) (fun v t => setNZ (v - 1) t) s)

/-- INX (R182). -/
def execInx (s : State) : Host.Outcome State Fault Refusal :=
  retire .inx 0 (setNZ (s.cpu.x + 1) (setX (s.cpu.x + 1) s))

/-- INY (R183). -/
def execIny (s : State) : Host.Outcome State Fault Refusal :=
  retire .iny 0 (setNZ (s.cpu.y + 1) (setY (s.cpu.y + 1) s))

/-- DEX (R184). -/
def execDex (s : State) : Host.Outcome State Fault Refusal :=
  retire .dex 0 (setNZ (s.cpu.x - 1) (setX (s.cpu.x - 1) s))

/-- DEY (R185). -/
def execDey (s : State) : Host.Outcome State Fault Refusal :=
  retire .dey 0 (setNZ (s.cpu.y - 1) (setY (s.cpu.y - 1) s))

/-- A shift or rotate `f` of A, or of memory (R98, R111, R186 to R189). -/
def shiftOperand (o : ShiftOperand) (f : Byte → ShiftResult) (s : State) : State :=
  match o with
  | .acc => setP (withShift (f s.cpu.a) s.cpu.p) (setA (f s.cpu.a).result s)
  | .mem m => modifyMem m (fun v => (f v).result) (fun v t => setP (withShift (f v) t.cpu.p) t) s

/-- ASL (R186). -/
def execAsl (o : ShiftOperand) (s : State) : Host.Outcome State Fault Refusal :=
  retire (.asl o) 0 (shiftOperand o aslByte s)

/-- LSR (R187). -/
def execLsr (o : ShiftOperand) (s : State) : Host.Outcome State Fault Refusal :=
  retire (.lsr o) 0 (shiftOperand o lsrByte s)

/-- ROL (R188). -/
def execRol (o : ShiftOperand) (s : State) : Host.Outcome State Fault Refusal :=
  retire (.rol o) 0 (shiftOperand o (rolByte (flagOf .c s.cpu.p)) s)

/-- ROR (R189). -/
def execRor (o : ShiftOperand) (s : State) : Host.Outcome State Fault Refusal :=
  retire (.ror o) 0 (shiftOperand o (rorByte (flagOf .c s.cpu.p)) s)

end Sys2Proof.Machine
end

