-- ==== Sys2Proof/Machine/System.lean ====
section
/-! DEFINITION. The meanings of 47_flags_system.md (CLC, SEC, CLI, SEI, CLV, CLD, SED, NOP, BRK, RTI) and of the illegal
bytes (40_step_cycle.md R125). -/

namespace Sys2Proof.Machine

/-- CLC (R210). -/
def execClc (s : State) : Host.Outcome State Fault Refusal := retire .clc 0 (setFlag .c false s)

/-- SEC (R211). -/
def execSec (s : State) : Host.Outcome State Fault Refusal := retire .sec 0 (setFlag .c true s)

/-- CLI (R212). -/
def execCli (s : State) : Host.Outcome State Fault Refusal := retire .cli 0 (setFlag .i false s)

/-- SEI (R213). -/
def execSei (s : State) : Host.Outcome State Fault Refusal := retire .sei 0 (setFlag .i true s)

/-- CLV (R214). -/
def execClv (s : State) : Host.Outcome State Fault Refusal := retire .clv 0 (setFlag .v false s)

/-- CLD (R215). -/
def execCld (s : State) : Host.Outcome State Fault Refusal := retire .cld 0 (setFlag .d false s)

/-- SED (R216). -/
def execSed (s : State) : Host.Outcome State Fault Refusal := retire .sed 0 (setFlag .d true s)

/-- NOP (R217). -/
def execNop (s : State) : Host.Outcome State Fault Refusal := retire .nop 0 s

/-- BRK (R218): skip the padding byte unread, then enter the handler through the IRQ vector with bits 5 and 4 set in the
pushed copy. I is not consulted. What a callback of its pushes sees is DEDUCED, unsafe (log 14). -/
def execBrk (s : State) : Host.Outcome State Fault Refusal :=
  retire .brk 0 (enterHandler pushedCopy irqVector (setPC (s.cpu.pc + 1) s))

/-- RTI (R219). -/
def execRti (s : State) : Host.Outcome State Fault Refusal := retire .rti 0 (leaveHandler s)

/-- ILLEGAL (R125): under `nop` nothing but the counters; under `fault` a fault with the opcode's address, one before PC.
DESIGN CHOICE of the spec (D1), unsafe under `nop` (log 15). -/
def execIllegal (op : Byte) (s : State) : Host.Outcome State Fault Refusal :=
  match s.params.illegalPolicy with
  | .nop => retire (.illegal op) 0 s
  | .fault => .fault (.illegalOpcode (s.cpu.pc - 1) op)

end Sys2Proof.Machine
end

