-- ==== Sys2Proof/Machine/Transfer.lean ====
section
/-! DEFINITION. The meanings of 42_transfer_stack.md: TAX, TAY, TSX, TXA, TXS, TYA, PHA, PHP, PLA, PLP. -/

namespace Sys2Proof.Machine

/-- TAX (R150). -/
def execTax (s : State) : Host.Outcome State Fault Refusal := retire .tax 0 (setNZ s.cpu.a (setX s.cpu.a s))

/-- TAY (R151). -/
def execTay (s : State) : Host.Outcome State Fault Refusal := retire .tay 0 (setNZ s.cpu.a (setY s.cpu.a s))

/-- TSX (R152). -/
def execTsx (s : State) : Host.Outcome State Fault Refusal := retire .tsx 0 (setNZ s.cpu.s (setX s.cpu.s s))

/-- TXA (R153). -/
def execTxa (s : State) : Host.Outcome State Fault Refusal := retire .txa 0 (setNZ s.cpu.x (setA s.cpu.x s))

/-- TXS (R154): no flag changes. -/
def execTxs (s : State) : Host.Outcome State Fault Refusal := retire .txs 0 (setS s.cpu.x s)

/-- TYA (R155). -/
def execTya (s : State) : Host.Outcome State Fault Refusal := retire .tya 0 (setNZ s.cpu.y (setA s.cpu.y s))

/-- PHA (R156). -/
def execPha (s : State) : Host.Outcome State Fault Refusal := retire .pha 0 (push s.cpu.a s)

/-- PHP (R157): the pushed copy has bits 5 and 4 set. -/
def execPhp (s : State) : Host.Outcome State Fault Refusal := retire .php 0 (push (pushedCopy s.cpu.p) s)

/-- PLA (R158). -/
def execPla (s : State) : Host.Outcome State Fault Refusal :=
  let v := pull s
  retire .pla 0 (setNZ v.1 (setA v.1 v.2))

/-- PLP (R159). -/
def execPlp (s : State) : Host.Outcome State Fault Refusal :=
  let v := pull s
  retire .plp 0 (writeP v.1 v.2)

end Sys2Proof.Machine
end

