-- ==== Sys2Proof/Machine/Cycle.lean ====
section
/-! DEFINITION. The parts of the step around the execute phase (40_step_cycle.md R120, R121; 30_encoding.md R96), and the
placing of an instruction where the step fetches. -/

namespace Sys2Proof.Machine

/-- Fetch one instruction (R96, R121, R122): the opcode byte, then its operand bytes in address order, PC advancing by one
at each. -/
def fetchInstr (s : State) : Instr × State :=
  let op := fetchByte s
  match lengthOf op.1 with
  | 2 =>
    let b1 := fetchByte op.2
    (ofOpcode op.1 b1.1 0, b1.2)
  | 3 =>
    let b1 := fetchByte op.2
    let b2 := fetchByte b1.2
    (ofOpcode op.1 b1.1 b2.1, b2.2)
  | _ => (ofOpcode op.1 0 0, op.2)

/-- The start of a step or a reset (R35, R120, R260): `inStep` set, no call refused yet. -/
def beginStep (s : State) : State := { s with inStep := true, stop := none }

/-- The end of a step or a reset (R120, R260): refused if a callback made a refused call (R65, R263), else `inStep` clear. -/
def endStep (s : State) : Host.Outcome State Fault Refusal :=
  match s.stop with
  | some r => .refused r
  | none => .next { s with inStep := false }

/-- What follows the execute phase (R120): the instruction hooks, then the check point. -/
def afterExecute (s : State) : Host.Outcome State Fault Refusal := endStep (checkPoint (fireInstructionHooks s))

/-- The execute phase and what follows it. A run whose fetch made a refused call has no meaning (R65), whatever follows. -/
def executeAndFinish (i : Instr) (s : State) : Host.Outcome State Fault Refusal :=
  match s.stop with
  | some r => .refused r
  | none =>
    match exec i s with
    | .next t => afterExecute t
    | .fault r => .fault r
    | .refused r => .refused r

/-- A running step (R120) after the refusals: fetch, execute, hooks, check point. -/
def runStep (s : State) : Host.Outcome State Fault Refusal :=
  let f := fetchInstr (beginStep s)
  executeAndFinish f.1 f.2

/-- Put bytes at an address and up, mod 65536, as `Load` would, so that a CPU read there gives them: no read hook, and no
RNG binding, stands in their way. DESIGN CHOICE, safe (log 22). -/
def placeBytes (a : Word) : List Byte → State → State
  | [], s => s
  | v :: vs, s =>
    placeBytes (a + 1) vs
      { s with
        bus.cells := writeCell s.bus.cells a.toNat v
        bus.readHooks := eraseKey a.toNat s.bus.readHooks
        bus.rngBinding := if s.bus.rngBinding = some a then none else s.bus.rngBinding }

/-- The state with an instruction's bytes where the next step fetches, and the step allowed to run. -/
def placeInstr (bytes : List Byte) (s : State) : State :=
  placeBytes s.cpu.pc bytes { s with phase := .running, inStep := false }

end Sys2Proof.Machine
end

