-- ==== Sys2Proof/Machine/Step.lean ====
section
/-! DEFINITION. `step()` (40_step_cycle.md R120, R130; 20_memory.md R65), and the placing of a table word where it fetches. -/

namespace Sys2Proof.Machine

/-- `step()` (R120): refused before the first reset (R130) and while a step is in progress (R65), the phase tested first as in
R120. A step called inside a callback does not come here but to `callInside` (log 27). -/
def step (s : State) : Host.Outcome State Fault Refusal :=
  match s.phase with
  | .uninitialized => .refused .notReset
  | .running => if s.inStep then .refused .reentrantStep else runStep s

/-- `s` with the instruction whose bits are `w` stored where `step` fetches next; its unlisted upper bytes are 0. -/
def State.withFetchWord (s : State) (nbits w : Nat) : State := placeInstr (tableBytes nbits w) s

end Sys2Proof.Machine
end

