-- ==== Sys2Proof/Machine/HostInterface.lean ====
section
/-! DEFINITION. The host calls that run the core (R134): reset (70_reset_and_hazards.md R260), stepTimes and exec
(40_step_cycle.md R127, R128), and the getters (R135). The other calls stand in Machine/Calls.lean. -/

namespace Sys2Proof.Machine

/-- The registers, counters, pending flags and phase as a reset that read `pc` leaves them (R38, R260). -/
def applyReset (pc : Word) (s : State) : State :=
  { s with
    cpu := Cpu.afterReset pc
    instructionCount := 0
    tickCount := 0
    pendingIRQ := false
    pendingNMI := false
    phase := .running }

/-- `reset()` (R260): read the vector low byte then high byte (R261) before any register changes; cells, hooks and the RNG
binding stay (R262). -/
def hostReset (s : State) : Host.Outcome State Fault Refusal :=
  if s.inStep then .refused .reentrantStep
  else
    let v := read16 resetVector (beginStep s)
    endStep (applyReset v.1 v.2)

/-- `stepTimes(n)` (R127): n steps in order; the first fault or refusal ends it. -/
def stepMany : Nat → State → Host.Outcome State Fault Refusal
  | 0, s => .next s
  | n + 1, s =>
    match step s with
    | .next t => stepMany n t
    | .fault r => .fault r
    | .refused r => .refused r

/-- `stepTimes(n)` as a host call: refused from inside a step (R65, R234), which is tested before the phase (DESIGN CHOICE,
safe, log 27). -/
def stepTimes (n : Nat) (s : State) : Host.Outcome State Fault Refusal :=
  if s.inStep then .refused .reentrantStep else stepMany n s

/-- The loop of `exec(targetTicks)` (R128) with at most `fuel` steps; none when the fuel runs out before the target. -/
def execLoop (target : Nat) : Nat → State → Option (Host.Outcome State Fault Refusal)
  | 0, s => if s.tickCount < target then none else some (.next s)
  | fuel + 1, s =>
    if s.tickCount < target then
      match step s with
      | .next t => execLoop target fuel t
      | .fault r => some (.fault r)
      | .refused r => some (.refused r)
    else some (.next s)

/-- `exec(targetTicks)` (R128) as a host call, with as many steps as there are ticks to go: enough whenever every step
adds a tick (R129); none stands for a run that zero-cost steps may keep from ending. DESIGN CHOICE, safe (log 21); `ExecEnds` says the rest.
`inStep` is tested before the phase (DESIGN CHOICE, safe, log 27). -/
def execTo (target : Nat) (s : State) : Option (Host.Outcome State Fault Refusal) :=
  if s.inStep then some (.refused .reentrantStep) else execLoop target (target - s.tickCount) s

/-- `exec(targetTicks)` under any parameters (R128, R129): some number of steps ends the loop with the outcome `r`. A run of
zero-cost steps that never reaches the target ends with none. -/
def ExecEnds (target : Nat) (s : State) (r : Host.Outcome State Fault Refusal) : Prop :=
  if s.inStep then r = .refused .reentrantStep else ∃ fuel, execLoop target fuel s = some r

/-- What the eight getters give (R135): raw naturals. -/
structure Getters where
  programCounter   : Nat
  stackPointer     : Nat
  accumulator      : Nat
  indexX           : Nat
  indexY           : Nat
  statusFlags      : Nat
  instructionCount : Nat
  tickCount        : Nat
  deriving DecidableEq, Repr

/-- The getters (R37, R135): no side effect. -/
def getters (s : State) : Getters :=
  { programCounter := s.cpu.pc.toNat, stackPointer := s.cpu.s.toNat, accumulator := s.cpu.a.toNat,
    indexX := s.cpu.x.toNat, indexY := s.cpu.y.toNat, statusFlags := s.cpu.p.toNat,
    instructionCount := s.instructionCount, tickCount := s.tickCount }

end Sys2Proof.Machine
end

