-- ==== Sys2Proof/Safety.lean ====
section
/-! DEFINITION. What claims call a good state and a safe run: the invariant of the machine, the absence of hooks, and the
host choices that keep a run inside the spec (20_memory.md R64). -/

namespace Sys2Proof.Machine

/-- Bit 5 of P reads 1 and bit 4 reads 0 (R25). -/
def statusFixed (p : Byte) : Bool := p.getLsbD 5 && !p.getLsbD 4

/-- A running machine between two steps: canonical bus, P's fixed bits, no step in progress, no call refused. -/
structure Inv (s : State) : Prop where
  busWf   : s.bus.wf = true
  status  : statusFixed s.cpu.p = true
  idle    : s.inStep = false
  noStop  : s.stop = none
  running : s.phase = .running

/-- No bus hook is registered and the RNG is bound nowhere: every CPU access is a plain cell access. -/
structure Quiet (s : State) : Prop where
  noRead  : s.bus.readHooks = []
  noWrite : s.bus.writeHooks = []
  noRng   : s.bus.rngBinding = none

/-- The host calls admitted inside a callback (R64). -/
def HostCall.admitted : HostCall → Bool
  | .load _ _ | .read _ _ | .registerReadWriteHook _ _ _ | .deregisterReadWriteHook _ _ | .registerInstructionHook _
  | .clearInstructionHooks | .configureRng _ | .interruptRequest | .nonMaskableInterrupt | .getters => true
  | .reset | .step | .stepTimes _ | .exec _ => false

/-- An act the spec gives a meaning inside a callback: an admitted call. -/
def CallbackAct.admitted : CallbackAct → Bool
  | .call c => c.admitted
  | .raise => false

/-- Every choice the host has yet to make is a sequence of admitted calls (R64). -/
def scriptAdmitted (s : State) : Bool := s.script.all (fun acts => acts.all CallbackAct.admitted)

/-- An act that stores into cells: a `load`. -/
def CallbackAct.isLoad : CallbackAct → Bool
  | .call (.load _ _) => true
  | _ => false

/-- No choice the host has yet to make stores into cells. -/
def scriptLoadsNothing (s : State) : Bool := s.script.all (fun acts => acts.all (fun act => !act.isLoad))

/-- No callback can store into cells: there is no bus hook to fire, or the host's choices hold no `load`. -/
def HostStoresNothing (s : State) : Prop :=
  (s.bus.readHooks = [] ∧ s.bus.writeHooks = []) ∨ scriptLoadsNothing s = true

/-- A step that answers a next state. -/
def StepsOn (s : State) : Prop := ∃ t, step s = .next t

/-- The byte in the cell at a bus address. -/
def cellAt (s : State) (a : Word) : Byte := readCell s.bus.cells a.toNat

/-- The little-endian word in the cells at `a` and `b` (R53). -/
def wordAt (s : State) (a b : Word) : Word := wordOf (cellAt s b) (cellAt s a)

/-- Every cell but those at the listed addresses holds in `t` what it holds in `s`. -/
def KeepsCellsBut (stored : List Word) (s t : State) : Prop := ∀ a : Word, a ∉ stored → cellAt t a = cellAt s a

/-- Every flag but the listed ones, and bit 5, is in `p'` what it is in `p`. -/
structure KeepsFlagsBut (written : List Flag) (p p' : Byte) : Prop where
  flags : ∀ f, f ∉ written → flagOf f p' = flagOf f p
  bit5  : p'.getLsbD 5 = p.getLsbD 5

/-- N is bit 7 of `v`, Z says that `v` is 0, and no other bit of P changes (R11). -/
structure SetsNZ (v p p' : Byte) : Prop where
  n    : flagOf .n p' = v.getLsbD 7
  z    : flagOf .z p' = decide (v = 0)
  keep : KeepsFlagsBut [.n, .z] p p'

/-- C, N and Z as a shift or rotate with result `r` and bit out `c` sets them; no other bit of P changes (R186 to R189). -/
structure SetsCNZ (c : Bool) (r p p' : Byte) : Prop where
  c    : flagOf .c p' = c
  n    : flagOf .n p' = r.getLsbD 7
  z    : flagOf .z p' = decide (r = 0)
  keep : KeepsFlagsBut [.c, .n, .z] p p'

/-- N, V, Z and C as an addition or subtraction sets them; no other bit of P changes (R162, R164). -/
structure SetsNVZC (r : AluResult) (p p' : Byte) : Prop where
  n    : flagOf .n p' = r.n
  v    : flagOf .v p' = r.v
  z    : flagOf .z p' = r.z
  c    : flagOf .c p' = r.c
  keep : KeepsFlagsBut [.n, .v, .z, .c] p p'

/-- The flags `Compare(r, m)` sets (R169); no other bit of P changes. -/
structure SetsCompare (r m p p' : Byte) : Prop where
  c    : flagOf .c p' = decide (m.toNat ≤ r.toNat)
  z    : flagOf .z p' = decide (r = m)
  n    : flagOf .n p' = (BitVec.ofNat 8 (r.toNat + 256 - m.toNat)).getLsbD 7
  keep : KeepsFlagsBut [.c, .z, .n] p p'

/-- `i` is the instruction of the given bytes, and runs in every state with no bus access: `exec` answers the state in which only
the registers change, to registers that `good` describes, one instruction is counted, and, where no override stands, the
base ticks, under `nmos` with `extra` more (R123, R271, R272). -/
def RunsAs (i : Instr) (bytes : List Byte) (ticks extra : Nat) (good : Cpu → Prop) (s : State) : Prop :=
  encode i = bytes ∧ ∃ c n, good c ∧
    exec i s = .next { s with cpu := c, tickCount := n, instructionCount := s.instructionCount + 1 } ∧
    (s.params.tickOverrides = [] →
      n = s.tickCount + ticks + (if s.params.penaltyPolicy = .nmos then extra else 0))

/-- The instructions that write A (R21). -/
def writesA : Instr → Bool
  | .lda _ | .txa | .tya | .pla | .adc _ | .sbc _ | .and _ | .eor _ | .ora _ => true
  | .asl .acc | .lsr .acc | .rol .acc | .ror .acc => true
  | .asl (.mem _) | .lsr (.mem _) | .rol (.mem _) | .ror (.mem _) => false
  | .ldx _ | .ldy _ | .sta _ | .stx _ | .sty _ | .tax | .tay | .tsx | .txs | .pha | .php | .plp | .cmp _
  | .cpx _ | .cpy _ | .bit _ | .inc _ | .dec _ | .inx | .iny | .dex | .dey | .bpl _ | .bmi _ | .bvc _ | .bvs _
  | .bcc _ | .bcs _ | .bne _ | .beq _ | .jmp _ | .jsr _ | .rts | .clc | .sec | .cli | .sei | .clv | .cld | .sed
  | .nop | .brk | .rti | .illegal _ => false

/-- The instructions that write X (R22). -/
def writesX : Instr → Bool
  | .ldx _ | .tax | .tsx | .inx | .dex => true
  | .lda _ | .ldy _ | .sta _ | .stx _ | .sty _ | .tay | .txa | .txs | .tya | .pha | .php | .pla | .plp | .adc _
  | .sbc _ | .cmp _ | .cpx _ | .cpy _ | .and _ | .eor _ | .ora _ | .bit _ | .inc _ | .dec _ | .iny | .dey
  | .asl _ | .lsr _ | .rol _ | .ror _ | .bpl _ | .bmi _ | .bvc _ | .bvs _ | .bcc _ | .bcs _ | .bne _ | .beq _
  | .jmp _ | .jsr _ | .rts | .clc | .sec | .cli | .sei | .clv | .cld | .sed | .nop | .brk | .rti | .illegal _ => false

/-- The instructions that write Y (R22). -/
def writesY : Instr → Bool
  | .ldy _ | .tay | .iny | .dey => true
  | .lda _ | .ldx _ | .sta _ | .stx _ | .sty _ | .tax | .tsx | .txa | .txs | .tya | .pha | .php | .pla | .plp
  | .adc _ | .sbc _ | .cmp _ | .cpx _ | .cpy _ | .and _ | .eor _ | .ora _ | .bit _ | .inc _ | .dec _ | .inx
  | .dex | .asl _ | .lsr _ | .rol _ | .ror _ | .bpl _ | .bmi _ | .bvc _ | .bvs _ | .bcc _ | .bcs _ | .bne _
  | .beq _ | .jmp _ | .jsr _ | .rts | .clc | .sec | .cli | .sei | .clv | .cld | .sed | .nop | .brk | .rti
  | .illegal _ => false

/-- The instructions that write S (R23). -/
def writesS : Instr → Bool
  | .txs | .pha | .php | .pla | .plp | .jsr _ | .rts | .brk | .rti => true
  | .lda _ | .ldx _ | .ldy _ | .sta _ | .stx _ | .sty _ | .tax | .tay | .tsx | .txa | .tya | .adc _ | .sbc _
  | .cmp _ | .cpx _ | .cpy _ | .and _ | .eor _ | .ora _ | .bit _ | .inc _ | .dec _ | .inx | .iny | .dex | .dey
  | .asl _ | .lsr _ | .rol _ | .ror _ | .bpl _ | .bmi _ | .bvc _ | .bvs _ | .bcc _ | .bcs _ | .bne _ | .beq _
  | .jmp _ | .clc | .sec | .cli | .sei | .clv | .cld | .sed | .nop | .illegal _ => false

/-- The instructions that write PC in their execute phase (R27): the transfers of control. -/
def writesPC : Instr → Bool
  | .bpl _ | .bmi _ | .bvc _ | .bvs _ | .bcc _ | .bcs _ | .bne _ | .beq _ | .jmp _ | .jsr _ | .rts | .brk
  | .rti => true
  | .lda _ | .ldx _ | .ldy _ | .sta _ | .stx _ | .sty _ | .tax | .tay | .tsx | .txa | .txs | .tya | .pha | .php
  | .pla | .plp | .adc _ | .sbc _ | .cmp _ | .cpx _ | .cpy _ | .and _ | .eor _ | .ora _ | .bit _ | .inc _
  | .dec _ | .inx | .iny | .dex | .dey | .asl _ | .lsr _ | .rol _ | .ror _ | .clc | .sec | .cli | .sei | .clv
  | .cld | .sed | .nop | .illegal _ => false

/-- The flags of the register an instruction writes (R26). -/
def flagsWritten : Instr → List Flag
  | .lda _ | .ldx _ | .ldy _ | .tax | .tay | .tsx | .txa | .tya | .pla | .and _ | .ora _ | .eor _
  | .inc _ | .dec _ | .inx | .iny | .dex | .dey => [.n, .z]
  | .adc _ | .sbc _ => [.n, .v, .z, .c]
  | .cmp _ | .cpx _ | .cpy _ | .asl _ | .lsr _ | .rol _ | .ror _ => [.n, .z, .c]
  | .bit _ => [.n, .v, .z]
  | .clc | .sec => [.c]
  | .cli | .sei | .brk => [.i]
  | .clv => [.v]
  | .cld | .sed => [.d]
  | .plp | .rti => [.c, .z, .i, .d, .b, .v, .n]
  | .sta _ | .stx _ | .sty _ | .txs | .pha | .php | .bpl _ | .bmi _ | .bvc _ | .bvs _ | .bcc _ | .bcs _
  | .bne _ | .beq _ | .jmp _ | .jsr _ | .rts | .nop | .illegal _ => []

/-- The addresses an instruction stores to in its execute phase (R111 and the stack rules), computed as its meaning does. -/
def storedTo (i : Instr) (s : State) : List Word :=
  match i with
  | .sta m | .stx m | .sty m | .inc m | .dec m
  | .asl (.mem m) | .lsr (.mem m) | .rol (.mem m) | .ror (.mem m) => [(resolve m s).ea]
  | .pha | .php => [stackAddr s.cpu.s]
  | .jsr _ => [stackAddr s.cpu.s, stackAddr (s.cpu.s - 1)]
  | .brk => [stackAddr s.cpu.s, stackAddr (s.cpu.s - 1), stackAddr (s.cpu.s - 1 - 1)]
  | .asl .acc | .lsr .acc | .rol .acc | .ror .acc => []
  | .lda _ | .ldx _ | .ldy _ | .tax | .tay | .tsx | .txa | .txs | .tya | .pla | .plp | .adc _ | .sbc _ | .cmp _
  | .cpx _ | .cpy _ | .and _ | .eor _ | .ora _ | .bit _ | .inx | .iny | .dex | .dey | .bpl _ | .bmi _ | .bvc _
  | .bvs _ | .bcc _ | .bcs _ | .bne _ | .beq _ | .jmp _ | .rts | .clc | .sec | .cli | .sei | .clv | .cld | .sed
  | .nop | .rti | .illegal _ => []

/-- The byte a CPU read of a memory operand's effective address gives, after the mode's pointer reads (R111). -/
def dataAt (m : MemMode) (s : State) : Byte := (memRead (resolve m s).ea (resolve m s).state).1

/-- Two outcomes that agree, where next states are compared by `r`. -/
def OutcomesAgree (r : State → State → Prop) : Host.Outcome State Fault Refusal → Host.Outcome State Fault Refusal → Prop
  | .next t, .next t' => r t t'
  | .fault f, .fault f' => f = f'
  | .refused f, .refused f' => f = f'
  | _, _ => False

/-- The machine with every timing parameter and `tickCount` set aside, in the state and in its log of hook events. -/
def withoutTiming (s : State) : State :=
  { s with
    tickCount := 0
    params := { s.params with illegalTicks := 0, tickOverrides := [], penaltyPolicy := .none, interruptTicks := 0 }
    hookLog := s.hookLog.map (fun e => { e with tickCount := 0 }) }

/-- A valid BCD byte (R14): both digits 0 to 9. -/
def isBcd (b : Byte) : Bool := decide (b.toNat % 16 < 10) && decide (b.toNat / 16 < 10)

/-- The number a BCD byte stands for. -/
def bcdValue (b : Byte) : Nat := b.toNat / 16 * 10 + b.toNat % 16

end Sys2Proof.Machine
end

