-- ==== Sys2Proof/Certificates/Slice0/Obligations.lean ====
section
/-! DEFINITION. The statements for the provers, from the spec's numbered rules. A docstring names the rule and, where a
clause rests on a choice of the model, the log entry. -/

open Sys2Proof Sys2Proof.Machine

/-! ### Encoding -/

/-- R90 to R94: every well-formed instruction decodes from its own bytes, whatever follows them. -/
def Obligations.DecodeOfEncodeIsTheInstruction : Prop :=
  ∀ (i : Instr) (rest : List Byte), i.wellFormed = true → decode (encode i ++ rest) = .ok (i, rest)

/-- R90 to R94: what the decoder reads is well-formed, and its bytes are the bytes that were read. -/
def Obligations.EncodeOfDecodeIsTheBytes : Prop :=
  ∀ (bytes rest : List Byte) (i : Instr), decode bytes = .ok (i, rest) →
    i.wellFormed = true ∧ encode i ++ rest = bytes ∧ (encode i).length = i.length

/-- R93: every opcode byte with enough bytes after it decodes; 151 bytes begin documented instructions and 105 are illegal. -/
def Obligations.EveryOpcodeByteDecodes : Prop :=
  (∀ (op b1 b2 : Byte) (rest : List Byte), ∃ i left, decode (op :: b1 :: b2 :: rest) = .ok (i, left) ∧
    (i = .illegal op ↔ op.toNat ∈ illegalOpcodes)) ∧
  ((List.range 256).filter (fun n => n ∈ illegalOpcodes)).length = 105 ∧
  ((List.range 256).filter (fun n => n ∉ illegalOpcodes)).length = 151

/-- R140, R164, R188, R199, R218, and for the illegal byte R91, R94 and R112: words written out bit by bit decode to the
instruction they stand for. That an illegal byte is one byte long is the spec's decision D1 (log 15). -/
def Obligations.SampleWordsDecode : Prop :=
  decode [0b10101001#8, 0b11001100#8] = .ok (.lda (.imm 0xCC), []) ∧
  decode [0b11111101#8, 0b00110100#8, 0b00010010#8] = .ok (.sbc (.mem (.absX 0x1234)), []) ∧
  decode [0b00101010#8] = .ok (.rol .acc, []) ∧
  decode [0b01101100#8, 0b11111111#8, 0b00010000#8] = .ok (.jmp (.ind 0x10FF), []) ∧
  decode [0b00000000#8, 0b11101010#8] = .ok (.brk, [0b11101010#8]) ∧
  decode [0b00000010#8] = .ok (.illegal 0x02, [])

/-! ### The bus -/

/-- R55: `load` checks the range before any store, stores each byte mod 256, and changes nothing else. -/
def Obligations.LoadStoresItsBytes : Prop :=
  ∀ (bytes : List Int) (location : Int) (s : State),
    ((location < 0 ∨ 65536 < location + bytes.length) → load bytes location s = .error .outOfRange) ∧
    ((0 ≤ location ∧ location + bytes.length ≤ 65536) →
      ∃ t, load bytes location s = .ok t ∧ t = { s with bus.cells := t.bus.cells } ∧
        ∀ a : Nat, readCell t.bus.cells a =
          if location.toNat ≤ a ∧ a < location.toNat + bytes.length
          then BitVec.ofInt 8 (bytes.getD (a - location.toNat) 0) else readCell s.bus.cells a)

/-- R54: `read` checks the range, and gives the cells of the window in order. -/
def Obligations.BulkReadGivesTheCells : Prop :=
  ∀ (location count : Int) (s : State),
    ((location < 0 ∨ 65536 ≤ location ∨ count < 0 ∨ 65536 < location + count) →
      bulkRead location count s = .error .outOfRange) ∧
    ((0 ≤ location ∧ location < 65536 ∧ 0 ≤ count ∧ location + count ≤ 65536) →
      ∃ vs, bulkRead location count s = .ok vs ∧ vs.length = count.toNat ∧
        ∀ k, k < count.toNat → vs[k]? = some (readCell s.bus.cells (location.toNat + k)))

/-- R59, R60, R234: what registering and deregistering a bus hook does to the tables, and when each is refused. The refusal of an
address outside 0 to 65535, that it comes before the check of the kind, and the refusal of an invalid kind by the
deregistration are the spec's own decision D24. -/
def Obligations.HookTablesFollowTheirCalls : Prop :=
  ∀ (address : Int) (kind : KindArg) (callback : Nat) (s : State),
    let bad := address < 0 ∨ 65536 ≤ address
    let reads := kind = .read ∨ kind = .readWrite
    let writes := kind = .write ∨ kind = .readWrite
    (bad → registerReadWriteHook address kind callback s = .error .outOfRange ∧
      deregisterReadWriteHook address kind s = .error .outOfRange) ∧
    (¬ bad → ¬ reads → ¬ writes → registerReadWriteHook address kind callback s = .error .invalidArgument ∧
      deregisterReadWriteHook address kind s = .error .invalidArgument) ∧
    (¬ bad → (reads ∨ writes) → ∃ t u, registerReadWriteHook address kind callback s = .ok t ∧
      deregisterReadWriteHook address kind s = .ok u ∧
      t = { s with bus.readHooks := t.bus.readHooks, bus.writeHooks := t.bus.writeHooks } ∧
      u = { s with bus.readHooks := u.bus.readHooks, bus.writeHooks := u.bus.writeHooks } ∧
      ∀ a : Nat,
        (a = address.toNat → reads →
          lookupKey a t.bus.readHooks = some callback ∧ lookupKey a u.bus.readHooks = none) ∧
        (a = address.toNat → writes →
          lookupKey a t.bus.writeHooks = some callback ∧ lookupKey a u.bus.writeHooks = none) ∧
        ((a ≠ address.toNat ∨ ¬ reads) →
          lookupKey a t.bus.readHooks = lookupKey a s.bus.readHooks ∧
          lookupKey a u.bus.readHooks = lookupKey a s.bus.readHooks) ∧
        ((a ≠ address.toNat ∨ ¬ writes) →
          lookupKey a t.bus.writeHooks = lookupKey a s.bus.writeHooks ∧
          lookupKey a u.bus.writeHooks = lookupKey a s.bus.writeHooks))

/-- R56, R81, R82, R83: at the bound address a CPU read gives the next draw, before and after a store there, while the
store updates the cell that `read` gives. The draw is the free value of log 4. -/
def Obligations.BoundAddressReadsDraws : Prop :=
  ∀ (a : Word) (v : Byte) (s : State), s.bus.rngBinding = some a → HostStoresNothing s →
    (memRead a s).1 = Config.rngDraw s.rngDraws ∧ (memRead a s).2.rngDraws = s.rngDraws + 1 ∧
    (memRead a (storeCell a v s)).1 = Config.rngDraw s.rngDraws ∧
    bulkRead a.toNat 1 (memWrite a v s) = .ok [v] ∧
    (memRead a s).2.bus.cells = s.bus.cells

/-- R56, R57, R51: off the bound address, with no callback that stores, a CPU read after a CPU write to the same address
gives the byte, every other cell keeps its byte, and no address faults. -/
def Obligations.ReadAfterWriteGivesTheByte : Prop :=
  ∀ (a : Word) (v : Byte) (s : State), HostStoresNothing s →
    cellAt (memWrite a v s) a = v ∧ KeepsCellsBut [a] s (memWrite a v s) ∧
    ((memWrite a v s).bus.rngBinding ≠ some a → (memRead a (memWrite a v s)).1 = v)

/-- R66 (E7), R111, R132: an absolute INC at an address with one callback for reads and writes, which does nothing, fires it once
for the read and then once for the write; both times it sees the registers and counters of before the instruction. The
events are those of log 7. -/
def Obligations.ModifyFiresOneReadAndOneWrite : Prop :=
  ∀ (a : Word) (callback : Nat) (s : State), s.script = [] →
    lookupKey a.toNat s.bus.readHooks = some callback → lookupKey a.toNat s.bus.writeHooks = some callback →
    ∃ t, exec (.inc (.abs a)) s = .next t ∧
      t.hookLog = s.hookLog ++
        [{ callback := callback, kind := .read, cpu := s.cpu, instructionCount := s.instructionCount,
           tickCount := s.tickCount },
         { callback := callback, kind := .write, cpu := s.cpu, instructionCount := s.instructionCount,
           tickCount := s.tickCount }]

/-- R126: the instruction hooks fire once each, in registration order, from the list as it stood when firing began, and all
see the same registers and counters. The events are those of log 7. -/
def Obligations.InstructionHooksFireInOrder : Prop :=
  ∀ s : State,
    (fireInstructionHooks s).hookLog = s.hookLog ++ s.bus.instructionHooks.map (fun callback =>
      { callback := callback, kind := .instruction, cpu := s.cpu, instructionCount := s.instructionCount,
        tickCount := s.tickCount })

/-- R132: every callback of an execute phase but BRK's sees A, X, Y, P, PC and the counters as they stood before it.
The events are those of log 7; BRK is log 14. -/
def Obligations.CallbacksSeeRegistersOfBefore : Prop :=
  ∀ (i : Instr) (s t : State), exec i s = .next t → i ≠ .brk →
    ∃ events, t.hookLog = s.hookLog ++ events ∧ ∀ e ∈ events,
      e.cpu = { s.cpu with s := e.cpu.s } ∧ e.instructionCount = s.instructionCount ∧ e.tickCount = s.tickCount

/-! ### Operands -/

/-- R100 to R106: the direct and indexed effective addresses, in every state, with no bus access. -/
def Obligations.IndexedAddressesWrap : Prop :=
  ∀ (s : State) (z : Byte) (a : Word),
    (∀ m, m = .zp z ∨ m = .zpX z ∨ m = .zpY z ∨ m = .abs a ∨ m = .absX a ∨ m = .absY a → (resolve m s).state = s) ∧
    (resolve (.zp z) s).ea.toNat = z.toNat ∧
    (resolve (.zpX z) s).ea.toNat = (z.toNat + s.cpu.x.toNat) % 256 ∧
    (resolve (.zpY z) s).ea.toNat = (z.toNat + s.cpu.y.toNat) % 256 ∧
    (resolve (.abs a) s).ea = a ∧
    (resolve (.absX a) s).ea.toNat = (a.toNat + s.cpu.x.toNat) % 65536 ∧
    (resolve (.absY a) s).ea.toNat = (a.toNat + s.cpu.y.toNat) % 65536 ∧
    ((resolve (.absX a) s).cross = true ↔ a.toNat / 256 ≠ (a.toNat + s.cpu.x.toNat) % 65536 / 256) ∧
    ((resolve (.absY a) s).cross = true ↔ a.toNat / 256 ≠ (a.toNat + s.cpu.y.toNat) % 65536 / 256)

/-- R108, R109: with no hook and no RNG binding, both pointer bytes come from page zero, and the (zp),Y sum wraps. -/
def Obligations.IndirectAddressesUsePageZero : Prop :=
  ∀ (s : State) (z : Byte), Quiet s →
    let p := (z.toNat + s.cpu.x.toNat) % 256
    let base := wordAt s (BitVec.ofNat 16 z.toNat) (BitVec.ofNat 16 ((z.toNat + 1) % 256))
    (resolve (.indX z) s).state = s ∧ (resolve (.indY z) s).state = s ∧
    (resolve (.indX z) s).ea = wordAt s (BitVec.ofNat 16 p) (BitVec.ofNat 16 ((p + 1) % 256)) ∧
    (resolve (.indY z) s).ea.toNat = (base.toNat + s.cpu.y.toNat) % 65536 ∧
    ((resolve (.indY z) s).cross = true ↔ base.toNat / 256 ≠ (resolve (.indY z) s).ea.toNat / 256)

/-- R99, R111, R118: an immediate operand is its byte; a memory operand is, with no hook and no RNG binding, the byte in the
cell at the effective address; neither changes the state. -/
def Obligations.ReadOperandsGiveTheCell : Prop :=
  ∀ (s : State) (v : Byte) (m : MemMode),
    (readOperand (.imm v) s).value = v ∧ (readOperand (.imm v) s).state = s ∧
    (Quiet s → (readOperand (.mem m) s).value = cellAt s (resolve m s).ea ∧ (readOperand (.mem m) s).state = s)

/-! ### 41_load_store.md -/

/-- R140, R141, R142: LDA, LDX and LDY complete in every state and load their register with M, setting N and Z from M. -/
def Obligations.LoadsPutTheOperandInTheRegister : Prop :=
  ∀ (s : State) (o : ReadOperand),
    let v := (readOperand o s).value
    ((Instr.lda o).wellFormed = true → ∃ t, exec (.lda o) s = .next t ∧ t.cpu.a = v ∧ SetsNZ v s.cpu.p t.cpu.p) ∧
    ((Instr.ldx o).wellFormed = true → ∃ t, exec (.ldx o) s = .next t ∧ t.cpu.x = v ∧ SetsNZ v s.cpu.p t.cpu.p) ∧
    ((Instr.ldy o).wellFormed = true → ∃ t, exec (.ldy o) s = .next t ∧ t.cpu.y = v ∧ SetsNZ v s.cpu.p t.cpu.p)

/-- R143, R144, R145: STA, STX and STY complete in every state, leave every register, and (unless a callback stores too)
put their register in the one cell of the effective address. -/
def Obligations.StoresPutTheRegisterInTheCell : Prop :=
  ∀ (s : State) (m : MemMode),
    let ea := (resolve m s).ea
    ((Instr.sta m).wellFormed = true → ∃ t, exec (.sta m) s = .next t ∧ t.cpu = s.cpu ∧
      (HostStoresNothing s → cellAt t ea = s.cpu.a ∧ KeepsCellsBut [ea] s t)) ∧
    ((Instr.stx m).wellFormed = true → ∃ t, exec (.stx m) s = .next t ∧ t.cpu = s.cpu ∧
      (HostStoresNothing s → cellAt t ea = s.cpu.x ∧ KeepsCellsBut [ea] s t)) ∧
    ((Instr.sty m).wellFormed = true → ∃ t, exec (.sty m) s = .next t ∧ t.cpu = s.cpu ∧
      (HostStoresNothing s → cellAt t ea = s.cpu.y ∧ KeepsCellsBut [ea] s t))

/-! ### 42_transfer_stack.md -/

/-- R150 to R155: the six transfers, each of one byte and two ticks, complete in every state with no bus access and copy one
register; all but TXS set N and Z, and TXS changes no flag. -/
def Obligations.TransfersCopyTheRegister : Prop :=
  ∀ s : State,
    RunsAs .tax [0xAA] 2 0
      (fun c => c = { s.cpu with x := s.cpu.a, p := c.p } ∧ SetsNZ s.cpu.a s.cpu.p c.p) s ∧
    RunsAs .tay [0xA8] 2 0
      (fun c => c = { s.cpu with y := s.cpu.a, p := c.p } ∧ SetsNZ s.cpu.a s.cpu.p c.p) s ∧
    RunsAs .tsx [0xBA] 2 0
      (fun c => c = { s.cpu with x := s.cpu.s, p := c.p } ∧ SetsNZ s.cpu.s s.cpu.p c.p) s ∧
    RunsAs .txa [0x8A] 2 0
      (fun c => c = { s.cpu with a := s.cpu.x, p := c.p } ∧ SetsNZ s.cpu.x s.cpu.p c.p) s ∧
    RunsAs .txs [0x9A] 2 0 (fun c => c = { s.cpu with s := s.cpu.x }) s ∧
    RunsAs .tya [0x98] 2 0
      (fun c => c = { s.cpu with a := s.cpu.y, p := c.p } ∧ SetsNZ s.cpu.y s.cpu.p c.p) s

/-- R156, R157, R11, R23: PHA and PHP complete in every state, store at 0x0100 + S and then decrement S mod 256; PHP's copy
has bits 5 and 4 set, and P itself keeps its value. -/
def Obligations.PushesStoreBelowTheStack : Prop :=
  ∀ s : State,
    let slot : Word := BitVec.ofNat 16 (0x0100 + s.cpu.s.toNat)
    (∃ t, exec .pha s = .next t ∧ t.cpu = { s.cpu with s := s.cpu.s - 1 } ∧
      (HostStoresNothing s → cellAt t slot = s.cpu.a ∧ KeepsCellsBut [slot] s t)) ∧
    (∃ t, exec .php s = .next t ∧ t.cpu = { s.cpu with s := s.cpu.s - 1 } ∧
      (HostStoresNothing s → cellAt t slot = s.cpu.p ||| 0x30 ∧ KeepsCellsBut [slot] s t))

/-- R158, R159, R11, R25: PLA and PLP complete in every state and increment S mod 256; PLA loads A and sets N and Z, PLP loads
P with bit 5 forced to 1 and B to 0. With no hook and no RNG binding the byte is the cell at 0x0100 + (S + 1). -/
def Obligations.PullsLoadFromTheStack : Prop :=
  ∀ s : State,
    let v := (pull s).1
    (∃ t, exec .pla s = .next t ∧ t.cpu = { s.cpu with a := v, s := s.cpu.s + 1, p := t.cpu.p } ∧
      SetsNZ v s.cpu.p t.cpu.p) ∧
    (∃ t, exec .plp s = .next t ∧ t.cpu = { s.cpu with s := s.cpu.s + 1, p := (v &&& 0xCF) ||| 0x20 }) ∧
    (Quiet s → v = cellAt s (BitVec.ofNat 16 (0x0100 + (s.cpu.s.toNat + 1) % 256)))

/-! ### 43_arithmetic.md -/

/-- R160, R164: AddBinary is the sum mod 256, C the unsigned carry, V says that the signed sum is out of range and is the formula
of R160, N and Z are read from the result; AddBinary of `~m`, which is what R164 subtracts with, is `a - m - (1 - c)`, with C
saying that no borrow occurred. -/
def Obligations.BinaryArithmeticIsExact : Prop :=
  ∀ (a m : Byte) (c : Bool),
    let r := addBinary a m c
    let carry : Nat := if c then 1 else 0
    let q := addBinary a (~~~m) c
    let borrow : Int := if c then 0 else 1
    (r.result.toNat = (a.toNat + m.toNat + carry) % 256 ∧
      (r.c = true ↔ a.toNat + m.toNat + carry > 0xFF) ∧
      (r.v = true ↔ a.toInt + m.toInt + carry < -128 ∨ 127 < a.toInt + m.toInt + carry) ∧
      (r.v = true ↔ (~~~(a ^^^ m)) &&& (a ^^^ r.result) &&& 0x80 ≠ 0) ∧
      r.n = r.result.getLsbD 7 ∧ (r.z = true ↔ r.result = 0)) ∧
    ((q.result.toNat : Int) = ((a.toNat : Int) - m.toNat - borrow) % 256 ∧
      (q.c = true ↔ (a.toNat : Int) ≥ m.toNat + borrow) ∧
      (q.v = true ↔ a.toInt - m.toInt - borrow < -128 ∨ 127 < a.toInt - m.toInt - borrow))

/-- R161, R165: for valid BCD operands decimal addition is the sum mod 100, in BCD, with the carry of 100 or more, and decimal
subtraction the difference mod 100, in BCD, with C 0 exactly when a borrow occurred, whichever flag parameter holds.
C of the subtraction is the model's reading (log 3). -/
def Obligations.DecimalArithmeticIsBcd : Prop :=
  ∀ (how : Config.DecimalFlags) (a m : Byte) (c : Bool), isBcd a = true → isBcd m = true →
    let r := addDecimal how a m c
    let sum := bcdValue a + bcdValue m + (if c then 1 else 0)
    let q := subtractDecimal how a m c
    let difference : Int := (bcdValue a : Int) - bcdValue m - (if c then 0 else 1)
    (isBcd r.result = true ∧ bcdValue r.result = sum % 100 ∧ (r.c = true ↔ sum ≥ 100)) ∧
    (isBcd q.result = true ∧ (bcdValue q.result : Int) = difference % 100 ∧ (q.c = false ↔ difference < 0))

/-- R163, R165: the NMOS N, V and Z of decimal mode: Z from the binary sum, N and V from the intermediate `t1`, whose high digit
is the sum of the high digits and the low digit's carry; SBC's are those of the binary difference.
C of the subtraction is the model's reading (log 3). -/
def Obligations.DecimalFlagsAreNmos : Prop :=
  ∀ (a m : Byte) (c : Bool),
    let carry : Nat := if c then 1 else 0
    let low := a.toNat % 16 + m.toNat % 16 + carry
    let high := a.toNat / 16 + m.toNat / 16 + (if low ≥ 10 then 1 else 0)
    let r := addDecimal .nmos a m c
    let q := subtractDecimal .nmos a m c
    let b := addBinary a (~~~m) c
    (r.z = true ↔ (a.toNat + m.toNat + carry) % 256 = 0) ∧
    (r.n = true ↔ high % 16 ≥ 8) ∧
    (r.v = true ↔ a.getLsbD 7 = m.getLsbD 7 ∧ (a.getLsbD 7 ≠ decide (high % 16 ≥ 8))) ∧
    q.n = b.n ∧ q.v = b.v ∧ q.z = b.z ∧ q.c = b.c

/-- R162, R164: ADC and SBC complete in every state and write A and N, V, Z, C: binary when D is clear, decimal when it is set,
with the flag functions the parameters choose. The parameters are those of log 1 and 3. -/
def Obligations.AdcAndSbcWriteTheResult : Prop :=
  ∀ (s : State) (o : ReadOperand),
    let v := (readOperand o s).value
    let a := s.cpu.a
    let c := flagOf .c s.cpu.p
    ((Instr.adc o).wellFormed = true → ∃ t, exec (.adc o) s = .next t ∧
      (flagOf .d s.cpu.p = false → t.cpu.a = (addBinary a v c).result ∧ SetsNVZC (addBinary a v c) s.cpu.p t.cpu.p) ∧
      (flagOf .d s.cpu.p = true →
        let r := addDecimal s.params.decimalAdcFlags a v c
        t.cpu.a = r.result ∧ SetsNVZC r s.cpu.p t.cpu.p)) ∧
    ((Instr.sbc o).wellFormed = true → ∃ t, exec (.sbc o) s = .next t ∧
      (flagOf .d s.cpu.p = false →
        t.cpu.a = (addBinary a (~~~v) c).result ∧ SetsNVZC (addBinary a (~~~v) c) s.cpu.p t.cpu.p) ∧
      (flagOf .d s.cpu.p = true →
        let r := subtractDecimal s.params.decimalSbcFlags a v c
        t.cpu.a = r.result ∧ SetsNVZC r s.cpu.p t.cpu.p))

/-- R166 to R169: CMP, CPX and CPY complete in every state and write C, Z and N of the unsigned comparison, and no register. -/
def Obligations.ComparesSetTheFlags : Prop :=
  ∀ (s : State) (o : ReadOperand),
    let v := (readOperand o s).value
    ((Instr.cmp o).wellFormed = true → ∃ t, exec (.cmp o) s = .next t ∧ t.cpu = { s.cpu with p := t.cpu.p } ∧
      SetsCompare s.cpu.a v s.cpu.p t.cpu.p) ∧
    ((Instr.cpx o).wellFormed = true → ∃ t, exec (.cpx o) s = .next t ∧ t.cpu = { s.cpu with p := t.cpu.p } ∧
      SetsCompare s.cpu.x v s.cpu.p t.cpu.p) ∧
    ((Instr.cpy o).wellFormed = true → ∃ t, exec (.cpy o) s = .next t ∧ t.cpu = { s.cpu with p := t.cpu.p } ∧
      SetsCompare s.cpu.y v s.cpu.p t.cpu.p)

/-! ### 44_logic_bit.md -/

/-- R170, R171, R172, R173: AND, EOR and ORA complete in every state, write A bit by bit and set N and Z from it; BIT writes Z
from A and M, N and V from bits 7 and 6 of M, and no register. -/
def Obligations.LogicWritesBitByBit : Prop :=
  ∀ (s : State) (o : ReadOperand) (m : MemMode),
    let v := (readOperand o s).value
    let b := (readOperand (.mem m) s).value
    ((Instr.and o).wellFormed = true → ∃ t, exec (.and o) s = .next t ∧ SetsNZ t.cpu.a s.cpu.p t.cpu.p ∧
      ∀ k, t.cpu.a.getLsbD k = (s.cpu.a.getLsbD k && v.getLsbD k)) ∧
    ((Instr.eor o).wellFormed = true → ∃ t, exec (.eor o) s = .next t ∧ SetsNZ t.cpu.a s.cpu.p t.cpu.p ∧
      ∀ k, t.cpu.a.getLsbD k = (s.cpu.a.getLsbD k ^^ v.getLsbD k)) ∧
    ((Instr.ora o).wellFormed = true → ∃ t, exec (.ora o) s = .next t ∧ SetsNZ t.cpu.a s.cpu.p t.cpu.p ∧
      ∀ k, t.cpu.a.getLsbD k = (s.cpu.a.getLsbD k || v.getLsbD k)) ∧
    ((Instr.bit m).wellFormed = true → ∃ t, exec (.bit m) s = .next t ∧ t.cpu = { s.cpu with p := t.cpu.p } ∧
      flagOf .z t.cpu.p = decide (s.cpu.a &&& b = 0) ∧ flagOf .n t.cpu.p = b.getLsbD 7 ∧
      flagOf .v t.cpu.p = b.getLsbD 6 ∧ KeepsFlagsBut [.z, .n, .v] s.cpu.p t.cpu.p)

/-! ### 45_inc_dec_shift.md -/

/-- R180, R181: INC and DEC complete in every state, set N and Z from the result and write no other register; unless a callback
stores too, the cell of the effective address holds the result and every other cell its old byte. -/
def Obligations.IncAndDecWriteTheCell : Prop :=
  ∀ (s : State) (m : MemMode),
    let ea := (resolve m s).ea
    let up : Byte := BitVec.ofNat 8 ((dataAt m s).toNat + 1)
    let down : Byte := BitVec.ofNat 8 ((dataAt m s).toNat + 255)
    ((Instr.inc m).wellFormed = true → ∃ t, exec (.inc m) s = .next t ∧ t.cpu = { s.cpu with p := t.cpu.p } ∧
      SetsNZ up s.cpu.p t.cpu.p ∧ (HostStoresNothing s → cellAt t ea = up ∧ KeepsCellsBut [ea] s t)) ∧
    ((Instr.dec m).wellFormed = true → ∃ t, exec (.dec m) s = .next t ∧ t.cpu = { s.cpu with p := t.cpu.p } ∧
      SetsNZ down s.cpu.p t.cpu.p ∧ (HostStoresNothing s → cellAt t ea = down ∧ KeepsCellsBut [ea] s t)) ∧
    (Quiet s → dataAt m s = cellAt s ea)

/-- R182 to R185: INX, INY, DEX and DEY, each of one byte and two ticks, complete in every state with no bus access, count mod
256 and set N and Z; C and V keep their value. -/
def Obligations.RegisterCountsWrap : Prop :=
  ∀ s : State,
    RunsAs .inx [0xE8] 2 0 (fun c => c = { s.cpu with x := c.x, p := c.p } ∧
      c.x.toNat = (s.cpu.x.toNat + 1) % 256 ∧ SetsNZ c.x s.cpu.p c.p) s ∧
    RunsAs .iny [0xC8] 2 0 (fun c => c = { s.cpu with y := c.y, p := c.p } ∧
      c.y.toNat = (s.cpu.y.toNat + 1) % 256 ∧ SetsNZ c.y s.cpu.p c.p) s ∧
    RunsAs .dex [0xCA] 2 0 (fun c => c = { s.cpu with x := c.x, p := c.p } ∧
      c.x.toNat = (s.cpu.x.toNat + 255) % 256 ∧ SetsNZ c.x s.cpu.p c.p) s ∧
    RunsAs .dey [0x88] 2 0 (fun c => c = { s.cpu with y := c.y, p := c.p } ∧
      c.y.toNat = (s.cpu.y.toNat + 255) % 256 ∧ SetsNZ c.y s.cpu.p c.p) s

/-- R186 to R189: the accumulator forms complete in every state; the result is arithmetic on A and the old C, the bit shifted out
goes to C, and N and Z come from the result. -/
def Obligations.AccumulatorShiftsAreArithmetic : Prop :=
  ∀ s : State,
    let v := s.cpu.a.toNat
    let c : Nat := if flagOf .c s.cpu.p then 1 else 0
    (∃ t, exec (.asl .acc) s = .next t ∧ t.cpu = { s.cpu with a := t.cpu.a, p := t.cpu.p } ∧
      t.cpu.a.toNat = 2 * v % 256 ∧ SetsCNZ (decide (v ≥ 128)) t.cpu.a s.cpu.p t.cpu.p) ∧
    (∃ t, exec (.lsr .acc) s = .next t ∧ t.cpu = { s.cpu with a := t.cpu.a, p := t.cpu.p } ∧
      t.cpu.a.toNat = v / 2 ∧ SetsCNZ (decide (v % 2 = 1)) t.cpu.a s.cpu.p t.cpu.p) ∧
    (∃ t, exec (.rol .acc) s = .next t ∧ t.cpu = { s.cpu with a := t.cpu.a, p := t.cpu.p } ∧
      t.cpu.a.toNat = (2 * v + c) % 256 ∧ SetsCNZ (decide (v ≥ 128)) t.cpu.a s.cpu.p t.cpu.p) ∧
    (∃ t, exec (.ror .acc) s = .next t ∧ t.cpu = { s.cpu with a := t.cpu.a, p := t.cpu.p } ∧
      t.cpu.a.toNat = v / 2 + 128 * c ∧ SetsCNZ (decide (v % 2 = 1)) t.cpu.a s.cpu.p t.cpu.p)

/-- R186 to R189: the memory forms complete in every state and leave every register but P; the flags come from the byte read,
and, unless a callback stores too, the cell of the effective address holds the result and every other cell its old byte. -/
def Obligations.MemoryShiftsWriteTheCell : Prop :=
  ∀ (s : State) (m : MemMode),
    let ea := (resolve m s).ea
    let v := (dataAt m s).toNat
    let c : Nat := if flagOf .c s.cpu.p then 1 else 0
    let shifts := fun (i : Instr) (r : Byte) (out : Bool) => i.wellFormed = true →
      ∃ t, exec i s = .next t ∧ t.cpu = { s.cpu with p := t.cpu.p } ∧ SetsCNZ out r s.cpu.p t.cpu.p ∧
        (HostStoresNothing s → cellAt t ea = r ∧ KeepsCellsBut [ea] s t)
    shifts (.asl (.mem m)) (BitVec.ofNat 8 (2 * v)) (decide (v ≥ 128)) ∧
    shifts (.lsr (.mem m)) (BitVec.ofNat 8 (v / 2)) (decide (v % 2 = 1)) ∧
    shifts (.rol (.mem m)) (BitVec.ofNat 8 (2 * v + c)) (decide (v ≥ 128)) ∧
    shifts (.ror (.mem m)) (BitVec.ofNat 8 (v / 2 + 128 * c)) (decide (v % 2 = 1))

/-! ### 46_control_transfer.md -/

/-- R190 to R198, R103, R272: every branch, of two bytes, completes in every state, changes PC only, and goes to PC plus the signed
displacement mod 65536 when its flag says so, else to the next instruction; it counts two ticks, and under `nmos` one more
when taken and one more again when its target lies in another page than the next instruction. -/
def Obligations.BranchesFollowTheirFlag : Prop :=
  ∀ (s : State) (d : Byte),
    let target := ((s.cpu.pc.toNat : Int) + d.toInt) % 65536
    let cross : Nat := if (s.cpu.pc.toNat : Int) / 256 = target / 256 then 0 else 1
    let goes := fun (i : Instr) (op : Byte) (taken : Bool) =>
      RunsAs i [op, d] 2 (if taken then 1 + cross else 0) (fun c => c = { s.cpu with pc := c.pc } ∧
        (c.pc.toNat : Int) = if taken then target else s.cpu.pc.toNat) s
    goes (.bpl d) 0x10 (!s.cpu.p.getLsbD 7) ∧ goes (.bmi d) 0x30 (s.cpu.p.getLsbD 7) ∧
    goes (.bvc d) 0x50 (!s.cpu.p.getLsbD 6) ∧ goes (.bvs d) 0x70 (s.cpu.p.getLsbD 6) ∧
    goes (.bcc d) 0x90 (!s.cpu.p.getLsbD 0) ∧ goes (.bcs d) 0xB0 (s.cpu.p.getLsbD 0) ∧
    goes (.bne d) 0xD0 (!s.cpu.p.getLsbD 1) ∧ goes (.beq d) 0xF0 (s.cpu.p.getLsbD 1)

/-- R199, R104, R107: JMP completes in every state and changes PC only; the indirect form, with no hook and no RNG binding, takes
the target's high byte from the pointer's own page. -/
def Obligations.JumpsReadTheirTarget : Prop :=
  ∀ (s : State) (w : Word),
    (∃ t, exec (.jmp (.abs w)) s = .next t ∧ t.cpu = { s.cpu with pc := w }) ∧
    (∃ t, exec (.jmp (.ind w)) s = .next t ∧ t.cpu = { s.cpu with pc := t.cpu.pc } ∧
      (Quiet s → t.cpu.pc =
        wordAt s w (BitVec.ofNat 16 (w.toNat / 256 * 256 + (w.toNat + 1) % 256))))

/-- R200: JSR completes in every state, jumps and lowers S by two; unless a callback stores too, the two stack cells hold the high
and the low byte of the address of its own last byte, and every other cell its old byte. -/
def Obligations.JsrPushesItsLastAddress : Prop :=
  ∀ (s : State) (w : Word),
    let high : Word := BitVec.ofNat 16 (0x0100 + s.cpu.s.toNat)
    let low : Word := BitVec.ofNat 16 (0x0100 + (s.cpu.s.toNat + 255) % 256)
    let ret := (s.cpu.pc.toNat + 65535) % 65536
    ∃ t, exec (.jsr w) s = .next t ∧ t.cpu = { s.cpu with s := s.cpu.s - 2, pc := w } ∧
      (HostStoresNothing s → (cellAt t high).toNat = ret / 256 ∧ (cellAt t low).toNat = ret % 256 ∧
        KeepsCellsBut [high, low] s t)

/-- R201: RTS completes in every state, raises S by two and changes PC; with no hook and no RNG binding PC is the pulled address
plus one. -/
def Obligations.RtsReturnsPastThePulledAddress : Prop :=
  ∀ s : State,
    let low : Word := BitVec.ofNat 16 (0x0100 + (s.cpu.s.toNat + 1) % 256)
    let high : Word := BitVec.ofNat 16 (0x0100 + (s.cpu.s.toNat + 2) % 256)
    ∃ t, exec .rts s = .next t ∧ t.cpu = { s.cpu with s := s.cpu.s + 2, pc := t.cpu.pc } ∧
      (Quiet s → t.cpu.pc.toNat = ((cellAt s high).toNat * 256 + (cellAt s low).toNat + 1) % 65536)

/-- R200, R201: with no hook and no RNG binding, an RTS on the frame a JSR left returns to the instruction after the JSR with the
stack as it was, wherever the stack pointer stood. -/
def Obligations.RtsUndoesJsr : Prop :=
  ∀ (s : State) (w pc : Word), Quiet s →
    ∃ t u, exec (.jsr w) s = .next t ∧ exec .rts { t with cpu.pc := pc } = .next u ∧ u.cpu = s.cpu

/-! ### 47_flags_system.md -/

/-- R210 to R216: the seven flag instructions, each of one byte and two ticks, complete in every state with no bus access and write
their one flag. -/
def Obligations.FlagInstructionsWriteOneFlag : Prop :=
  ∀ s : State,
    let writes := fun (i : Instr) (op : Byte) (f : Flag) (v : Bool) =>
      RunsAs i [op] 2 0 (fun c => c = { s.cpu with p := c.p } ∧ flagOf f c.p = v ∧ KeepsFlagsBut [f] s.cpu.p c.p) s
    writes .clc 0x18 .c false ∧ writes .sec 0x38 .c true ∧ writes .cli 0x58 .i false ∧ writes .sei 0x78 .i true ∧
    writes .clv 0xB8 .v false ∧ writes .cld 0xD8 .d false ∧ writes .sed 0xF8 .d true

/-- R217, R125: NOP, of one byte and two ticks, completes in every state and changes the two counters only; so does an illegal
byte under `illegalPolicy = nop`, with `illegalTicks` (default 2), and under `fault` it faults with the opcode's address and
the byte. -/
def Obligations.NopAndIllegalBytes : Prop :=
  ∀ (s : State) (op : Byte) (opAddr : Word),
    RunsAs .nop [0xEA] 2 0 (fun c => c = s.cpu) s ∧
    ((Instr.illegal op).wellFormed = true → encode (.illegal op) = [op]) ∧
    ({} : Config.Params).illegalPolicy = .nop ∧ ({} : Config.Params).illegalTicks = 2 ∧
    (s.params.illegalPolicy = .nop → (Instr.illegal op).wellFormed = true → exec (.illegal op) s =
      .next { s with tickCount := s.tickCount + s.params.illegalTicks, instructionCount := s.instructionCount + 1 }) ∧
    (s.params.illegalPolicy = .fault → s.cpu.pc = opAddr + 1 →
      exec (.illegal op) s = .fault (.illegalOpcode opAddr op))

/-- R218: BRK completes in every state, whatever I is: S falls by three, I is set, D and the other flags keep their value; unless
a callback stores too, the frame holds PC past the padding byte and P with bits 5 and 4 set; with no hook and no RNG binding PC
comes from 0xFFFE and 0xFFFF. -/
def Obligations.BrkEntersTheHandler : Prop :=
  ∀ s : State,
    let ret := (s.cpu.pc.toNat + 1) % 65536
    ∃ t, exec .brk s = .next t ∧ t.cpu = { s.cpu with s := s.cpu.s - 3, p := t.cpu.p, pc := t.cpu.pc } ∧
      flagOf .i t.cpu.p = true ∧ KeepsFlagsBut [.i] s.cpu.p t.cpu.p ∧
      (HostStoresNothing s → (cellAt t (stackAddr s.cpu.s)).toNat = ret / 256 ∧
        (cellAt t (stackAddr (s.cpu.s - 1))).toNat = ret % 256 ∧
        cellAt t (stackAddr (s.cpu.s - 2)) = s.cpu.p ||| 0x30 ∧
        KeepsCellsBut [stackAddr s.cpu.s, stackAddr (s.cpu.s - 1), stackAddr (s.cpu.s - 2)] s t) ∧
      (Quiet s → t.cpu.pc = wordAt s 0xFFFE 0xFFFF)

/-- R219: RTI completes in every state: S rises by three and P is loaded with its fixed bits; with no hook and no RNG binding P's
copy, PC low and PC high are the three cells above S. -/
def Obligations.RtiRestoresStatusAndPc : Prop :=
  ∀ s : State,
    ∃ t v, exec .rti s = .next t ∧
      t.cpu = { s.cpu with s := s.cpu.s + 3, p := (v &&& 0xCF) ||| 0x20, pc := t.cpu.pc } ∧
      (Quiet s → v = cellAt s (stackAddr (s.cpu.s + 1)) ∧
        t.cpu.pc = wordAt s (stackAddr (s.cpu.s + 2)) (stackAddr (s.cpu.s + 3)))

/-! ### Frames over all instructions -/

/-- R21, R22, R23, R27: an execute phase leaves A, X, Y, S and PC alone unless the spec lists the instruction among the register's
writers. -/
def Obligations.OnlyListedInstructionsWriteARegister : Prop :=
  ∀ (i : Instr) (s t : State), exec i s = .next t →
    (writesA i = false → t.cpu.a = s.cpu.a) ∧ (writesX i = false → t.cpu.x = s.cpu.x) ∧
    (writesY i = false → t.cpu.y = s.cpu.y) ∧ (writesS i = false → t.cpu.s = s.cpu.s) ∧
    (writesPC i = false → t.cpu.pc = s.cpu.pc)

/-- R26, R25: an execute phase leaves every flag the spec does not list for the instruction, and keeps P's fixed bits. -/
def Obligations.OnlyListedFlagsChange : Prop :=
  ∀ (i : Instr) (s t : State), exec i s = .next t →
    (∀ f, f ∉ flagsWritten i → flagOf f t.cpu.p = flagOf f s.cpu.p) ∧
    (statusFixed s.cpu.p = true → statusFixed t.cpu.p = true) ∧
    (flagsWritten i = [] → t.cpu.p = s.cpu.p)

/-- R111 and the stack rules: unless a callback stores too, an execute phase leaves every cell but those the instruction stores
to, at the addresses its meaning computes; for a form that stores nothing, every cell. What a callback stores is log 6. -/
def Obligations.OnlyStoredCellsChange : Prop :=
  ∀ (i : Instr) (s t : State), exec i s = .next t → HostStoresNothing s → KeepsCellsBut (storedTo i s) s t

/-- R28, R31 to R34, R36: with no hook and no RNG binding, an execute phase leaves the pending flags, the phase, the parameters,
the hook tables, the RNG binding and the draw count; of the bus only cells change. -/
def Obligations.ExecuteLeavesTheRestAlone : Prop :=
  ∀ (i : Instr) (s t : State), exec i s = .next t → Quiet s →
    t = { s with cpu := t.cpu, bus.cells := t.bus.cells, tickCount := t.tickCount,
                 instructionCount := s.instructionCount + 1 }

/-- R123, R124, R271, R272: an execute phase that answers adds 1 to `instructionCount` and the instruction's ticks to `tickCount`:
its cost, and under `nmos` 1 for a page cross of a read-class indexed form. Stated here for the forms that are no branch. -/
def Obligations.ExecuteCountsItsTicks : Prop :=
  ∀ (i : Instr) (s t : State), exec i s = .next t → i.format ≠ .relative →
    ∃ op extra, i.opcode = some op ∧ t.instructionCount = s.instructionCount + 1 ∧
      t.tickCount = s.tickCount + tickCost s.params i op + extra ∧
      (s.params.penaltyPolicy = .none → extra = 0) ∧
      (s.params.penaltyPolicy = .nmos → extra = match i with
        | .lda (.mem m) | .ldx (.mem m) | .ldy (.mem m) | .adc (.mem m) | .sbc (.mem m) | .cmp (.mem m)
        | .and (.mem m) | .eor (.mem m) | .ora (.mem m) => bitNat (resolve m s).cross
        | _ => 0)

/-! ### The step -/

/-- R120, R96: when no hook and no RNG binding stand on the instruction's bytes and the cells at PC and up decode to `i`, a step
runs `i` with PC past its bytes, then fires the instruction hooks and passes the check point. -/
def Obligations.StepRunsTheDecodedInstruction : Prop :=
  ∀ (s : State) (i : Instr) (rest : List Byte), s.phase = .running → s.inStep = false →
    decode [cellAt s s.cpu.pc, cellAt s (s.cpu.pc + 1), cellAt s (s.cpu.pc + 2)] = .ok (i, rest) →
    (∀ k, k < i.length → lookupKey (s.cpu.pc + BitVec.ofNat 16 k).toNat s.bus.readHooks = none ∧
      s.bus.rngBinding ≠ some (s.cpu.pc + BitVec.ofNat 16 k)) →
    step s = match exec i { s with inStep := true, stop := none, cpu.pc := s.cpu.pc + BitVec.ofNat 16 i.length } with
      | .next u => endStep (checkPoint (fireInstructionHooks u))
      | .fault r => .fault r
      | .refused r => .refused r

/-- R130, R65, R120, R263: a step, stepTimes of at least 1 and exec of a target not yet reached are refused before the first
reset; a step and a reset are refused while one is in progress. Where both hold (a callback of the first reset's vector
reads) step, called from outside, gives NotReset, and stepTimes, exec and every call made inside a callback give
ReentrantStep: these reasons are the model's choice (log 27). -/
def Obligations.StepsAreRefusedOutOfPlace : Prop :=
  ∀ (s : State) (n target : Nat),
    (s.phase = .uninitialized → step s = .refused .notReset) ∧
    (s.phase = .uninitialized → s.inStep = false →
      stepTimes (n + 1) s = .refused .notReset ∧ stepTimes 0 s = .next s ∧
      (s.tickCount < target → execTo target s = some (.refused .notReset)) ∧
      (target ≤ s.tickCount → execTo target s = some (.next s))) ∧
    (s.phase = .running → s.inStep = true → step s = .refused .reentrantStep) ∧
    (s.inStep = true → hostReset s = .refused .reentrantStep ∧ stepTimes n s = .refused .reentrantStep ∧
      execTo target s = some (.refused .reentrantStep)) ∧
    (s.stop = none → ∀ c : HostCall, c = .step ∨ c = .stepTimes n ∨ c = .exec target ∨ c = .reset →
      callInside c s = { s with stop := some .reentrantStep })

/-- R12, R131, R233: a running machine between steps, whose illegal bytes are no-ops and whose callbacks make only admitted
calls, always steps on; the next state is again such a machine. The host's choices are those of log 6. -/
def Obligations.TheEngineAlwaysStepsOn : Prop :=
  ∀ s : State, s.phase = .running → s.inStep = false → s.params.illegalPolicy = .nop → scriptAdmitted s = true →
    ∃ t, step s = .next t ∧ t.phase = .running ∧ t.inStep = false ∧ t.params = s.params ∧ scriptAdmitted t = true

/-- R124, R238, R128, R129, R237: a step that answers adds exactly 1 to `instructionCount`, a service at its check point included;
under the default parameters it adds at least 2 and at most 14 ticks. The two bounds are the spec's inference (R128 and
R129 mark theirs as derived), not the words of a rule. -/
def Obligations.EachStepCountsOneInstruction : Prop :=
  ∀ s t : State, step s = .next t → t.instructionCount = s.instructionCount + 1 ∧
    (s.params = {} → s.tickCount + 2 ≤ t.tickCount ∧ t.tickCount ≤ s.tickCount + 14)

/-- R127, R124: `stepTimes(n)` runs n steps in order and ends with the first outcome that is no next state; one that answers has
counted n instructions. -/
def Obligations.StepTimesRunsItsSteps : Prop :=
  ∀ (n : Nat) (s : State), s.inStep = false →
    stepTimes n s = Host.Core.run Sys2Proof.core n s ∧
    ∀ t, stepTimes n s = .next t → t.instructionCount = s.instructionCount + n

/-- R128: under the default parameters `exec` runs whole steps until it reaches its target, with an overshoot below 14 ticks, runs
no step when the target is already reached, and never runs on for ever. The bound on its steps is the model's (log 21). -/
def Obligations.ExecReachesItsTarget : Prop :=
  ∀ (target : Nat) (s : State), s.params = {} → s.inStep = false →
    (target ≤ s.tickCount → execTo target s = some (.next s)) ∧
    (∃ r, execTo target s = some r) ∧
    (∀ t, execTo target s = some (.next t) →
      (∃ n, Host.Core.run Sys2Proof.core n s = .next t) ∧
      (s.tickCount < target → target ≤ t.tickCount ∧ t.tickCount < target + 14))

/-- R273: the timing parameters and `tickCount` decide nothing else: two states that agree but for timing agree but for timing
after any number of steps, or stop alike. The spec marks R273 as its own inference (from R120, R123 and R128). The events
of the hook log are those of log 7. -/
def Obligations.TimingDecidesNothingElse : Prop :=
  ∀ (n : Nat) (s s' : State), withoutTiming s = withoutTiming s' →
    OutcomesAgree (fun t t' => withoutTiming t = withoutTiming t')
      (Host.Core.run Sys2Proof.core n s) (Host.Core.run Sys2Proof.core n s')

/-- R20, R25, R31, R32, R35: every step from a state of the invariant that answers leads to a state of the invariant: cells and hook
tables in canonical form, P's bit 5 set and bit 4 clear, no step in progress.
The invariant's `stop` is the model's own field (log 8). -/
def Obligations.EveryStepKeepsTheInvariant : Prop :=
  ∀ s t : State, Inv s → step s = .next t → Inv t

/-- R38: the invariant holds after reset. The invariant's `stop` is the model's own field (log 8). -/
def Obligations.TheInvariantHoldsAtReset : Prop := Inv State.reset

/-! ### Interrupts and reset -/

/-- R236, R237, R239: a service pushes PC and P as held, sets I and no other flag, clears its own pending flag, and adds
`interruptTicks`; with no hook and no RNG binding PC comes from the line's vector and the other pending flag keeps its value. -/
def Obligations.ServicePushesItsFrame : Prop :=
  ∀ (line : Line) (s : State),
    let t := service line s
    t.cpu = { s.cpu with s := s.cpu.s - 3, p := t.cpu.p, pc := t.cpu.pc } ∧
    flagOf .i t.cpu.p = true ∧ KeepsFlagsBut [.i] s.cpu.p t.cpu.p ∧
    t.tickCount = s.tickCount + s.params.interruptTicks ∧ t.instructionCount = s.instructionCount ∧
    (line = .irq → t.pendingIRQ = false) ∧ (line = .nmi → t.pendingNMI = false) ∧
    (HostStoresNothing s → (cellAt t (stackAddr s.cpu.s)).toNat = s.cpu.pc.toNat / 256 ∧
      (cellAt t (stackAddr (s.cpu.s - 1))).toNat = s.cpu.pc.toNat % 256 ∧
      cellAt t (stackAddr (s.cpu.s - 2)) = s.cpu.p ∧
      KeepsCellsBut [stackAddr s.cpu.s, stackAddr (s.cpu.s - 1), stackAddr (s.cpu.s - 2)] s t) ∧
    (Quiet s → (line = .irq → t.cpu.pc = wordAt s 0xFFFE 0xFFFF ∧ t.pendingNMI = s.pendingNMI) ∧
      (line = .nmi → t.cpu.pc = wordAt s 0xFFFA 0xFFFB ∧ t.pendingIRQ = s.pendingIRQ))

/-- R235, R268: with no hook and no RNG binding, the check point of a step looks at the requests and I as the step's own instruction
left them: a pending NMI is served, else a pending IRQ if I is clear, else nothing; at most one is served. -/
def Obligations.CheckPointServesOneRequest : Prop :=
  ∀ (s u : State) (i : Instr) (rest : List Byte), Quiet s → s.bus.instructionHooks = [] → s.phase = .running →
    s.inStep = false →
    decode [cellAt s s.cpu.pc, cellAt s (s.cpu.pc + 1), cellAt s (s.cpu.pc + 2)] = .ok (i, rest) →
    exec i { s with inStep := true, stop := none, cpu.pc := s.cpu.pc + BitVec.ofNat 16 i.length } = .next u →
    u.pendingNMI = s.pendingNMI ∧ u.pendingIRQ = s.pendingIRQ ∧
    (s.pendingNMI = true → step s = .next { service .nmi u with inStep := false }) ∧
    (s.pendingNMI = false → s.pendingIRQ = true → flagOf .i u.cpu.p = false →
      step s = .next { service .irq u with inStep := false }) ∧
    (s.pendingNMI = false → (s.pendingIRQ = false ∨ flagOf .i u.cpu.p = true) →
      step s = .next { u with inStep := false })

/-- R28, R244: no execute phase clears a request; a step clears `pendingIRQ` or `pendingNMI` only through a service, which leaves I
set and adds its ticks. -/
def Obligations.OnlyServiceClearsARequest : Prop :=
  (∀ (i : Instr) (s t : State), exec i s = .next t →
    (s.pendingIRQ = true → t.pendingIRQ = true) ∧ (s.pendingNMI = true → t.pendingNMI = true)) ∧
  (∀ s t : State, step s = .next t →
    ((s.pendingIRQ = true ∧ t.pendingIRQ = false) ∨ (s.pendingNMI = true ∧ t.pendingNMI = false)) →
    flagOf .i t.cpu.p = true ∧ s.tickCount + s.params.interruptTicks ≤ t.tickCount)

/-- R232, R235 (E6): a pending NMI is serviced by the next step that answers, whatever I is; with no hook at all and no RNG binding
PC is then the NMI vector. -/
def Obligations.PendingNmiIsServedByTheNextStep : Prop :=
  ∀ s t : State, s.pendingNMI = true → step s = .next t →
    t.pendingNMI = false ∧ flagOf .i t.cpu.p = true ∧ s.tickCount + s.params.interruptTicks ≤ t.tickCount ∧
    (Quiet s → s.bus.instructionHooks = [] → t.cpu.pc = wordAt t 0xFFFA 0xFFFB)

/-- R242: with no hook and no RNG binding, the return from a service restores every register, I included, wherever the stack pointer
stood. -/
def Obligations.ReturnUndoesService : Prop :=
  ∀ (line : Line) (s : State), Quiet s → statusFixed s.cpu.p = true → (leaveHandler (service line s)).cpu = s.cpu

/-- R38, R260, R262: a reset that answers leaves the registers, counters, pending flags and phase at their reset values; with no read
hook it answers, keeps cells, hook tables and RNG binding, and without an RNG binding PC is the reset vector.
The values the source lacks are those of R38 (log 11). -/
def Obligations.ResetGivesTheResetValues : Prop :=
  ∀ s : State,
    (∀ t, hostReset s = .next t →
      t.cpu = { a := 0x00, x := 0x00, y := 0x00, s := 0xFD, p := 0x24, pc := t.cpu.pc } ∧ t.instructionCount = 0 ∧
      t.tickCount = 0 ∧ t.pendingIRQ = false ∧ t.pendingNMI = false ∧ t.phase = .running ∧ t.inStep = false) ∧
    (s.inStep = false → s.bus.readHooks = [] → ∃ t, hostReset s = .next t ∧ t.bus = s.bus ∧
      (s.bus.rngBinding = none → t.cpu.pc = wordAt s 0xFFFC 0xFFFD))

/-- R264, R265: a core just constructed, reset with nothing loaded, is in `State.reset`; its first step executes BRK at 0x0000.
The values are those of log 10 and 11. -/
def Obligations.ResetOfTheConstructedCore : Prop :=
  hostReset State.construct = .next State.reset ∧
  ∃ t, step State.reset = .next t ∧ t.cpu.pc = 0x0000 ∧ t.cpu.s = 0xFA ∧ cellAt t 0x01FC = 0x02 ∧
    cellAt t 0x01FB = 0x34 ∧ t.tickCount = 7
end

