-- ==== Sys2Proof/Laws/State.lean ====
section
/-! SUPPORT. What each register or field update leaves and writes: one lemma per field per update. -/

namespace Sys2Proof.Machine

@[simp] theorem setA_cpu (v : Byte) (s : State) : (setA v s).cpu = { s.cpu with a := v } := rfl
@[simp] theorem setA_pendingIRQ (v : Byte) (s : State) : (setA v s).pendingIRQ = s.pendingIRQ := rfl
@[simp] theorem setA_pendingNMI (v : Byte) (s : State) : (setA v s).pendingNMI = s.pendingNMI := rfl
@[simp] theorem setA_instructionCount (v : Byte) (s : State) : (setA v s).instructionCount = s.instructionCount := rfl
@[simp] theorem setA_tickCount (v : Byte) (s : State) : (setA v s).tickCount = s.tickCount := rfl
@[simp] theorem setA_phase (v : Byte) (s : State) : (setA v s).phase = s.phase := rfl
@[simp] theorem setA_inStep (v : Byte) (s : State) : (setA v s).inStep = s.inStep := rfl
@[simp] theorem setA_bus (v : Byte) (s : State) : (setA v s).bus = s.bus := rfl
@[simp] theorem setA_params (v : Byte) (s : State) : (setA v s).params = s.params := rfl
@[simp] theorem setA_rngDraws (v : Byte) (s : State) : (setA v s).rngDraws = s.rngDraws := rfl
@[simp] theorem setA_script (v : Byte) (s : State) : (setA v s).script = s.script := rfl
@[simp] theorem setA_hookLog (v : Byte) (s : State) : (setA v s).hookLog = s.hookLog := rfl
@[simp] theorem setA_stop (v : Byte) (s : State) : (setA v s).stop = s.stop := rfl

@[simp] theorem setX_cpu (v : Byte) (s : State) : (setX v s).cpu = { s.cpu with x := v } := rfl
@[simp] theorem setX_pendingIRQ (v : Byte) (s : State) : (setX v s).pendingIRQ = s.pendingIRQ := rfl
@[simp] theorem setX_pendingNMI (v : Byte) (s : State) : (setX v s).pendingNMI = s.pendingNMI := rfl
@[simp] theorem setX_instructionCount (v : Byte) (s : State) : (setX v s).instructionCount = s.instructionCount := rfl
@[simp] theorem setX_tickCount (v : Byte) (s : State) : (setX v s).tickCount = s.tickCount := rfl
@[simp] theorem setX_phase (v : Byte) (s : State) : (setX v s).phase = s.phase := rfl
@[simp] theorem setX_inStep (v : Byte) (s : State) : (setX v s).inStep = s.inStep := rfl
@[simp] theorem setX_bus (v : Byte) (s : State) : (setX v s).bus = s.bus := rfl
@[simp] theorem setX_params (v : Byte) (s : State) : (setX v s).params = s.params := rfl
@[simp] theorem setX_rngDraws (v : Byte) (s : State) : (setX v s).rngDraws = s.rngDraws := rfl
@[simp] theorem setX_script (v : Byte) (s : State) : (setX v s).script = s.script := rfl
@[simp] theorem setX_hookLog (v : Byte) (s : State) : (setX v s).hookLog = s.hookLog := rfl
@[simp] theorem setX_stop (v : Byte) (s : State) : (setX v s).stop = s.stop := rfl

@[simp] theorem setY_cpu (v : Byte) (s : State) : (setY v s).cpu = { s.cpu with y := v } := rfl
@[simp] theorem setY_pendingIRQ (v : Byte) (s : State) : (setY v s).pendingIRQ = s.pendingIRQ := rfl
@[simp] theorem setY_pendingNMI (v : Byte) (s : State) : (setY v s).pendingNMI = s.pendingNMI := rfl
@[simp] theorem setY_instructionCount (v : Byte) (s : State) : (setY v s).instructionCount = s.instructionCount := rfl
@[simp] theorem setY_tickCount (v : Byte) (s : State) : (setY v s).tickCount = s.tickCount := rfl
@[simp] theorem setY_phase (v : Byte) (s : State) : (setY v s).phase = s.phase := rfl
@[simp] theorem setY_inStep (v : Byte) (s : State) : (setY v s).inStep = s.inStep := rfl
@[simp] theorem setY_bus (v : Byte) (s : State) : (setY v s).bus = s.bus := rfl
@[simp] theorem setY_params (v : Byte) (s : State) : (setY v s).params = s.params := rfl
@[simp] theorem setY_rngDraws (v : Byte) (s : State) : (setY v s).rngDraws = s.rngDraws := rfl
@[simp] theorem setY_script (v : Byte) (s : State) : (setY v s).script = s.script := rfl
@[simp] theorem setY_hookLog (v : Byte) (s : State) : (setY v s).hookLog = s.hookLog := rfl
@[simp] theorem setY_stop (v : Byte) (s : State) : (setY v s).stop = s.stop := rfl

@[simp] theorem setS_cpu (v : Byte) (s : State) : (setS v s).cpu = { s.cpu with s := v } := rfl
@[simp] theorem setS_pendingIRQ (v : Byte) (s : State) : (setS v s).pendingIRQ = s.pendingIRQ := rfl
@[simp] theorem setS_pendingNMI (v : Byte) (s : State) : (setS v s).pendingNMI = s.pendingNMI := rfl
@[simp] theorem setS_instructionCount (v : Byte) (s : State) : (setS v s).instructionCount = s.instructionCount := rfl
@[simp] theorem setS_tickCount (v : Byte) (s : State) : (setS v s).tickCount = s.tickCount := rfl
@[simp] theorem setS_phase (v : Byte) (s : State) : (setS v s).phase = s.phase := rfl
@[simp] theorem setS_inStep (v : Byte) (s : State) : (setS v s).inStep = s.inStep := rfl
@[simp] theorem setS_bus (v : Byte) (s : State) : (setS v s).bus = s.bus := rfl
@[simp] theorem setS_params (v : Byte) (s : State) : (setS v s).params = s.params := rfl
@[simp] theorem setS_rngDraws (v : Byte) (s : State) : (setS v s).rngDraws = s.rngDraws := rfl
@[simp] theorem setS_script (v : Byte) (s : State) : (setS v s).script = s.script := rfl
@[simp] theorem setS_hookLog (v : Byte) (s : State) : (setS v s).hookLog = s.hookLog := rfl
@[simp] theorem setS_stop (v : Byte) (s : State) : (setS v s).stop = s.stop := rfl

@[simp] theorem setP_cpu (v : Byte) (s : State) : (setP v s).cpu = { s.cpu with p := v } := rfl
@[simp] theorem setP_pendingIRQ (v : Byte) (s : State) : (setP v s).pendingIRQ = s.pendingIRQ := rfl
@[simp] theorem setP_pendingNMI (v : Byte) (s : State) : (setP v s).pendingNMI = s.pendingNMI := rfl
@[simp] theorem setP_instructionCount (v : Byte) (s : State) : (setP v s).instructionCount = s.instructionCount := rfl
@[simp] theorem setP_tickCount (v : Byte) (s : State) : (setP v s).tickCount = s.tickCount := rfl
@[simp] theorem setP_phase (v : Byte) (s : State) : (setP v s).phase = s.phase := rfl
@[simp] theorem setP_inStep (v : Byte) (s : State) : (setP v s).inStep = s.inStep := rfl
@[simp] theorem setP_bus (v : Byte) (s : State) : (setP v s).bus = s.bus := rfl
@[simp] theorem setP_params (v : Byte) (s : State) : (setP v s).params = s.params := rfl
@[simp] theorem setP_rngDraws (v : Byte) (s : State) : (setP v s).rngDraws = s.rngDraws := rfl
@[simp] theorem setP_script (v : Byte) (s : State) : (setP v s).script = s.script := rfl
@[simp] theorem setP_hookLog (v : Byte) (s : State) : (setP v s).hookLog = s.hookLog := rfl
@[simp] theorem setP_stop (v : Byte) (s : State) : (setP v s).stop = s.stop := rfl

@[simp] theorem setPC_cpu (v : Word) (s : State) : (setPC v s).cpu = { s.cpu with pc := v } := rfl
@[simp] theorem setPC_pendingIRQ (v : Word) (s : State) : (setPC v s).pendingIRQ = s.pendingIRQ := rfl
@[simp] theorem setPC_pendingNMI (v : Word) (s : State) : (setPC v s).pendingNMI = s.pendingNMI := rfl
@[simp] theorem setPC_instructionCount (v : Word) (s : State) : (setPC v s).instructionCount = s.instructionCount := rfl
@[simp] theorem setPC_tickCount (v : Word) (s : State) : (setPC v s).tickCount = s.tickCount := rfl
@[simp] theorem setPC_phase (v : Word) (s : State) : (setPC v s).phase = s.phase := rfl
@[simp] theorem setPC_inStep (v : Word) (s : State) : (setPC v s).inStep = s.inStep := rfl
@[simp] theorem setPC_bus (v : Word) (s : State) : (setPC v s).bus = s.bus := rfl
@[simp] theorem setPC_params (v : Word) (s : State) : (setPC v s).params = s.params := rfl
@[simp] theorem setPC_rngDraws (v : Word) (s : State) : (setPC v s).rngDraws = s.rngDraws := rfl
@[simp] theorem setPC_script (v : Word) (s : State) : (setPC v s).script = s.script := rfl
@[simp] theorem setPC_hookLog (v : Word) (s : State) : (setPC v s).hookLog = s.hookLog := rfl
@[simp] theorem setPC_stop (v : Word) (s : State) : (setPC v s).stop = s.stop := rfl

@[simp] theorem storeCell_cpu (a : Word) (v : Byte) (s : State) : (storeCell a v s).cpu = s.cpu := rfl
@[simp] theorem storeCell_pendingIRQ (a : Word) (v : Byte) (s : State) : (storeCell a v s).pendingIRQ = s.pendingIRQ := rfl
@[simp] theorem storeCell_pendingNMI (a : Word) (v : Byte) (s : State) : (storeCell a v s).pendingNMI = s.pendingNMI := rfl
@[simp] theorem storeCell_instructionCount (a : Word) (v : Byte) (s : State) : (storeCell a v s).instructionCount = s.instructionCount := rfl
@[simp] theorem storeCell_tickCount (a : Word) (v : Byte) (s : State) : (storeCell a v s).tickCount = s.tickCount := rfl
@[simp] theorem storeCell_phase (a : Word) (v : Byte) (s : State) : (storeCell a v s).phase = s.phase := rfl
@[simp] theorem storeCell_inStep (a : Word) (v : Byte) (s : State) : (storeCell a v s).inStep = s.inStep := rfl
@[simp] theorem storeCell_bus (a : Word) (v : Byte) (s : State) : (storeCell a v s).bus = { s.bus with cells := writeCell s.bus.cells a.toNat v } := rfl
@[simp] theorem storeCell_params (a : Word) (v : Byte) (s : State) : (storeCell a v s).params = s.params := rfl
@[simp] theorem storeCell_rngDraws (a : Word) (v : Byte) (s : State) : (storeCell a v s).rngDraws = s.rngDraws := rfl
@[simp] theorem storeCell_script (a : Word) (v : Byte) (s : State) : (storeCell a v s).script = s.script := rfl
@[simp] theorem storeCell_hookLog (a : Word) (v : Byte) (s : State) : (storeCell a v s).hookLog = s.hookLog := rfl
@[simp] theorem storeCell_stop (a : Word) (v : Byte) (s : State) : (storeCell a v s).stop = s.stop := rfl

@[simp] theorem addTicks_cpu (n : Nat) (s : State) : (addTicks n s).cpu = s.cpu := rfl
@[simp] theorem addTicks_pendingIRQ (n : Nat) (s : State) : (addTicks n s).pendingIRQ = s.pendingIRQ := rfl
@[simp] theorem addTicks_pendingNMI (n : Nat) (s : State) : (addTicks n s).pendingNMI = s.pendingNMI := rfl
@[simp] theorem addTicks_instructionCount (n : Nat) (s : State) : (addTicks n s).instructionCount = s.instructionCount := rfl
@[simp] theorem addTicks_tickCount (n : Nat) (s : State) : (addTicks n s).tickCount = s.tickCount + n := rfl
@[simp] theorem addTicks_phase (n : Nat) (s : State) : (addTicks n s).phase = s.phase := rfl
@[simp] theorem addTicks_inStep (n : Nat) (s : State) : (addTicks n s).inStep = s.inStep := rfl
@[simp] theorem addTicks_bus (n : Nat) (s : State) : (addTicks n s).bus = s.bus := rfl
@[simp] theorem addTicks_params (n : Nat) (s : State) : (addTicks n s).params = s.params := rfl
@[simp] theorem addTicks_rngDraws (n : Nat) (s : State) : (addTicks n s).rngDraws = s.rngDraws := rfl
@[simp] theorem addTicks_script (n : Nat) (s : State) : (addTicks n s).script = s.script := rfl
@[simp] theorem addTicks_hookLog (n : Nat) (s : State) : (addTicks n s).hookLog = s.hookLog := rfl
@[simp] theorem addTicks_stop (n : Nat) (s : State) : (addTicks n s).stop = s.stop := rfl

@[simp] theorem beginStep_cpu (s : State) : (beginStep s).cpu = s.cpu := rfl
@[simp] theorem beginStep_pendingIRQ (s : State) : (beginStep s).pendingIRQ = s.pendingIRQ := rfl
@[simp] theorem beginStep_pendingNMI (s : State) : (beginStep s).pendingNMI = s.pendingNMI := rfl
@[simp] theorem beginStep_instructionCount (s : State) : (beginStep s).instructionCount = s.instructionCount := rfl
@[simp] theorem beginStep_tickCount (s : State) : (beginStep s).tickCount = s.tickCount := rfl
@[simp] theorem beginStep_phase (s : State) : (beginStep s).phase = s.phase := rfl
@[simp] theorem beginStep_inStep (s : State) : (beginStep s).inStep = true := rfl
@[simp] theorem beginStep_bus (s : State) : (beginStep s).bus = s.bus := rfl
@[simp] theorem beginStep_params (s : State) : (beginStep s).params = s.params := rfl
@[simp] theorem beginStep_rngDraws (s : State) : (beginStep s).rngDraws = s.rngDraws := rfl
@[simp] theorem beginStep_script (s : State) : (beginStep s).script = s.script := rfl
@[simp] theorem beginStep_hookLog (s : State) : (beginStep s).hookLog = s.hookLog := rfl
@[simp] theorem beginStep_stop (s : State) : (beginStep s).stop = none := rfl

@[simp] theorem logHook_cpu (callback : Nat) (kind : HookKind) (s : State) : (logHook callback kind s).cpu = s.cpu := rfl
@[simp] theorem logHook_pendingIRQ (callback : Nat) (kind : HookKind) (s : State) : (logHook callback kind s).pendingIRQ = s.pendingIRQ := rfl
@[simp] theorem logHook_pendingNMI (callback : Nat) (kind : HookKind) (s : State) : (logHook callback kind s).pendingNMI = s.pendingNMI := rfl
@[simp] theorem logHook_instructionCount (callback : Nat) (kind : HookKind) (s : State) : (logHook callback kind s).instructionCount = s.instructionCount := rfl
@[simp] theorem logHook_tickCount (callback : Nat) (kind : HookKind) (s : State) : (logHook callback kind s).tickCount = s.tickCount := rfl
@[simp] theorem logHook_phase (callback : Nat) (kind : HookKind) (s : State) : (logHook callback kind s).phase = s.phase := rfl
@[simp] theorem logHook_inStep (callback : Nat) (kind : HookKind) (s : State) : (logHook callback kind s).inStep = s.inStep := rfl
@[simp] theorem logHook_bus (callback : Nat) (kind : HookKind) (s : State) : (logHook callback kind s).bus = s.bus := rfl
@[simp] theorem logHook_params (callback : Nat) (kind : HookKind) (s : State) : (logHook callback kind s).params = s.params := rfl
@[simp] theorem logHook_rngDraws (callback : Nat) (kind : HookKind) (s : State) : (logHook callback kind s).rngDraws = s.rngDraws := rfl
@[simp] theorem logHook_script (callback : Nat) (kind : HookKind) (s : State) : (logHook callback kind s).script = s.script := rfl
@[simp] theorem logHook_hookLog (callback : Nat) (kind : HookKind) (s : State) : (logHook callback kind s).hookLog = s.hookLog ++
    [{ callback := callback, kind := kind, cpu := s.cpu, instructionCount := s.instructionCount, tickCount := s.tickCount }] := rfl
@[simp] theorem logHook_stop (callback : Nat) (kind : HookKind) (s : State) : (logHook callback kind s).stop = s.stop := rfl

@[simp] theorem refuseLater_cpu (r : Refusal) (s : State) : (refuseLater r s).cpu = s.cpu := rfl
@[simp] theorem refuseLater_pendingIRQ (r : Refusal) (s : State) : (refuseLater r s).pendingIRQ = s.pendingIRQ := rfl
@[simp] theorem refuseLater_pendingNMI (r : Refusal) (s : State) : (refuseLater r s).pendingNMI = s.pendingNMI := rfl
@[simp] theorem refuseLater_instructionCount (r : Refusal) (s : State) : (refuseLater r s).instructionCount = s.instructionCount := rfl
@[simp] theorem refuseLater_tickCount (r : Refusal) (s : State) : (refuseLater r s).tickCount = s.tickCount := rfl
@[simp] theorem refuseLater_phase (r : Refusal) (s : State) : (refuseLater r s).phase = s.phase := rfl
@[simp] theorem refuseLater_inStep (r : Refusal) (s : State) : (refuseLater r s).inStep = s.inStep := rfl
@[simp] theorem refuseLater_bus (r : Refusal) (s : State) : (refuseLater r s).bus = s.bus := rfl
@[simp] theorem refuseLater_params (r : Refusal) (s : State) : (refuseLater r s).params = s.params := rfl
@[simp] theorem refuseLater_rngDraws (r : Refusal) (s : State) : (refuseLater r s).rngDraws = s.rngDraws := rfl
@[simp] theorem refuseLater_script (r : Refusal) (s : State) : (refuseLater r s).script = s.script := rfl
@[simp] theorem refuseLater_hookLog (r : Refusal) (s : State) : (refuseLater r s).hookLog = s.hookLog := rfl
@[simp] theorem refuseLater_stop (r : Refusal) (s : State) : (refuseLater r s).stop = some (s.stop.getD r) := rfl

@[simp] theorem clearPending_irq_cpu (s : State) : (clearPending .irq s).cpu = s.cpu := rfl
@[simp] theorem clearPending_irq_pendingIRQ (s : State) : (clearPending .irq s).pendingIRQ = false := rfl
@[simp] theorem clearPending_irq_pendingNMI (s : State) : (clearPending .irq s).pendingNMI = s.pendingNMI := rfl
@[simp] theorem clearPending_irq_instructionCount (s : State) : (clearPending .irq s).instructionCount = s.instructionCount := rfl
@[simp] theorem clearPending_irq_tickCount (s : State) : (clearPending .irq s).tickCount = s.tickCount := rfl
@[simp] theorem clearPending_irq_phase (s : State) : (clearPending .irq s).phase = s.phase := rfl
@[simp] theorem clearPending_irq_inStep (s : State) : (clearPending .irq s).inStep = s.inStep := rfl
@[simp] theorem clearPending_irq_bus (s : State) : (clearPending .irq s).bus = s.bus := rfl
@[simp] theorem clearPending_irq_params (s : State) : (clearPending .irq s).params = s.params := rfl
@[simp] theorem clearPending_irq_rngDraws (s : State) : (clearPending .irq s).rngDraws = s.rngDraws := rfl
@[simp] theorem clearPending_irq_script (s : State) : (clearPending .irq s).script = s.script := rfl
@[simp] theorem clearPending_irq_hookLog (s : State) : (clearPending .irq s).hookLog = s.hookLog := rfl
@[simp] theorem clearPending_irq_stop (s : State) : (clearPending .irq s).stop = s.stop := rfl

@[simp] theorem clearPending_nmi_cpu (s : State) : (clearPending .nmi s).cpu = s.cpu := rfl
@[simp] theorem clearPending_nmi_pendingIRQ (s : State) : (clearPending .nmi s).pendingIRQ = s.pendingIRQ := rfl
@[simp] theorem clearPending_nmi_pendingNMI (s : State) : (clearPending .nmi s).pendingNMI = false := rfl
@[simp] theorem clearPending_nmi_instructionCount (s : State) : (clearPending .nmi s).instructionCount = s.instructionCount := rfl
@[simp] theorem clearPending_nmi_tickCount (s : State) : (clearPending .nmi s).tickCount = s.tickCount := rfl
@[simp] theorem clearPending_nmi_phase (s : State) : (clearPending .nmi s).phase = s.phase := rfl
@[simp] theorem clearPending_nmi_inStep (s : State) : (clearPending .nmi s).inStep = s.inStep := rfl
@[simp] theorem clearPending_nmi_bus (s : State) : (clearPending .nmi s).bus = s.bus := rfl
@[simp] theorem clearPending_nmi_params (s : State) : (clearPending .nmi s).params = s.params := rfl
@[simp] theorem clearPending_nmi_rngDraws (s : State) : (clearPending .nmi s).rngDraws = s.rngDraws := rfl
@[simp] theorem clearPending_nmi_script (s : State) : (clearPending .nmi s).script = s.script := rfl
@[simp] theorem clearPending_nmi_hookLog (s : State) : (clearPending .nmi s).hookLog = s.hookLog := rfl
@[simp] theorem clearPending_nmi_stop (s : State) : (clearPending .nmi s).stop = s.stop := rfl

/-- A flag write is a write of P. -/
@[simp] theorem setFlag_eq (f : Flag) (v : Bool) (s : State) : setFlag f v s = setP (withFlag f v s.cpu.p) s := rfl

/-- `SetNZ` is a write of P. -/
@[simp] theorem setNZ_eq (v : Byte) (s : State) : setNZ v s = setP (withNZ v s.cpu.p) s := rfl

/-- `WriteP` is a write of P. -/
@[simp] theorem writeP_eq (m : Byte) (s : State) : writeP m s = setP (writePByte m) s := rfl

end Sys2Proof.Machine
end

