-- ==== Sys2Proof/Laws/Store.lean ====
section
/-! SUPPORT. The laws of maps held as lists: reads after writes, and that every operation keeps the canonical form. The
read laws hold of every list, canonical or not. -/

namespace Sys2Proof.Machine

variable {α : Type}

@[simp] theorem lookupKey_nil (k : Nat) : lookupKey k ([] : List (Nat × α)) = none := rfl

@[simp] theorem lookupKey_insertKey (k j : Nat) (v : α) (m : List (Nat × α)) :
    lookupKey j (insertKey k v m) = if j = k then some v else lookupKey j m := by
  induction m with
  | nil => simp [insertKey, lookupKey, eq_comm]
  | cons e m ih =>
    obtain ⟨i, w⟩ := e
    simp only [insertKey]
    split
    · simp [lookupKey, eq_comm]
    · split
      · subst_vars; by_cases h : i = j <;> simp [lookupKey, h, eq_comm]
        simp [Ne.symm h]
      · simp only [lookupKey, ih]
        by_cases h : i = j <;> simp [h]
        intro h'; omega

@[simp] theorem lookupKey_eraseKey (k j : Nat) (m : List (Nat × α)) :
    lookupKey j (eraseKey k m) = if j = k then none else lookupKey j m := by
  induction m with
  | nil => simp [eraseKey]
  | cons e m ih =>
    obtain ⟨i, w⟩ := e
    simp only [eraseKey]
    split
    · subst_vars; rw [ih]; by_cases h : j = i
      · simp [h]
      · simp [h, lookupKey, Ne.symm h]
    · simp only [lookupKey, ih]
      by_cases h : i = j <;> simp [h]
      intro h'; omega

/-- A read after a write of the same cell gives the byte; every other cell reads as before. -/
@[simp] theorem readCell_writeCell (m : Memory) (a b : Nat) (v : Byte) :
    readCell (writeCell m a v) b = if b = a then v else readCell m b := by
  unfold writeCell readCell
  by_cases hv : v = unlistedByte <;> by_cases hb : b = a <;> simp [hv, hb]

/-- Rising keys, in the form the inductions use: each key is below the next and the rest rises. -/
theorem keysRising_cons (k : Nat) (v : α) (m : List (Nat × α)) :
    keysRising ((k, v) :: m) = true ↔ k < 65536 ∧ (∀ e ∈ m, k < e.1) ∧ keysRising m = true := by
  induction m generalizing k v with
  | nil => simp [keysRising]
  | cons e m ih =>
    obtain ⟨j, w⟩ := e
    have hd : keysRising ((k, v) :: (j, w) :: m) = (decide (k < j) && keysRising ((j, w) :: m)) := rfl
    rw [hd]
    simp only [Bool.and_eq_true, decide_eq_true_eq, List.mem_cons, forall_eq_or_imp]
    rw [ih]
    constructor
    · rintro ⟨h1, h2, h3, h4⟩
      exact ⟨by omega, ⟨h1, fun e he => by have := h3 e he; omega⟩, h2, h3, h4⟩
    · rintro ⟨_, ⟨h1, _⟩, h2, h3, h4⟩
      exact ⟨h1, h2, h3, h4⟩

theorem mem_insertKey {k : Nat} {v : α} {m : List (Nat × α)} {e : Nat × α} (h : e ∈ insertKey k v m) :
    e = (k, v) ∨ e ∈ m := by
  induction m with
  | nil => simpa [insertKey] using h
  | cons f m ih =>
    obtain ⟨j, w⟩ := f
    simp only [insertKey] at h
    split at h
    · simpa using h
    · split at h
      · simp at h; rcases h with h | h <;> simp [h]
      · simp at h
        rcases h with h | h
        · simp [h]
        · rcases ih h with h | h <;> simp [h]

theorem mem_eraseKey {k : Nat} {m : List (Nat × α)} {e : Nat × α} (h : e ∈ eraseKey k m) : e ∈ m := by
  induction m with
  | nil => simp [eraseKey] at h
  | cons f m ih =>
    obtain ⟨j, w⟩ := f
    simp only [eraseKey] at h
    split at h
    · simp [ih h]
    · simp at h; rcases h with h | h
      · simp [h]
      · simp [ih h]

/-- Inserting an address in range keeps the keys rising. -/
theorem keysRising_insertKey {k : Nat} {v : α} {m : List (Nat × α)} (hk : k < 65536) (hm : keysRising m = true) :
    keysRising (insertKey k v m) = true := by
  induction m with
  | nil => simp [insertKey, keysRising, hk]
  | cons f m ih =>
    obtain ⟨j, w⟩ := f
    have hc := (keysRising_cons j w m).1 hm
    simp only [insertKey]
    split
    · rename_i h
      refine (keysRising_cons _ _ _).2 ⟨hk, ?_, hm⟩
      intro e he
      rcases List.mem_cons.1 he with he | he
      · simpa [he] using h
      · have := hc.2.1 e he; omega
    · split
      · rename_i h; subst h
        exact (keysRising_cons _ _ _).2 ⟨hc.1, hc.2.1, hc.2.2⟩
      · refine (keysRising_cons _ _ _).2 ⟨hc.1, ?_, ih hc.2.2⟩
        intro e he
        rcases mem_insertKey he with he | he
        · simp [he]; omega
        · exact hc.2.1 e he

/-- Erasing keeps the keys rising. -/
theorem keysRising_eraseKey {k : Nat} {m : List (Nat × α)} (hm : keysRising m = true) :
    keysRising (eraseKey k m) = true := by
  induction m with
  | nil => simpa [eraseKey] using hm
  | cons f m ih =>
    obtain ⟨j, w⟩ := f
    have hc := (keysRising_cons j w m).1 hm
    simp only [eraseKey]
    split
    · exact ih hc.2.2
    · exact (keysRising_cons _ _ _).2 ⟨hc.1, fun e he => hc.2.1 e (mem_eraseKey he), ih hc.2.2⟩

/-- A write keeps the canonical form of the cells. -/
theorem wf_writeCell {m : Memory} {a : Nat} {v : Byte} (ha : a < 65536) (hm : Memory.wf m = true) :
    Memory.wf (writeCell m a v) = true := by
  unfold Memory.wf at *
  simp only [Bool.and_eq_true, List.all_eq_true, bne_iff_ne, ne_eq] at *
  unfold writeCell
  split
  · exact ⟨keysRising_eraseKey hm.1, fun c hc => hm.2 c (mem_eraseKey hc)⟩
  · rename_i hv
    refine ⟨keysRising_insertKey ha hm.1, fun c hc => ?_⟩
    rcases mem_insertKey hc with h | h
    · simpa [h] using hv
    · exact hm.2 c h

/-- A sequence of writes that ends inside the address space keeps the canonical form. -/
theorem wf_writeCells {m : Memory} {a : Nat} {vs : List Byte} (ha : a + vs.length ≤ 65536) (hm : Memory.wf m = true) :
    Memory.wf (writeCells m a vs) = true := by
  induction vs generalizing m a with
  | nil => exact hm
  | cons v vs ih =>
    simp only [List.length_cons] at ha
    exact ih (by omega) (wf_writeCell (by omega) hm)

/-- A sequence of writes leaves every cell outside it as it was. -/
theorem readCell_writeCells_outside (m : Memory) (a b : Nat) (vs : List Byte) (h : b < a ∨ a + vs.length ≤ b) :
    readCell (writeCells m a vs) b = readCell m b := by
  induction vs generalizing m a with
  | nil => rfl
  | cons v vs ih =>
    simp only [List.length_cons] at h
    rw [writeCells, ih _ _ (by omega), readCell_writeCell, if_neg (by omega)]

end Sys2Proof.Machine
end

