-- ==== Sys2Proof/Laws/Calls.lean ====
section
/-! SUPPORT. Everything a callback can do, said once: the relation `BusOnly` between the states before and after, and the
fields no callback touches. -/

namespace Sys2Proof.Machine

/-- What bus accesses and callbacks leave of a state, its registers apart: counters, phase, `inStep` and parameters stay,
requests stay raised, the log only grows, a canonical bus stays canonical, a refused run stays refused, and the host's
remaining choices stay admitted, or free of stores, if they were. -/
structure BusOnly (s t : State) : Prop where
  instructionCount : t.instructionCount = s.instructionCount
  tickCount        : t.tickCount = s.tickCount
  phase            : t.phase = s.phase
  inStep           : t.inStep = s.inStep
  params           : t.params = s.params
  irq              : s.pendingIRQ = true → t.pendingIRQ = true
  nmi              : s.pendingNMI = true → t.pendingNMI = true
  log              : s.hookLog <+: t.hookLog
  wf               : s.bus.wf = true → t.bus.wf = true
  stop             : s.stop.isSome = true → t.stop.isSome = true
  admitted         : scriptAdmitted s = true → scriptAdmitted t = true ∧ t.stop = s.stop
  storeless        : HostStoresNothing s → HostStoresNothing t

theorem BusOnly.refl (s : State) : BusOnly s s :=
  ⟨rfl, rfl, rfl, rfl, rfl, id, id, List.prefix_refl _, id, id, fun h => ⟨h, rfl⟩, id⟩

theorem BusOnly.trans {s t u : State} (h : BusOnly s t) (k : BusOnly t u) : BusOnly s u where
  instructionCount := k.instructionCount.trans h.instructionCount
  tickCount := k.tickCount.trans h.tickCount
  phase := k.phase.trans h.phase
  inStep := k.inStep.trans h.inStep
  params := k.params.trans h.params
  irq x := k.irq (h.irq x)
  nmi x := k.nmi (h.nmi x)
  log := h.log.trans k.log
  wf x := k.wf (h.wf x)
  stop x := k.stop (h.stop x)
  admitted x := ⟨(k.admitted (h.admitted x).1).1, (k.admitted (h.admitted x).1).2.trans (h.admitted x).2⟩
  storeless x := k.storeless (h.storeless x)

/-- A change of registers alone. -/
theorem BusOnly.ofCpu {s : State} (c : Cpu) : BusOnly s { s with cpu := c } :=
  ⟨rfl, rfl, rfl, rfl, rfl, id, id, List.prefix_refl _, id, id, fun h => ⟨h, rfl⟩, id⟩

theorem wf_load {bytes : List Int} {location : Int} {s t : State} (h : load bytes location s = .ok t)
    (hs : s.bus.wf = true) : t.bus.wf = true := by
  unfold load at h
  split at h
  · cases h
  · rename_i hr
    cases h
    simp only [Bus.wf, Bool.and_eq_true] at *
    refine ⟨⟨wf_writeCells ?_ hs.1.1, hs.1.2⟩, hs.2⟩
    simp only [List.length_map]
    omega

theorem wf_register {address : Int} {kind : KindArg} {callback : Nat} {s t : State}
    (h : registerReadWriteHook address kind callback s = .ok t) (hs : s.bus.wf = true) : t.bus.wf = true := by
  unfold registerReadWriteHook at h
  split at h
  · cases h
  · rename_i hr
    have ha : address.toNat < 65536 := by omega
    simp only [Bus.wf, Bool.and_eq_true] at hs
    cases kind <;> cases h <;> simp [Bus.wf, hs, keysRising_insertKey ha]

theorem wf_deregister {address : Int} {kind : KindArg} {s t : State}
    (h : deregisterReadWriteHook address kind s = .ok t) (hs : s.bus.wf = true) : t.bus.wf = true := by
  unfold deregisterReadWriteHook at h
  split at h
  · cases h
  · simp only [Bus.wf, Bool.and_eq_true] at hs
    cases kind <;> cases h <;> simp [Bus.wf, hs, keysRising_eraseKey]

/-- A host call that may raise changes the bus at most. -/
theorem afterCall_bus (s : State) (r : Except HostError State) (h : ∀ t, r = .ok t → ∃ b, t = { s with bus := b }) :
    ∃ b, afterCall s r = { s with bus := b } := by
  cases r with
  | ok t => exact h t rfl
  | error e => exact ⟨s.bus, rfl⟩

theorem load_bus {bytes : List Int} {location : Int} {s t : State} (h : load bytes location s = .ok t) :
    ∃ b, t = { s with bus := b } := by
  unfold load at h
  split at h <;> cases h
  exact ⟨_, rfl⟩

theorem register_bus {address : Int} {kind : KindArg} {callback : Nat} {s t : State}
    (h : registerReadWriteHook address kind callback s = .ok t) :
    ∃ b, t = { s with bus := b } ∧ b.cells = s.bus.cells := by
  unfold registerReadWriteHook at h
  split at h
  · cases h
  · cases kind <;> cases h <;> exact ⟨_, rfl, rfl⟩

theorem deregister_bus {address : Int} {kind : KindArg} {s t : State}
    (h : deregisterReadWriteHook address kind s = .ok t) :
    ∃ b, t = { s with bus := b } ∧ b.cells = s.bus.cells := by
  unfold deregisterReadWriteHook at h
  split at h
  · cases h
  · cases kind <;> cases h <;> exact ⟨_, rfl, rfl⟩

/-- EVERYTHING ONE ACT OF A CALLBACK CAN DO: it changes the bus, raises requests, or sets `stop`. -/
theorem runAct_shape (s : State) (act : CallbackAct) :
    ∃ b i n st, runAct s act = { s with bus := b, pendingIRQ := i, pendingNMI := n, stop := st } ∧
      (s.pendingIRQ = true → i = true) ∧ (s.pendingNMI = true → n = true) ∧ (s.bus.wf = true → b.wf = true) ∧
      (s.stop.isSome = true → st.isSome = true) ∧ (act.admitted = true → st = s.stop) ∧
      (act.isLoad = false → b.cells = s.bus.cells) := by
  have key : ∀ r : Except HostError State, (∀ t, r = .ok t → ∃ b, t = { s with bus := b } ∧ (s.bus.wf = true → b.wf = true) ∧
      (act.isLoad = false → b.cells = s.bus.cells)) →
      ∃ b i n st, afterCall s r = { s with bus := b, pendingIRQ := i, pendingNMI := n, stop := st } ∧
      (s.pendingIRQ = true → i = true) ∧ (s.pendingNMI = true → n = true) ∧ (s.bus.wf = true → b.wf = true) ∧
      (s.stop.isSome = true → st.isSome = true) ∧ (act.admitted = true → st = s.stop) ∧
      (act.isLoad = false → b.cells = s.bus.cells) := by
    intro r hr
    cases r with
    | error e => exact ⟨s.bus, _, _, _, rfl, id, id, id, id, fun _ => rfl, fun _ => rfl⟩
    | ok t =>
      obtain ⟨b, rfl, hw, hc⟩ := hr t rfl
      exact ⟨b, _, _, _, rfl, id, id, hw, id, fun _ => rfl, hc⟩
  cases act with
  | raise => exact ⟨s.bus, _, _, _, rfl, id, id, id, fun _ => rfl, by simp [CallbackAct.admitted], fun _ => rfl⟩
  | call c =>
    cases c with
    | load bytes location =>
      refine key _ fun t ht => ?_
      obtain ⟨b, rfl⟩ := load_bus ht
      exact ⟨b, rfl, wf_load ht, by simp [CallbackAct.isLoad]⟩
    | registerReadWriteHook address kind callback =>
      refine key _ fun t ht => ?_
      obtain ⟨b, rfl, hb⟩ := register_bus ht
      exact ⟨b, rfl, wf_register ht, fun _ => hb⟩
    | deregisterReadWriteHook address kind =>
      refine key _ fun t ht => ?_
      obtain ⟨b, rfl, hb⟩ := deregister_bus ht
      exact ⟨b, rfl, wf_deregister ht, fun _ => hb⟩
    | read _ _ | getters => exact ⟨s.bus, _, _, _, rfl, id, id, id, id, fun _ => rfl, fun _ => rfl⟩
    | registerInstructionHook _ | clearInstructionHooks | configureRng _ =>
      exact ⟨_, _, _, _, rfl, id, id, id, id, fun _ => rfl, fun _ => rfl⟩
    | interruptRequest | nonMaskableInterrupt =>
      exact ⟨s.bus, _, _, _, rfl, by simp, by simp, id, id, fun _ => rfl, fun _ => rfl⟩
    | reset | step | stepTimes _ | exec _ =>
      exact ⟨s.bus, _, _, _, rfl, id, id, id, fun _ => rfl, by simp [CallbackAct.admitted, HostCall.admitted], fun _ => rfl⟩

/-- EVERYTHING A CALLBACK'S ACTS CAN DO. -/
theorem runActs_shape (acts : List CallbackAct) (s : State) :
    ∃ b i n st, acts.foldl runAct s = { s with bus := b, pendingIRQ := i, pendingNMI := n, stop := st } ∧
      (s.pendingIRQ = true → i = true) ∧ (s.pendingNMI = true → n = true) ∧ (s.bus.wf = true → b.wf = true) ∧
      (s.stop.isSome = true → st.isSome = true) ∧ (acts.all CallbackAct.admitted = true → st = s.stop) ∧
      (acts.all (fun act => !act.isLoad) = true → b.cells = s.bus.cells) := by
  induction acts generalizing s with
  | nil => exact ⟨s.bus, _, _, _, rfl, id, id, id, id, fun _ => rfl, fun _ => rfl⟩
  | cons act acts ih =>
    obtain ⟨b, i, n, st, he, h1, h2, h3, h4, h5, h6⟩ := runAct_shape s act
    obtain ⟨b', i', n', st', he', k1, k2, k3, k4, k5, k6⟩ := ih (runAct s act)
    rw [he] at he' k1 k2 k3 k4 k5 k6
    refine ⟨b', i', n', st', by rw [List.foldl_cons, he, he'], fun x => k1 (h1 x), fun x => k2 (h2 x), fun x => k3 (h3 x),
      fun x => k4 (h4 x), ?_, ?_⟩
    · intro h
      simp only [List.all_cons, Bool.and_eq_true] at h
      exact (k5 h.2).trans (h5 h.1)
    · intro h
      simp only [List.all_cons, Bool.and_eq_true, Bool.not_eq_true'] at h
      exact (k6 (by simpa using h.2)).trans (h6 h.1)

/-- The event a hook invocation records (R132). -/
def eventAt (callback : Nat) (kind : HookKind) (s : State) : HookEvent :=
  { callback := callback, kind := kind, cpu := s.cpu, instructionCount := s.instructionCount, tickCount := s.tickCount }

/-- EVERYTHING AN INVOCATION CAN DO: the log grows by its one event, one choice of the script is used, and beyond that the
bus, the requests and `stop` change as the acts say. -/
theorem invoke_shape (callback : Nat) (kind : HookKind) (s : State) :
    ∃ b i n st, invoke callback kind s =
        { s with bus := b, pendingIRQ := i, pendingNMI := n, stop := st, script := s.script.tail,
                 hookLog := s.hookLog ++ [eventAt callback kind s] } ∧
      (s.pendingIRQ = true → i = true) ∧ (s.pendingNMI = true → n = true) ∧ (s.bus.wf = true → b.wf = true) ∧
      (s.stop.isSome = true → st.isSome = true) ∧ (scriptAdmitted s = true → st = s.stop) ∧
      (scriptLoadsNothing s = true → b.cells = s.bus.cells) := by
  unfold invoke
  split
  · rename_i hs
    refine ⟨s.bus, _, _, _, ?_, id, id, id, id, fun _ => rfl, fun _ => rfl⟩
    simp [logHook, eventAt, hs]
  · rename_i acts rest hs
    obtain ⟨b, i, n, st, he, h1, h2, h3, h4, h5, h6⟩ :=
      runActs_shape acts (logHook callback kind { s with script := rest })
    refine ⟨b, i, n, st, ?_, h1, h2, h3, h4, ?_, ?_⟩
    · rw [he]; simp [logHook, eventAt, hs]
    · intro h
      simp only [scriptAdmitted, hs, List.all_cons, Bool.and_eq_true] at h
      exact h5 h.1
    · intro h
      simp only [scriptLoadsNothing, hs, List.all_cons, Bool.and_eq_true] at h
      exact h6 h.1

@[simp] theorem invoke_cpu (callback : Nat) (kind : HookKind) (s : State) : (invoke callback kind s).cpu = s.cpu := by
  obtain ⟨b, i, n, st, h, -⟩ := invoke_shape callback kind s
  rw [h]

@[simp] theorem invoke_params (callback : Nat) (kind : HookKind) (s : State) :
    (invoke callback kind s).params = s.params := by
  obtain ⟨b, i, n, st, h, -⟩ := invoke_shape callback kind s
  rw [h]

@[simp] theorem invoke_rngDraws (callback : Nat) (kind : HookKind) (s : State) :
    (invoke callback kind s).rngDraws = s.rngDraws := by
  obtain ⟨b, i, n, st, h, -⟩ := invoke_shape callback kind s
  rw [h]

/-- A hook invocation records exactly one event (R66). -/
@[simp] theorem invoke_hookLog (callback : Nat) (kind : HookKind) (s : State) :
    (invoke callback kind s).hookLog = s.hookLog ++ [eventAt callback kind s] := by
  obtain ⟨b, i, n, st, h, -⟩ := invoke_shape callback kind s
  rw [h]

@[simp] theorem invoke_script (callback : Nat) (kind : HookKind) (s : State) :
    (invoke callback kind s).script = s.script.tail := by
  obtain ⟨b, i, n, st, h, -⟩ := invoke_shape callback kind s
  rw [h]

theorem scriptAdmitted_tail {s t : State} (ht : t.script = s.script.tail) (h : scriptAdmitted s = true) :
    scriptAdmitted t = true := by
  unfold scriptAdmitted at *
  rw [List.all_eq_true] at *
  exact fun x hx => h x (List.mem_of_mem_tail (ht ▸ hx))

theorem scriptLoadsNothing_tail {s t : State} (ht : t.script = s.script.tail) (h : scriptLoadsNothing s = true) :
    scriptLoadsNothing t = true := by
  unfold scriptLoadsNothing at *
  rw [List.all_eq_true] at *
  exact fun x hx => h x (List.mem_of_mem_tail (ht ▸ hx))

end Sys2Proof.Machine
end

