-- ==== Sys2Proof/Laws/Flags.lean ====
section
/-! SUPPORT. What each flag write leaves and writes, bit by bit. -/

namespace Sys2Proof.Machine

/-- A flag write writes its flag and leaves every other (R24). -/
@[simp] theorem flagOf_withFlag (f g : Flag) (v : Bool) (p : Byte) :
    flagOf f (withFlag g v p) = if f = g then v else flagOf f p := by
  cases v <;> cases f <;> cases g <;> simp [flagOf, withFlag, Flag.index]

/-- Bit 5 of P under a flag write: no flag stands there. -/
theorem bit5_withFlag (g : Flag) (v : Bool) (p : Byte) : (withFlag g v p).getLsbD 5 = p.getLsbD 5 := by
  cases v <;> cases g <;> simp [withFlag, Flag.index]

/-- P's fixed bits in terms of its bits. -/
theorem statusFixed_iff (p : Byte) : statusFixed p = true ↔ p.getLsbD 5 = true ∧ flagOf .b p = false := by
  simp [statusFixed, flagOf, Flag.index]

/-- A write of any flag but B keeps P's fixed bits (R25). -/
theorem statusFixed_withFlag {g : Flag} (hg : g ≠ .b) (v : Bool) {p : Byte} (h : statusFixed p = true) :
    statusFixed (withFlag g v p) = true := by
  rw [statusFixed_iff] at *
  rw [bit5_withFlag]
  simp [h, Ne.symm hg]

/-- A whole-byte write of P sets the fixed bits (R25). -/
theorem statusFixed_writePByte (m : Byte) : statusFixed (writePByte m) = true := by
  revert m; decide

theorem statusFixed_withNZ (v : Byte) {p : Byte} (h : statusFixed p = true) : statusFixed (withNZ v p) = true :=
  statusFixed_withFlag (by decide) _ (statusFixed_withFlag (by decide) _ h)

theorem statusFixed_withNVZC (r : AluResult) {p : Byte} (h : statusFixed p = true) : statusFixed (withNVZC r p) = true :=
  statusFixed_withFlag (by decide) _ (statusFixed_withFlag (by decide) _
    (statusFixed_withFlag (by decide) _ (statusFixed_withFlag (by decide) _ h)))

theorem statusFixed_withCompare (r m : Byte) {p : Byte} (h : statusFixed p = true) :
    statusFixed (withCompare r m p) = true :=
  statusFixed_withFlag (by decide) _ (statusFixed_withFlag (by decide) _ (statusFixed_withFlag (by decide) _ h))

theorem statusFixed_withBit (a m : Byte) {p : Byte} (h : statusFixed p = true) : statusFixed (withBit a m p) = true :=
  statusFixed_withFlag (by decide) _ (statusFixed_withFlag (by decide) _ (statusFixed_withFlag (by decide) _ h))

theorem statusFixed_withShift (r : ShiftResult) {p : Byte} (h : statusFixed p = true) :
    statusFixed (withShift r p) = true :=
  statusFixed_withNZ _ (statusFixed_withFlag (by decide) _ h)

/-- The flags after `SetNZ` (R11). -/
@[simp] theorem flagOf_withNZ (f : Flag) (v p : Byte) :
    flagOf f (withNZ v p) = if f = .z then v == 0 else if f = .n then v.msb else flagOf f p := by
  simp [withNZ]

/-- The flags after ADC or SBC (R162, R164). -/
@[simp] theorem flagOf_withNVZC (f : Flag) (r : AluResult) (p : Byte) :
    flagOf f (withNVZC r p) =
      if f = .c then r.c else if f = .z then r.z else if f = .v then r.v else if f = .n then r.n else flagOf f p := by
  simp [withNVZC]

/-- The flags after a compare (R169). -/
@[simp] theorem flagOf_withCompare (f : Flag) (r m p : Byte) :
    flagOf f (withCompare r m p) =
      if f = .n then (r - m).msb else if f = .z then r == m else if f = .c then decide (m.toNat ≤ r.toNat)
      else flagOf f p := by
  simp [withCompare]

/-- The flags after BIT (R173). -/
@[simp] theorem flagOf_withBit (f : Flag) (a m p : Byte) :
    flagOf f (withBit a m p) =
      if f = .v then m.getLsbD 6 else if f = .n then m.getLsbD 7 else if f = .z then (a &&& m) == 0 else flagOf f p := by
  simp [withBit]

/-- The flags after a shift or rotate (R186 to R189). -/
@[simp] theorem flagOf_withShift (f : Flag) (r : ShiftResult) (p : Byte) :
    flagOf f (withShift r p) =
      if f = .z then r.result == 0 else if f = .n then r.result.msb else if f = .c then r.carry else flagOf f p := by
  simp [withShift]

/-! ### The flag writes as the relations claims are stated in -/

theorem keepsFlagsBut_withFlag (g : Flag) (v : Bool) (p : Byte) : KeepsFlagsBut [g] p (withFlag g v p) where
  flags f h := by simp [List.mem_singleton.not.1 h]
  bit5 := bit5_withFlag g v p

theorem setsNZ_withNZ (v p : Byte) : SetsNZ v p (withNZ v p) where
  n := by simp [BitVec.msb_eq_getLsbD_last]
  z := by simp [Bool.beq_eq_decide_eq]
  keep := ⟨fun f h => by simp at h; simp [h], by simp only [withNZ, bit5_withFlag]⟩

theorem setsNVZC_withNVZC (r : AluResult) (p : Byte) : SetsNVZC r p (withNVZC r p) where
  n := by simp
  v := by simp
  z := by simp
  c := by simp
  keep := ⟨fun f h => by simp at h; simp [h], by simp only [withNVZC, bit5_withFlag]⟩

theorem setsCNZ_withShift (r : ShiftResult) (p : Byte) : SetsCNZ r.carry r.result p (withShift r p) where
  c := by simp
  n := by simp [BitVec.msb_eq_getLsbD_last]
  z := by simp [Bool.beq_eq_decide_eq]
  keep := ⟨fun f h => by simp at h; simp [h], by simp only [withShift, withNZ, bit5_withFlag]⟩

theorem setsCompare_withCompare (r m p : Byte) : SetsCompare r m p (withCompare r m p) where
  c := by simp
  z := by simp [Bool.beq_eq_decide_eq]
  n := by
    have h : r - m = BitVec.ofNat 8 (r.toNat + 256 - m.toNat) := by
      apply BitVec.eq_of_toNat_eq
      rw [BitVec.toNat_sub, BitVec.toNat_ofNat]
      have := m.isLt
      omega
    simp [BitVec.msb_eq_getLsbD_last, h]
  keep := ⟨fun f h => by simp at h; simp [h], by simp only [withCompare, bit5_withFlag]⟩

end Sys2Proof.Machine
end

