-- ==== Sys2Proof/Laws/Ops.lean ====
section
/-! SUPPORT. Everything the shared operations can do, said once: byte reads and writes, fetch, push and pull, vector entry
and return. Each has a lemma for its registers, one for `BusOnly`, and its plain form when no hook and no RNG binding stand
in the way. -/

namespace Sys2Proof.Machine

/-! ### Hooks on the bus -/

/-- No hook at the address: nothing happens. -/
theorem fireBusHook_none {table : HookTable} {kind : HookKind} {a : Word} {s : State}
    (h : lookupKey a.toNat table = none) : fireBusHook table kind a s = s := by simp [fireBusHook, h]

@[simp] theorem fireBusHook_cpu (table : HookTable) (kind : HookKind) (a : Word) (s : State) :
    (fireBusHook table kind a s).cpu = s.cpu := by
  unfold fireBusHook; split <;> simp

@[simp] theorem fireBusHook_rngDraws (table : HookTable) (kind : HookKind) (a : Word) (s : State) :
    (fireBusHook table kind a s).rngDraws = s.rngDraws := by
  unfold fireBusHook; split <;> simp

/-- Firing a hook of one of the state's own bus tables. -/
theorem fireBusHook_busOnly {table : HookTable} {kind : HookKind} {a : Word} {s : State}
    (ht : table = s.bus.readHooks ∨ table = s.bus.writeHooks) : BusOnly s (fireBusHook table kind a s) := by
  unfold fireBusHook
  split
  · exact BusOnly.refl s
  · rename_i cb hcb
    obtain ⟨b, i, n, st, he, h1, h2, h3, h4, h5, h6⟩ := invoke_shape cb kind s
    have hscript := invoke_script cb kind s
    rw [he] at hscript ⊢
    refine ⟨rfl, rfl, rfl, rfl, rfl, h1, h2, ⟨_, rfl⟩, h3, h4, fun h => ⟨scriptAdmitted_tail hscript h, h5 h⟩, ?_⟩
    rintro (⟨hr, hw⟩ | h)
    · rcases ht with ht | ht <;> simp [ht, hr, hw] at hcb
    · exact .inr (scriptLoadsNothing_tail hscript h)

/-- Where no callback can store, firing a bus hook leaves the cells. -/
theorem fireBusHook_cells {table : HookTable} {kind : HookKind} {a : Word} {s : State}
    (ht : table = s.bus.readHooks ∨ table = s.bus.writeHooks) (h : HostStoresNothing s) :
    (fireBusHook table kind a s).bus.cells = s.bus.cells := by
  unfold fireBusHook
  split
  · rfl
  · rename_i cb hcb
    obtain ⟨b, i, n, st, he, -, -, -, -, -, h6⟩ := invoke_shape cb kind s
    rw [he]
    rcases h with ⟨hr, hw⟩ | h
    · rcases ht with ht | ht <;> simp [ht, hr, hw] at hcb
    · exact h6 h

/-! ### Reads -/

@[simp] theorem readValue_cpu (a : Word) (s : State) : (readValue a s).2.cpu = s.cpu := by
  unfold readValue; split <;> rfl

@[simp] theorem readValue_bus (a : Word) (s : State) : (readValue a s).2.bus = s.bus := by
  unfold readValue; split <;> rfl

theorem readValue_busOnly (a : Word) (s : State) : BusOnly s (readValue a s).2 := by
  unfold readValue
  split
  · exact ⟨rfl, rfl, rfl, rfl, rfl, id, id, List.prefix_refl _, id, id, fun h => ⟨h, rfl⟩, id⟩
  · exact BusOnly.refl s

/-- A byte read leaves every register. -/
@[simp] theorem memRead_cpu (a : Word) (s : State) : (memRead a s).2.cpu = s.cpu := by simp [memRead]

theorem memRead_busOnly (a : Word) (s : State) : BusOnly s (memRead a s).2 :=
  (readValue_busOnly a s).trans (fireBusHook_busOnly (.inl rfl))

/-- Where no callback can store, a byte read leaves the cells. -/
theorem memRead_cells {a : Word} {s : State} (h : HostStoresNothing s) : (memRead a s).2.bus.cells = s.bus.cells := by
  have := fireBusHook_cells (table := (readValue a s).2.bus.readHooks) (kind := .read) (a := a) (.inl rfl)
    ((readValue_busOnly a s).storeless h)
  simpa [memRead] using this

/-- A byte read off the RNG address and off every read hook is a plain cell read. -/
theorem memRead_plain {a : Word} {s : State} (hr : s.bus.rngBinding ≠ some a)
    (hh : lookupKey a.toNat s.bus.readHooks = none) : memRead a s = (readCell s.bus.cells a.toNat, s) := by
  simp [memRead, readValue, hr, fireBusHook, hh]

theorem memRead_quiet {s : State} (h : Quiet s) (a : Word) : memRead a s = (readCell s.bus.cells a.toNat, s) :=
  memRead_plain (by simp [h.noRng]) (by simp [h.noRead])

/-! ### Writes -/

theorem storeCell_busOnly (a : Word) (v : Byte) (s : State) : BusOnly s (storeCell a v s) where
  instructionCount := rfl
  tickCount := rfl
  phase := rfl
  inStep := rfl
  params := rfl
  irq := id
  nmi := id
  log := List.prefix_refl _
  wf h := by
    simp only [Bus.wf, Bool.and_eq_true, storeCell] at *
    exact ⟨⟨wf_writeCell a.isLt h.1.1, h.1.2⟩, h.2⟩
  stop := id
  admitted h := ⟨h, rfl⟩
  storeless := id

/-- A byte write leaves every register. -/
@[simp] theorem memWrite_cpu (a : Word) (v : Byte) (s : State) : (memWrite a v s).cpu = s.cpu := by simp [memWrite]

theorem memWrite_busOnly (a : Word) (v : Byte) (s : State) : BusOnly s (memWrite a v s) :=
  (storeCell_busOnly a v s).trans (fireBusHook_busOnly (.inr rfl))

/-- Where no callback can store, a byte write changes the one cell. -/
theorem memWrite_cells {a : Word} {v : Byte} {s : State} (h : HostStoresNothing s) :
    (memWrite a v s).bus.cells = writeCell s.bus.cells a.toNat v := by
  have := fireBusHook_cells (table := (storeCell a v s).bus.writeHooks) (kind := .write) (a := a) (.inr rfl)
    ((storeCell_busOnly a v s).storeless h)
  simpa [memWrite] using this

theorem memWrite_plain {a : Word} {v : Byte} {s : State} (hh : lookupKey a.toNat s.bus.writeHooks = none) :
    memWrite a v s = storeCell a v s := by
  simp [memWrite, fireBusHook, hh]

theorem memWrite_quiet {s : State} (h : Quiet s) (a : Word) (v : Byte) : memWrite a v s = storeCell a v s :=
  memWrite_plain (by simp [h.noWrite])

/-! ### Quiet states stay quiet -/

theorem Quiet.storeCell {s : State} (h : Quiet s) (a : Word) (v : Byte) : Quiet (storeCell a v s) :=
  ⟨h.noRead, h.noWrite, h.noRng⟩

/-- Quiet depends on the bus alone. -/
theorem Quiet.ofBus {s t : State} (h : Quiet s) (hb : t.bus = s.bus) : Quiet t :=
  ⟨by rw [hb]; exact h.noRead, by rw [hb]; exact h.noWrite, by rw [hb]; exact h.noRng⟩

theorem Quiet.setS {s : State} (h : Quiet s) (v : Byte) : Quiet (setS v s) := h.ofBus rfl

theorem Quiet.setP {s : State} (h : Quiet s) (v : Byte) : Quiet (setP v s) := h.ofBus rfl

theorem Quiet.setPC {s : State} (h : Quiet s) (v : Word) : Quiet (setPC v s) := h.ofBus rfl

theorem HostStoresNothing.ofQuiet {s : State} (h : Quiet s) : HostStoresNothing s := .inl ⟨h.noRead, h.noWrite⟩

/-! ### Fetch, push, pull -/

@[simp] theorem fetchByte_cpu (s : State) : (fetchByte s).2.cpu = { s.cpu with pc := s.cpu.pc + 1 } := by
  simp [fetchByte]

theorem fetchByte_busOnly (s : State) : BusOnly s (fetchByte s).2 :=
  (memRead_busOnly s.cpu.pc s).trans (BusOnly.ofCpu _)

theorem fetchByte_quiet {s : State} (h : Quiet s) :
    fetchByte s = (readCell s.bus.cells s.cpu.pc.toNat, setPC (s.cpu.pc + 1) s) := by
  simp [fetchByte, memRead_quiet h]

@[simp] theorem push_cpu (v : Byte) (s : State) : (push v s).cpu = { s.cpu with s := s.cpu.s - 1 } := by simp [push]

theorem push_busOnly (v : Byte) (s : State) : BusOnly s (push v s) :=
  (memWrite_busOnly _ v s).trans (BusOnly.ofCpu _)

theorem push_cells {v : Byte} {s : State} (h : HostStoresNothing s) :
    (push v s).bus.cells = writeCell s.bus.cells (stackAddr s.cpu.s).toNat v := by
  simp [push, memWrite_cells h]

theorem push_quiet {s : State} (h : Quiet s) (v : Byte) :
    push v s = setS (s.cpu.s - 1) (storeCell (stackAddr s.cpu.s) v s) := by
  simp [push, memWrite_quiet h]

@[simp] theorem pull_cpu (s : State) : (pull s).2.cpu = { s.cpu with s := s.cpu.s + 1 } := by simp [pull]

theorem pull_busOnly (s : State) : BusOnly s (pull s).2 := (BusOnly.ofCpu _).trans (memRead_busOnly _ _)

theorem pull_cells {s : State} (h : HostStoresNothing s) : (pull s).2.bus.cells = s.bus.cells := by
  simp only [pull]
  rw [memRead_cells]
  · rfl
  · exact (BusOnly.ofCpu _ : BusOnly s (setS (s.cpu.s + 1) s)).storeless h

theorem pull_quiet {s : State} (h : Quiet s) :
    pull s = (readCell s.bus.cells (stackAddr (s.cpu.s + 1)).toNat, setS (s.cpu.s + 1) s) := by
  simp only [pull, memRead_quiet (h.setS _)]
  rfl

/-- A stack address is in page 1: `0x0100 + S` (R23). -/
theorem stackAddr_toNat (sp : Byte) : (stackAddr sp).toNat = 256 + sp.toNat := by
  simp only [stackAddr, BitVec.toNat_add, BitVec.truncate_eq_setWidth, BitVec.toNat_setWidth]
  have := sp.isLt
  have h : (256 : Word).toNat = 256 := rfl
  rw [h]
  omega

/-- Two stack addresses are equal only if their offsets are. -/
theorem stackAddr_inj {a b : Byte} : (stackAddr a).toNat = (stackAddr b).toNat ↔ a = b := by
  rw [stackAddr_toNat, stackAddr_toNat]
  constructor
  · intro h; exact BitVec.eq_of_toNat_eq (by omega)
  · rintro rfl; rfl

@[simp] theorem pushWord_cpu (w : Word) (s : State) : (pushWord w s).cpu = { s.cpu with s := s.cpu.s - 1 - 1 } := by
  simp [pushWord]

theorem pushWord_busOnly (w : Word) (s : State) : BusOnly s (pushWord w s) :=
  (push_busOnly _ _).trans (push_busOnly _ _)

theorem pushWord_quiet {s : State} (h : Quiet s) (w : Word) :
    pushWord w s = setS (s.cpu.s - 1 - 1)
      (storeCell (stackAddr (s.cpu.s - 1)) (loByte w) (storeCell (stackAddr s.cpu.s) (hiByte w) s)) := by
  simp only [pushWord, push_quiet h, push_quiet ((h.storeCell _ _).setS _)]
  rfl

/-- Where no callback can store, a word push writes the high byte at S and the low byte below it (R200, R218, R236). -/
theorem pushWord_cells {w : Word} {s : State} (h : HostStoresNothing s) :
    (pushWord w s).bus.cells =
      writeCell (writeCell s.bus.cells (stackAddr s.cpu.s).toNat (hiByte w)) (stackAddr (s.cpu.s - 1)).toNat (loByte w) := by
  rw [pushWord, push_cells ((push_busOnly _ s).storeless h), push_cells h]
  simp

@[simp] theorem pullWord_cpu (s : State) : (pullWord s).2.cpu = { s.cpu with s := s.cpu.s + 1 + 1 } := by simp [pullWord]

theorem pullWord_busOnly (s : State) : BusOnly s (pullWord s).2 := (pull_busOnly s).trans (pull_busOnly _)

theorem pullWord_quiet {s : State} (h : Quiet s) :
    pullWord s = (wordOf (readCell s.bus.cells (stackAddr (s.cpu.s + 1 + 1)).toNat)
      (readCell s.bus.cells (stackAddr (s.cpu.s + 1)).toNat), setS (s.cpu.s + 1 + 1) s) := by
  simp only [pullWord, pull_quiet h, pull_quiet (h.setS _)]
  rfl

theorem pullWord_cells {s : State} (h : HostStoresNothing s) : (pullWord s).2.bus.cells = s.bus.cells := by
  simp only [pullWord]
  rw [pull_cells ((pull_busOnly s).storeless h), pull_cells h]

@[simp] theorem readPair_cpu (a b : Word) (s : State) : (readPair a b s).2.cpu = s.cpu := by simp [readPair]

theorem readPair_busOnly (a b : Word) (s : State) : BusOnly s (readPair a b s).2 :=
  (memRead_busOnly a s).trans (memRead_busOnly b _)

theorem readPair_cells {a b : Word} {s : State} (h : HostStoresNothing s) : (readPair a b s).2.bus.cells = s.bus.cells := by
  simp only [readPair]
  rw [memRead_cells ((memRead_busOnly a s).storeless h), memRead_cells h]

theorem readPair_quiet {s : State} (h : Quiet s) (a b : Word) :
    readPair a b s = (wordOf (readCell s.bus.cells b.toNat) (readCell s.bus.cells a.toNat), s) := by
  simp [readPair, memRead_quiet h]

/-! ### Taking an exception and returning -/

/-- Vector entry leaves A, X and Y, lowers S by three and sets I (R218, R236); PC is what the vector gives. -/
theorem enterHandler_cpu (copy : Byte → Byte) (vector : Word) (s : State) :
    ∃ pc, (enterHandler copy vector s).cpu =
      { s.cpu with s := s.cpu.s - 1 - 1 - 1, p := withFlag .i true s.cpu.p, pc := pc } := by
  simp [enterHandler, read16]

theorem enterHandler_busOnly (copy : Byte → Byte) (vector : Word) (s : State) :
    BusOnly s (enterHandler copy vector s) :=
  (((pushWord_busOnly _ s).trans (push_busOnly _ _)).trans (BusOnly.ofCpu _)).trans
    ((readPair_busOnly _ _ _).trans (BusOnly.ofCpu _))

/-- Where no callback can store, vector entry writes the three bytes of its frame and no other cell (R218, R236). -/
theorem enterHandler_cells {copy : Byte → Byte} {vector : Word} {s : State} (h : HostStoresNothing s) :
    (enterHandler copy vector s).bus.cells =
      writeCell (writeCell (writeCell s.bus.cells (stackAddr s.cpu.s).toNat (hiByte s.cpu.pc))
        (stackAddr (s.cpu.s - 1)).toNat (loByte s.cpu.pc)) (stackAddr (s.cpu.s - 1 - 1)).toNat (copy s.cpu.p) := by
  have h1 := (pushWord_busOnly s.cpu.pc s).storeless h
  have h2 := (push_busOnly (copy (pushWord s.cpu.pc s).cpu.p) (pushWord s.cpu.pc s)).storeless h1
  have h3 : HostStoresNothing (setFlag .i true (push (copy (pushWord s.cpu.pc s).cpu.p) (pushWord s.cpu.pc s))) := h2
  simp only [enterHandler, read16, setPC]
  rw [readPair_cells h3]
  show (push _ _).bus.cells = _
  rw [push_cells h1, pushWord_cells h, pushWord_cpu]

/-- The return leaves A, X and Y, raises S by three and loads P through WriteP (R219); PC is what was pulled. -/
theorem leaveHandler_cpu (s : State) :
    ∃ pc v, (leaveHandler s).cpu = { s.cpu with s := s.cpu.s + 1 + 1 + 1, p := writePByte v, pc := pc } := by
  exact ⟨(pullWord (pull s).2).1, (pull s).1, by simp [leaveHandler]⟩

theorem leaveHandler_busOnly (s : State) : BusOnly s (leaveHandler s) :=
  ((pull_busOnly s).trans (pullWord_busOnly _)).trans ((BusOnly.ofCpu _).trans (BusOnly.ofCpu _))

/-- Where no callback can store, the return leaves the cells. -/
theorem leaveHandler_cells {s : State} (h : HostStoresNothing s) : (leaveHandler s).bus.cells = s.bus.cells := by
  show (pullWord (pull s).2).2.bus.cells = _
  rw [pullWord_cells ((pull_busOnly s).storeless h), pull_cells h]

/-- Vector entry with no hook and no RNG binding: the frame of three bytes, then PC from the vector's cells (R218, R236). -/
theorem enterHandler_quiet {s : State} (h : Quiet s) (copy : Byte → Byte) (vector : Word) :
    enterHandler copy vector s =
      let t := storeCell (stackAddr (s.cpu.s - 1 - 1)) (copy s.cpu.p)
        (storeCell (stackAddr (s.cpu.s - 1)) (loByte s.cpu.pc) (storeCell (stackAddr s.cpu.s) (hiByte s.cpu.pc) s))
      setPC (wordOf (readCell t.bus.cells (vector + 1).toNat) (readCell t.bus.cells vector.toNat))
        (setP (withFlag .i true s.cpu.p) (setS (s.cpu.s - 1 - 1 - 1) t)) := by
  have h2 := ((h.storeCell (stackAddr s.cpu.s) (hiByte s.cpu.pc)).storeCell (stackAddr (s.cpu.s - 1)) (loByte s.cpu.pc)).setS
    (s.cpu.s - 1 - 1)
  simp only [enterHandler, pushWord_quiet h, push_quiet h2, read16, setFlag_eq,
    readPair_quiet (((h2.storeCell _ _).setS _).setP _)]
  rfl

/-- The return with no hook and no RNG binding (R219). -/
theorem leaveHandler_quiet {s : State} (h : Quiet s) :
    leaveHandler s =
      setPC (wordOf (readCell s.bus.cells (stackAddr (s.cpu.s + 1 + 1 + 1)).toNat)
          (readCell s.bus.cells (stackAddr (s.cpu.s + 1 + 1)).toNat))
        (setP (writePByte (readCell s.bus.cells (stackAddr (s.cpu.s + 1)).toNat)) (setS (s.cpu.s + 1 + 1 + 1) s)) := by
  simp only [leaveHandler, pull_quiet h, pullWord_quiet (h.setS _)]
  rfl

end Sys2Proof.Machine
end

