-- ==== Sys2Proof/Laws/Word.lean ====
section
/-! SUPPORT. A word and its two bytes: `wordOf`, `hiByte` and `loByte` (00_scope.md R8), and the lengths of
instructions in bytes. -/

namespace Sys2Proof

@[simp] theorem wordOf_hiByte_loByte (w : Word) : wordOf (hiByte w) (loByte w) = w := by
  simp only [wordOf, hiByte, loByte]
  rw [BitVec.extractLsb'_append_extractLsb'_eq_extractLsb' (by omega)]
  simp

theorem wordOf_toNat (h l : Byte) : (wordOf h l).toNat = h.toNat * 256 + l.toNat := by
  simp only [wordOf, BitVec.toNat_append]
  rw [← Nat.shiftLeft_add_eq_or_of_lt l.isLt, Nat.shiftLeft_eq]

theorem loByte_toNat (w : Word) : (loByte w).toNat = w.toNat % 256 := by
  simp [loByte]

theorem hiByte_toNat (w : Word) : (hiByte w).toNat = w.toNat / 256 := by
  have := w.isLt
  simp [hiByte, Nat.shiftRight_eq_div_pow]
  omega

@[simp] theorem loByte_wordOf (h l : Byte) : loByte (wordOf h l) = l := by
  apply BitVec.eq_of_toNat_eq
  rw [loByte_toNat, wordOf_toNat]
  have := l.isLt
  omega

@[simp] theorem hiByte_wordOf (h l : Byte) : hiByte (wordOf h l) = h := by
  apply BitVec.eq_of_toNat_eq
  rw [hiByte_toNat, wordOf_toNat]
  have := l.isLt
  omega

/-- Every word is its two bytes: the form in which a proof splits a 16-bit operand. -/
theorem exists_wordOf (w : Word) : ∃ h l, w = wordOf h l := ⟨hiByte w, loByte w, by simp⟩

/-- A memory mode has as many operand bytes as its format says (R91). -/
theorem MemMode.length_bytes (m : MemMode) : m.bytes.length + 1 = m.format.length := by cases m <;> rfl

/-- An instruction is one, two or three bytes long (R91). -/
theorem lengthOf_cases (op : Byte) : lengthOf op = 1 ∨ lengthOf op = 2 ∨ lengthOf op = 3 := by
  unfold lengthOf Instr.length Format.length
  split <;> simp

end Sys2Proof
end

