-- ==== Sys2Proof/Laws/Operands.lean ====
section
/-! SUPPORT. Everything the operand forms can do: they leave every register, and with no hook and no RNG binding they read
plain cells. -/

namespace Sys2Proof.Machine

theorem zeroPage_toNat (z : Byte) : (zeroPage z).toNat = z.toNat := by
  have := z.isLt
  simp [zeroPage]
  omega

/-- An indexed sum wraps mod 65536 (R70, R105, R106, R109). -/
theorem indexed_ea_toNat (base : Word) (index : Byte) (s : State) :
    (indexed base index s).ea.toNat = (base.toNat + index.toNat) % 65536 := by
  have := index.isLt
  simp only [indexed, BitVec.toNat_add, BitVec.truncate_eq_setWidth, BitVec.toNat_setWidth]
  omega

/-- Two addresses cross a page exactly when their page numbers differ (R105, R109). -/
theorem crosses_iff (a b : Word) : crosses a b = true ↔ a.toNat / 256 ≠ b.toNat / 256 := by
  simp only [crosses, bne_iff_ne, ne_eq, ← hiByte_toNat, BitVec.toNat_inj]

@[simp] theorem resolve_cpu (m : MemMode) (s : State) : (resolve m s).state.cpu = s.cpu := by
  cases m <;> simp [resolve, indexed, zeroPagePointer]

theorem resolve_busOnly (m : MemMode) (s : State) : BusOnly s (resolve m s).state := by
  cases m with
  | indX z | indY z => exact readPair_busOnly _ _ _
  | zp _ | zpX _ | zpY _ | abs _ | absX _ | absY _ => exact BusOnly.refl s

/-- Where no callback can store, resolution leaves the cells. -/
theorem resolve_cells {m : MemMode} {s : State} (h : HostStoresNothing s) :
    (resolve m s).state.bus.cells = s.bus.cells := by
  cases m with
  | indX z | indY z => exact readPair_cells h
  | zp _ | zpX _ | zpY _ | abs _ | absX _ | absY _ => rfl

/-- The pointer in page zero at `p`, as the cells hold it (R108, R109). -/
def cellPointer (p : Byte) (s : State) : Word :=
  wordOf (readCell s.bus.cells (zeroPage (p + 1)).toNat) (readCell s.bus.cells (zeroPage p).toNat)

/-- The effective address of each mode over plain cells (R100 to R109). -/
def plainEA (m : MemMode) (s : State) : Word :=
  match m with
  | .zp z => zeroPage z
  | .zpX z => zeroPage (z + s.cpu.x)
  | .zpY z => zeroPage (z + s.cpu.y)
  | .abs a => a
  | .absX a => a + s.cpu.x.zeroExtend 16
  | .absY a => a + s.cpu.y.zeroExtend 16
  | .indX z => cellPointer (z + s.cpu.x) s
  | .indY z => cellPointer z s + s.cpu.y.zeroExtend 16

theorem resolve_quiet_state {s : State} (h : Quiet s) (m : MemMode) : (resolve m s).state = s := by
  cases m <;> simp [resolve, indexed, zeroPagePointer, readPair_quiet h]

theorem resolve_quiet_ea {s : State} (h : Quiet s) (m : MemMode) : (resolve m s).ea = plainEA m s := by
  cases m <;> simp [resolve, indexed, zeroPagePointer, readPair_quiet h, plainEA, cellPointer]

@[simp] theorem readOperand_cpu (o : ReadOperand) (s : State) : (readOperand o s).state.cpu = s.cpu := by
  cases o <;> simp [readOperand]

theorem readOperand_busOnly (o : ReadOperand) (s : State) : BusOnly s (readOperand o s).state := by
  cases o with
  | imm v => exact BusOnly.refl s
  | mem m => exact (resolve_busOnly m s).trans (memRead_busOnly _ _)

/-- Where no callback can store, reading an operand leaves the cells. -/
theorem readOperand_cells {o : ReadOperand} {s : State} (h : HostStoresNothing s) :
    (readOperand o s).state.bus.cells = s.bus.cells := by
  cases o with
  | imm v => rfl
  | mem m =>
    simp only [readOperand]
    rw [memRead_cells ((resolve_busOnly m s).storeless h), resolve_cells h]

theorem readOperand_quiet_state {s : State} (h : Quiet s) (o : ReadOperand) : (readOperand o s).state = s := by
  cases o with
  | imm v => rfl
  | mem m => simp [readOperand, resolve_quiet_state h, memRead_quiet h]

theorem readOperand_quiet_mem {s : State} (h : Quiet s) (m : MemMode) :
    (readOperand (.mem m) s).value = readCell s.bus.cells (plainEA m s).toNat := by
  simp [readOperand, resolve_quiet_state h, memRead_quiet h, resolve_quiet_ea h]

@[simp] theorem jumpTarget_cpu (t : JumpOperand) (s : State) : (jumpTarget t s).2.cpu = s.cpu := by
  cases t <;> simp [jumpTarget]

theorem jumpTarget_busOnly (t : JumpOperand) (s : State) : BusOnly s (jumpTarget t s).2 := by
  cases t with
  | abs w => exact BusOnly.refl s
  | ind ptr => exact readPair_busOnly _ _ _

theorem jumpTarget_cells {t : JumpOperand} {s : State} (h : HostStoresNothing s) :
    (jumpTarget t s).2.bus.cells = s.bus.cells := by
  cases t with
  | abs w => rfl
  | ind ptr => exact readPair_cells h

/-- A read-modify-write leaves the registers to what follows the write. -/
theorem modifyMem_cpu (m : MemMode) (f : Byte → Byte) (act : Byte → State → State) (s : State) :
    ∃ v t, modifyMem m f act s = act v t ∧ t.cpu = s.cpu ∧ BusOnly s t := by
  refine ⟨_, _, rfl, by simp, ?_⟩
  exact ((resolve_busOnly m s).trans (memRead_busOnly _ _)).trans (memWrite_busOnly _ _ _)

/-- Where no callback can store, a read-modify-write stores its result in the one cell of its effective address. -/
theorem modifyMem_cells {m : MemMode} {f : Byte → Byte} {act : Byte → State → State} {s : State}
    (h : HostStoresNothing s) (hact : ∀ v t, (act v t).bus = t.bus) :
    (modifyMem m f act s).bus.cells =
      writeCell s.bus.cells (resolve m s).ea.toNat (f (memRead (resolve m s).ea (resolve m s).state).1) := by
  have h1 := (resolve_busOnly m s).storeless h
  have h2 := (memRead_busOnly (resolve m s).ea (resolve m s).state).storeless h1
  simp only [modifyMem]
  rw [hact, memWrite_cells h2, memRead_cells h1, resolve_cells h]

end Sys2Proof.Machine
end

