-- ==== Sys2Proof/Laws/Retire.lean ====
section
/-! SUPPORT. The retirement said once, and the well-formed instructions as those with an opcode byte. -/

namespace Sys2Proof.Machine

/-- A memory form has an opcode byte exactly in the tables that list it; used per instruction below. -/
theorem opcode_isSome (i : Instr) : i.opcode.isSome = i.wellFormed := by
  cases i with
  | lda o | ldx o | ldy o | adc o | sbc o | cmp o | cpx o | cpy o | and o | eor o | ora o =>
    cases o with
    | imm v => rfl
    | mem m => cases m <;> rfl
  | sta m | stx m | sty m | bit m | inc m | dec m => cases m <;> rfl
  | asl o | lsr o | rol o | ror o =>
    cases o with
    | acc => rfl
    | mem m => cases m <;> rfl
  | jmp t => cases t <;> rfl
  | illegal op =>
    simp only [Instr.opcode, Instr.wellFormed]
    split <;> simp_all
  | _ => rfl

/-- A well-formed instruction has an opcode byte. -/
theorem opcode_of_wellFormed {i : Instr} (h : i.wellFormed = true) : ∃ op, i.opcode = some op :=
  Option.isSome_iff_exists.1 ((opcode_isSome i).trans h)

/-- The state a retirement leaves (R123, R124). -/
def retired (i : Instr) (op : Byte) (extra : Nat) (s : State) : State :=
  { s with
    tickCount := s.tickCount + (tickCost s.params i op + penalty s.params extra)
    instructionCount := s.instructionCount + 1 }

theorem retire_of_opcode {i : Instr} {op : Byte} (h : i.opcode = some op) (extra : Nat) (s : State) :
    retire i extra s = .next (retired i op extra s) := by simp [retire, h, retired]

/-- EVERYTHING A RETIREMENT CAN DO: it answers only for a form with an opcode byte, and then changes the two counters. -/
theorem retire_next {i : Instr} {extra : Nat} {s t : State} (h : retire i extra s = .next t) :
    ∃ op, i.opcode = some op ∧ t = retired i op extra s := by
  unfold retire at h
  split at h
  · cases h
  · rename_i op hop
    cases h
    exact ⟨op, hop, rfl⟩

/-- A well-formed instruction of the read class answers: the operand is read and acts, then it retires (R111). -/
theorem readClass_next {i : Instr} (hw : i.wellFormed = true) (o : ReadOperand) (act : Byte → State → State) (s : State) :
    ∃ op, i.opcode = some op ∧ readClass i o act s =
      .next (retired i op (bitNat (readOperand o s).cross) (act (readOperand o s).value (readOperand o s).state)) := by
  obtain ⟨op, h⟩ := opcode_of_wellFormed hw
  exact ⟨op, h, retire_of_opcode h _ _⟩

/-- A well-formed instruction of the write class answers: one write, then it retires (R111). -/
theorem writeClass_next {i : Instr} (hw : i.wellFormed = true) (m : MemMode) (v : Byte) (s : State) :
    ∃ op, i.opcode = some op ∧ writeClass i m v s =
      .next (retired i op 0 (memWrite (resolve m s).ea v (resolve m s).state)) := by
  obtain ⟨op, h⟩ := opcode_of_wellFormed hw
  exact ⟨op, h, retire_of_opcode h _ _⟩

/-- A retirement changes the two counters only. -/
@[simp] theorem retired_cpu (i : Instr) (op : Byte) (extra : Nat) (s : State) : (retired i op extra s).cpu = s.cpu := rfl

@[simp] theorem retired_bus (i : Instr) (op : Byte) (extra : Nat) (s : State) : (retired i op extra s).bus = s.bus := rfl

@[simp] theorem retired_instructionCount (i : Instr) (op : Byte) (extra : Nat) (s : State) :
    (retired i op extra s).instructionCount = s.instructionCount + 1 := rfl

@[simp] theorem retired_tickCount (i : Instr) (op : Byte) (extra : Nat) (s : State) :
    (retired i op extra s).tickCount = s.tickCount + (tickCost s.params i op + penalty s.params extra) := rfl

end Sys2Proof.Machine
end

