-- ==== Sys2Proof/Laws/Exec.lean ====
section
/-! SUPPORT. Everything an execute phase can do, said once for all instructions. -/

namespace Sys2Proof.Machine

/-- The state of an execute phase before its retirement: registers and bus as the instruction leaves them, P's fixed bits
kept, everything else as `BusOnly` says. -/
def Acted (i : Instr) (s t : State) : Prop :=
  ∃ op extra u, i.opcode = some op ∧ extra ≤ 2 ∧ t = retired i op extra u ∧ BusOnly s u ∧
    (statusFixed s.cpu.p = true → statusFixed u.cpu.p = true)

theorem Acted.ofRetire {i : Instr} {extra : Nat} {s u t : State} (h : retire i extra u = .next t) (he : extra ≤ 2)
    (hb : BusOnly s u) (hp : statusFixed s.cpu.p = true → statusFixed u.cpu.p = true) : Acted i s t := by
  obtain ⟨op, hop, rfl⟩ := retire_next h
  exact ⟨op, extra, u, hop, he, rfl, hb, hp⟩

theorem bitNat_le (b : Bool) : bitNat b ≤ 1 := by cases b <;> decide

theorem Acted.ofReadClass {i : Instr} {o : ReadOperand} {act : Byte → State → State} {s t : State}
    (h : readClass i o act s = .next t) (hb : ∀ v u, BusOnly u (act v u))
    (hp : ∀ v u, statusFixed u.cpu.p = true → statusFixed (act v u).cpu.p = true) : Acted i s t :=
  .ofRetire h (by have := bitNat_le (readOperand o s).cross; omega) ((readOperand_busOnly o s).trans (hb _ _))
    (fun x => hp _ _ (by simpa using x))

theorem Acted.ofWriteClass {i : Instr} {m : MemMode} {v : Byte} {s t : State} (h : writeClass i m v s = .next t) :
    Acted i s t :=
  .ofRetire h (by omega) ((resolve_busOnly m s).trans (memWrite_busOnly _ _ _)) (fun x => by simpa using x)

theorem Acted.ofBranch {i : Instr} {d : Byte} {taken : Bool} {s t : State} (h : branch i d taken s = .next t) :
    Acted i s t := by
  unfold branch at h
  dsimp only at h
  split at h
  · exact .ofRetire h (by have := bitNat_le (crosses s.cpu.pc (branchTarget d s.cpu.pc)); omega) (.ofCpu _) (fun x => x)
  · exact .ofRetire h (by omega) (.refl s) (fun x => x)

theorem Acted.ofModify {i : Instr} {m : MemMode} {f : Byte → Byte} {act : Byte → State → State} {s t : State}
    (h : retire i 0 (modifyMem m f act s) = .next t) (hb : ∀ v u, BusOnly u (act v u))
    (hp : ∀ v u, statusFixed u.cpu.p = true → statusFixed (act v u).cpu.p = true) : Acted i s t := by
  obtain ⟨v, u, he, hc, hu⟩ := modifyMem_cpu m f act s
  rw [he] at h
  exact .ofRetire h (by omega) (hu.trans (hb _ _)) (fun x => hp _ _ (by rw [hc]; exact x))

theorem Acted.ofShift {i : Instr} {o : ShiftOperand} {f : Byte → ShiftResult} {s t : State}
    (h : retire i 0 (shiftOperand o f s) = .next t) : Acted i s t := by
  cases o with
  | acc => exact .ofRetire h (by omega) (.ofCpu _) (statusFixed_withShift _)
  | mem m => exact .ofModify h (fun _ _ => .ofCpu _) (fun _ _ => statusFixed_withShift _)

/-- EVERYTHING AN EXECUTE PHASE CAN DO. -/
theorem exec_acted {i : Instr} {s t : State} (h : exec i s = .next t) : Acted i s t := by
  cases i with
  | lda o | ldx o | ldy o | and o | eor o | ora o =>
    simp only [exec, execLda, execLdx, execLdy, execAnd, execEor, execOra] at h
    exact .ofReadClass h (fun _ _ => .ofCpu _) (fun _ _ => statusFixed_withNZ _)
  | adc o | sbc o =>
    simp only [exec, execAdc, execSbc] at h
    exact .ofReadClass h (fun _ _ => .ofCpu _) (fun _ _ => statusFixed_withNVZC _)
  | cmp o | cpx o | cpy o =>
    simp only [exec, execCmp, execCpx, execCpy] at h
    exact .ofReadClass h (fun _ _ => .ofCpu _) (fun _ _ => statusFixed_withCompare _ _)
  | bit m =>
    simp only [exec, execBit] at h
    exact .ofReadClass h (fun _ _ => .ofCpu _) (fun _ _ => statusFixed_withBit _ _)
  | sta m | stx m | sty m =>
    simp only [exec, execSta, execStx, execSty] at h
    exact .ofWriteClass h
  | tax | tay | tsx | txa | tya | inx | iny | dex | dey =>
    simp only [exec, execTax, execTay, execTsx, execTxa, execTya, execInx, execIny, execDex, execDey] at h
    exact .ofRetire h (by omega) (.ofCpu _) (statusFixed_withNZ _)
  | txs | nop =>
    simp only [exec, execTxs, execNop] at h
    exact .ofRetire h (by omega) (.ofCpu _) (fun x => x)
  | pha | php =>
    simp only [exec, execPha, execPhp] at h
    exact .ofRetire h (by omega) (push_busOnly _ _) (fun x => by simpa using x)
  | pla =>
    simp only [exec, execPla] at h
    exact .ofRetire h (by omega) ((pull_busOnly s).trans (.ofCpu _)) (fun x => statusFixed_withNZ _ (by simpa using x))
  | plp =>
    simp only [exec, execPlp] at h
    exact .ofRetire h (by omega) ((pull_busOnly s).trans (.ofCpu _)) (fun _ => statusFixed_writePByte _)
  | inc m | dec m =>
    simp only [exec, execInc, execDec] at h
    exact .ofModify h (fun _ _ => .ofCpu _) (fun _ _ => statusFixed_withNZ _)
  | asl o | lsr o | rol o | ror o =>
    simp only [exec, execAsl, execLsr, execRol, execRor] at h
    exact .ofShift h
  | bpl d | bmi d | bvc d | bvs d | bcc d | bcs d | bne d | beq d =>
    simp only [exec, execBpl, execBmi, execBvc, execBvs, execBcc, execBcs, execBne, execBeq] at h
    exact .ofBranch h
  | jmp j =>
    simp only [exec, execJmp] at h
    exact .ofRetire h (by omega) ((jumpTarget_busOnly j s).trans (.ofCpu _)) (fun x => by simpa using x)
  | jsr w =>
    simp only [exec, execJsr] at h
    exact .ofRetire h (by omega) ((pushWord_busOnly _ s).trans (.ofCpu _)) (fun x => by simpa using x)
  | rts =>
    simp only [exec, execRts] at h
    exact .ofRetire h (by omega) ((pullWord_busOnly s).trans (.ofCpu _)) (fun x => by simpa using x)
  | clc | sec | cli | sei | clv | cld | sed =>
    simp only [exec, execClc, execSec, execCli, execSei, execClv, execCld, execSed] at h
    exact .ofRetire h (by omega) (.ofCpu _) (statusFixed_withFlag (by decide) _)
  | brk =>
    simp only [exec, execBrk] at h
    refine .ofRetire h (by omega) ((BusOnly.ofCpu _).trans (enterHandler_busOnly _ _ _)) (fun x => ?_)
    obtain ⟨pc, hc⟩ := enterHandler_cpu pushedCopy irqVector (setPC (s.cpu.pc + 1) s)
    rw [hc]
    exact statusFixed_withFlag (by decide) _ x
  | rti =>
    simp only [exec, execRti] at h
    refine .ofRetire h (by omega) (leaveHandler_busOnly s) (fun _ => ?_)
    obtain ⟨pc, v, hc⟩ := leaveHandler_cpu s
    rw [hc]
    exact statusFixed_writePByte v
  | illegal op =>
    simp only [exec, execIllegal] at h
    split at h
    · exact .ofRetire h (by omega) (.refl s) (fun x => x)
    · cases h

end Sys2Proof.Machine
end

