-- ==== Sys2Proof/Laws/PerInstr.lean ====
section
/-! SUPPORT. The length law, one lemma per constructor of Instr: a well-formed instruction is encoded in as many bytes as its
format says (30_encoding.md R90, R91). -/

namespace Sys2Proof.Laws.Length

open Sys2Proof Sys2Proof.Machine

/-- A well-formed instruction has as many bytes as its format says. -/
def Statement (i : Instr) : Prop := i.wellFormed = true → (encode i).length = i.length

/-- The bytes are the opcode byte and the operand bytes (R90). -/
theorem statement_of_operandBytes {i : Instr} (h : i.operandBytes.length + 1 = i.length) : Statement i := by
  intro hw
  obtain ⟨op, hop⟩ := opcode_of_wellFormed hw
  unfold encode
  rw [hop]
  exact h

theorem readOperand_length (o : ReadOperand) (i : Instr) (hb : i.operandBytes = match o with | .imm v => [v] | .mem m => m.bytes)
    (hl : i.length = o.format.length) : Statement i :=
  statement_of_operandBytes (by
    rw [hb, hl]
    cases o with
    | imm v => rfl
    | mem m => exact m.length_bytes)

theorem shiftOperand_length (o : ShiftOperand) (i : Instr) (hb : i.operandBytes = match o with | .acc => [] | .mem m => m.bytes)
    (hl : i.length = o.format.length) : Statement i :=
  statement_of_operandBytes (by
    rw [hb, hl]
    cases o with
    | acc => rfl
    | mem m => exact m.length_bytes)

theorem lda (o : ReadOperand) : Statement (.lda o) := readOperand_length o _ rfl rfl
theorem ldx (o : ReadOperand) : Statement (.ldx o) := readOperand_length o _ rfl rfl
theorem ldy (o : ReadOperand) : Statement (.ldy o) := readOperand_length o _ rfl rfl
theorem sta (m : MemMode) : Statement (.sta m) := statement_of_operandBytes m.length_bytes
theorem stx (m : MemMode) : Statement (.stx m) := statement_of_operandBytes m.length_bytes
theorem sty (m : MemMode) : Statement (.sty m) := statement_of_operandBytes m.length_bytes
theorem tax : Statement .tax := statement_of_operandBytes rfl
theorem tay : Statement .tay := statement_of_operandBytes rfl
theorem tsx : Statement .tsx := statement_of_operandBytes rfl
theorem txa : Statement .txa := statement_of_operandBytes rfl
theorem txs : Statement .txs := statement_of_operandBytes rfl
theorem tya : Statement .tya := statement_of_operandBytes rfl
theorem pha : Statement .pha := statement_of_operandBytes rfl
theorem php : Statement .php := statement_of_operandBytes rfl
theorem pla : Statement .pla := statement_of_operandBytes rfl
theorem plp : Statement .plp := statement_of_operandBytes rfl
theorem adc (o : ReadOperand) : Statement (.adc o) := readOperand_length o _ rfl rfl
theorem sbc (o : ReadOperand) : Statement (.sbc o) := readOperand_length o _ rfl rfl
theorem cmp (o : ReadOperand) : Statement (.cmp o) := readOperand_length o _ rfl rfl
theorem cpx (o : ReadOperand) : Statement (.cpx o) := readOperand_length o _ rfl rfl
theorem cpy (o : ReadOperand) : Statement (.cpy o) := readOperand_length o _ rfl rfl
theorem and (o : ReadOperand) : Statement (.and o) := readOperand_length o _ rfl rfl
theorem eor (o : ReadOperand) : Statement (.eor o) := readOperand_length o _ rfl rfl
theorem ora (o : ReadOperand) : Statement (.ora o) := readOperand_length o _ rfl rfl
theorem bit (m : MemMode) : Statement (.bit m) := statement_of_operandBytes m.length_bytes
theorem inc (m : MemMode) : Statement (.inc m) := statement_of_operandBytes m.length_bytes
theorem dec (m : MemMode) : Statement (.dec m) := statement_of_operandBytes m.length_bytes
theorem inx : Statement .inx := statement_of_operandBytes rfl
theorem iny : Statement .iny := statement_of_operandBytes rfl
theorem dex : Statement .dex := statement_of_operandBytes rfl
theorem dey : Statement .dey := statement_of_operandBytes rfl
theorem asl (o : ShiftOperand) : Statement (.asl o) := shiftOperand_length o _ rfl rfl
theorem lsr (o : ShiftOperand) : Statement (.lsr o) := shiftOperand_length o _ rfl rfl
theorem rol (o : ShiftOperand) : Statement (.rol o) := shiftOperand_length o _ rfl rfl
theorem ror (o : ShiftOperand) : Statement (.ror o) := shiftOperand_length o _ rfl rfl
theorem bpl (d : Byte) : Statement (.bpl d) := statement_of_operandBytes rfl
theorem bmi (d : Byte) : Statement (.bmi d) := statement_of_operandBytes rfl
theorem bvc (d : Byte) : Statement (.bvc d) := statement_of_operandBytes rfl
theorem bvs (d : Byte) : Statement (.bvs d) := statement_of_operandBytes rfl
theorem bcc (d : Byte) : Statement (.bcc d) := statement_of_operandBytes rfl
theorem bcs (d : Byte) : Statement (.bcs d) := statement_of_operandBytes rfl
theorem bne (d : Byte) : Statement (.bne d) := statement_of_operandBytes rfl
theorem beq (d : Byte) : Statement (.beq d) := statement_of_operandBytes rfl
theorem jmp (t : JumpOperand) : Statement (.jmp t) := by cases t <;> exact statement_of_operandBytes rfl
theorem jsr (target : Word) : Statement (.jsr target) := statement_of_operandBytes rfl
theorem rts : Statement .rts := statement_of_operandBytes rfl
theorem clc : Statement .clc := statement_of_operandBytes rfl
theorem sec : Statement .sec := statement_of_operandBytes rfl
theorem cli : Statement .cli := statement_of_operandBytes rfl
theorem sei : Statement .sei := statement_of_operandBytes rfl
theorem clv : Statement .clv := statement_of_operandBytes rfl
theorem cld : Statement .cld := statement_of_operandBytes rfl
theorem sed : Statement .sed := statement_of_operandBytes rfl
theorem nop : Statement .nop := statement_of_operandBytes rfl
theorem brk : Statement .brk := statement_of_operandBytes rfl
theorem rti : Statement .rti := statement_of_operandBytes rfl
theorem illegal (op : Byte) : Statement (.illegal op) := statement_of_operandBytes rfl

end Sys2Proof.Laws.Length
end

