-- ==== Sys2Proof/Laws/Step.lean ====
section
/-! SUPPORT. Everything a step can do, said once: fetch, instruction hooks, check point, and the step
itself. -/

namespace Sys2Proof.Machine

/-- What a callback run leaves of a state, its registers apart; as `BusOnly`, but instruction hooks may register bus hooks. -/
structure HostActed (s t : State) : Prop where
  instructionCount : t.instructionCount = s.instructionCount
  tickCount        : t.tickCount = s.tickCount
  phase            : t.phase = s.phase
  inStep           : t.inStep = s.inStep
  params           : t.params = s.params
  irq              : s.pendingIRQ = true → t.pendingIRQ = true
  nmi              : s.pendingNMI = true → t.pendingNMI = true
  log              : s.hookLog <+: t.hookLog
  wf               : s.bus.wf = true → t.bus.wf = true
  stop             : s.stop.isSome = true → t.stop.isSome = true
  admitted         : scriptAdmitted s = true → scriptAdmitted t = true ∧ t.stop = s.stop

theorem HostActed.refl (s : State) : HostActed s s :=
  ⟨rfl, rfl, rfl, rfl, rfl, id, id, List.prefix_refl _, id, id, fun h => ⟨h, rfl⟩⟩

theorem HostActed.trans {s t u : State} (h : HostActed s t) (k : HostActed t u) : HostActed s u :=
  ⟨k.instructionCount.trans h.instructionCount, k.tickCount.trans h.tickCount, k.phase.trans h.phase,
    k.inStep.trans h.inStep, k.params.trans h.params, fun x => k.irq (h.irq x), fun x => k.nmi (h.nmi x), h.log.trans k.log,
    fun x => k.wf (h.wf x), fun x => k.stop (h.stop x),
    fun x => ⟨(k.admitted (h.admitted x).1).1, (k.admitted (h.admitted x).1).2.trans (h.admitted x).2⟩⟩

theorem BusOnly.hostActed {s t : State} (h : BusOnly s t) : HostActed s t :=
  ⟨h.instructionCount, h.tickCount, h.phase, h.inStep, h.params, h.irq, h.nmi, h.log, h.wf, h.stop, h.admitted⟩

theorem invoke_hostActed (callback : Nat) (kind : HookKind) (s : State) : HostActed s (invoke callback kind s) := by
  obtain ⟨b, i, n, st, he, h1, h2, h3, h4, h5, -⟩ := invoke_shape callback kind s
  have hscript := invoke_script callback kind s
  rw [he] at hscript ⊢
  exact ⟨rfl, rfl, rfl, rfl, rfl, h1, h2, ⟨_, rfl⟩, h3, h4, fun h => ⟨scriptAdmitted_tail hscript h, h5 h⟩⟩

theorem invokeAll_hostActed (callbacks : List Nat) (s : State) :
    HostActed s (callbacks.foldl (fun t callback => invoke callback .instruction t) s) ∧
      (callbacks.foldl (fun t callback => invoke callback .instruction t) s).cpu = s.cpu := by
  induction callbacks generalizing s with
  | nil => exact ⟨.refl s, rfl⟩
  | cons c cs ih =>
    obtain ⟨h1, h2⟩ := ih (invoke c .instruction s)
    exact ⟨(invoke_hostActed c .instruction s).trans h1, h2.trans (invoke_cpu c .instruction s)⟩

theorem fireInstructionHooks_hostActed (s : State) : HostActed s (fireInstructionHooks s) :=
  (invokeAll_hostActed _ s).1

/-- Instruction hooks leave the registers. -/
@[simp] theorem fireInstructionHooks_cpu (s : State) : (fireInstructionHooks s).cpu = s.cpu :=
  (invokeAll_hostActed _ s).2

/-! ### Fetch -/

/-- A fetch leaves every register but PC, which passes the instruction's bytes (R27, R96). -/
theorem fetchInstr_cpu (s : State) :
    (fetchInstr s).2.cpu = { s.cpu with pc := s.cpu.pc + BitVec.ofNat 16 (lengthOf (fetchByte s).1) } := by
  unfold fetchInstr
  dsimp only
  rcases lengthOf_cases (fetchByte s).1 with h | h | h <;> rewrite [h] <;> simp [BitVec.add_assoc]

theorem fetchInstr_busOnly (s : State) : BusOnly s (fetchInstr s).2 := by
  unfold fetchInstr
  dsimp only
  split
  · exact (fetchByte_busOnly s).trans (fetchByte_busOnly _)
  · exact ((fetchByte_busOnly s).trans (fetchByte_busOnly _)).trans (fetchByte_busOnly _)
  · exact fetchByte_busOnly s

/-! ### Check point -/

/-- EVERYTHING A SERVICE CAN DO (R236): `interruptTicks` are added, its own pending flag is cleared, the other stays raised. -/
theorem service_shape (line : Line) (s : State) :
    ∃ u, BusOnly s u ∧ (statusFixed s.cpu.p = true → statusFixed u.cpu.p = true) ∧
      service line s = addTicks s.params.interruptTicks (clearPending line u) := by
  refine ⟨enterHandler (fun p => p) line.vector s, enterHandler_busOnly _ _ _, fun h => ?_, ?_⟩
  · obtain ⟨pc, hc⟩ := enterHandler_cpu (fun p => p) line.vector s
    rw [hc]
    exact statusFixed_withFlag (by decide) _ h
  · have hp : (clearPending line (enterHandler (fun p => p) line.vector s)).params = s.params := by
      rw [← (enterHandler_busOnly (fun p => p) line.vector s).params]
      generalize enterHandler (fun p => p) line.vector s = t
      cases line <;> rfl
    unfold service
    dsimp only
    rw [hp]

/-- EVERYTHING A CHECK POINT CAN DO (R235): one service, or nothing. -/
theorem checkPoint_shape (s : State) :
    checkPoint s = s ∨ (s.pendingNMI = true ∧ checkPoint s = service .nmi s) ∨
      (s.pendingNMI = false ∧ s.pendingIRQ = true ∧ flagOf .i s.cpu.p = false ∧ checkPoint s = service .irq s) := by
  unfold checkPoint
  split
  · rename_i h; exact .inr (.inl ⟨h, rfl⟩)
  · split
    · rename_i h1 h2
      simp only [Bool.and_eq_true, Bool.not_eq_true'] at h2
      exact .inr (.inr ⟨by simpa using h1, h2.1, h2.2, rfl⟩)
    · exact .inl rfl

/-- The fields a check point keeps, and the ticks it may add. -/
theorem checkPoint_keeps (s : State) :
    (checkPoint s).instructionCount = s.instructionCount ∧ (checkPoint s).phase = s.phase ∧
      (checkPoint s).inStep = s.inStep ∧ (checkPoint s).params = s.params ∧
      (s.bus.wf = true → (checkPoint s).bus.wf = true) ∧
      (statusFixed s.cpu.p = true → statusFixed (checkPoint s).cpu.p = true) ∧
      (scriptAdmitted s = true → scriptAdmitted (checkPoint s) = true ∧ (checkPoint s).stop = s.stop) ∧
      ((checkPoint s).tickCount = s.tickCount ∨ (checkPoint s).tickCount = s.tickCount + s.params.interruptTicks) := by
  rcases checkPoint_shape s with h | ⟨-, h⟩ | ⟨-, -, -, h⟩
  · rw [h]; exact ⟨rfl, rfl, rfl, rfl, id, id, fun x => ⟨x, rfl⟩, .inl rfl⟩
  · obtain ⟨u, hb, hp, he⟩ := service_shape .nmi s
    rw [h, he]
    exact ⟨hb.instructionCount, hb.phase, hb.inStep, hb.params, hb.wf, hp, hb.admitted, .inr (by simp [hb.tickCount])⟩
  · obtain ⟨u, hb, hp, he⟩ := service_shape .irq s
    rw [h, he]
    exact ⟨hb.instructionCount, hb.phase, hb.inStep, hb.params, hb.wf, hp, hb.admitted, .inr (by simp [hb.tickCount])⟩

/-! ### The step -/

/-- EVERYTHING A STEP CAN DO when it answers a next state (R120): fetch an instruction, execute it, fire the instruction
hooks, pass the check point, with no refused call left. -/
theorem step_next {s t : State} (h : step s = .next t) :
    s.phase = .running ∧ s.inStep = false ∧
      ∃ i f u, fetchInstr (beginStep s) = (i, f) ∧ f.stop = none ∧ exec i f = .next u ∧
        (checkPoint (fireInstructionHooks u)).stop = none ∧
        t = { checkPoint (fireInstructionHooks u) with inStep := false } := by
  unfold step at h
  split at h
  · cases h
  · rename_i hph
    split at h
    · cases h
    · rename_i hin
      refine ⟨hph, by simpa using hin, (fetchInstr (beginStep s)).1, (fetchInstr (beginStep s)).2, ?_⟩
      unfold runStep executeAndFinish afterExecute endStep at h
      dsimp only at h
      split at h
      · cases h
      · rename_i hst
        split at h
        · rename_i u hu
          split at h
          · cases h
          · rename_i hs2
            cases h
            exact ⟨u, rfl, hst, hu, hs2, rfl⟩
        · cases h
        · cases h

/-- With no hook and no RNG binding, a fetch at a given PC reads the cell there. -/
theorem fetchByte_setPC_quiet {s : State} (h : Quiet s) (pc : Word) :
    fetchByte (setPC pc s) = (readCell s.bus.cells pc.toNat, setPC (pc + 1) s) := by
  rw [fetchByte_quiet (h.setPC pc)]
  rfl

end Sys2Proof.Machine
end

