-- ==== Sys2Proof/Tests/Slice0.lean ====
section
/-! SUPPORT. Tests whose expected results are the spec's own (opcode_table.json, the encodings of 41 to 47, the vectors of
95_test_vectors.md), and for every obligation with hypotheses a witness that meets them. -/

namespace Sys2Proof.Tests

open Sys2Proof Sys2Proof.Machine Sys2Proof.Config

/-! ### Helpers -/

/-- The reset state with the given registers, `bytes` at PC and up, and `mem` loaded. -/
def machine (bytes : List Byte) (mem : List (Nat × Byte)) (cpu : Cpu) : State :=
  { State.reset with
    cpu := cpu
    bus.cells := mem.foldl (fun m c => writeCell m c.1 c.2) (writeCells [] cpu.pc.toNat bytes) }

/-- One step from `machine bytes mem cpu` answers registers `cpu'`, `ticks` ticks, one instruction, and changes no cell but
those `stored`. -/
def runs (bytes : List Byte) (mem : List (Nat × Byte)) (cpu cpu' : Cpu) (ticks : Nat) (stored : List (Nat × Byte)) : Bool :=
  let s := machine bytes mem cpu
  match step s with
  | .next t => decide (t.cpu = cpu' ∧ t.tickCount = ticks ∧ t.instructionCount = 1 ∧
      t.bus.cells = stored.foldl (fun m c => writeCell m c.1 c.2) s.bus.cells)
  | _ => false

/-- What an outcome's next state gives under `f`. -/
def after {α : Type} (o : Host.Outcome State Fault Refusal) (f : State → α) : Option α :=
  match o with
  | .next t => some (f t)
  | _ => none

/-! ### The state after reset -/

/-- 10_state.md R38: the registers and flags after reset. -/
theorem test_reset_registers : State.reset.cpu = { a := 0, x := 0, y := 0, s := 0xFD, p := 0x24, pc := 0 } := rfl

/-- The cells are in canonical form after reset. -/
theorem test_reset_memory_wf : Memory.wf State.reset.bus.cells = true := by decide

/-- 95 X7, R130: a step before the first reset is refused. -/
theorem test_step_before_reset : after (step State.construct) (fun t => t) = none := by decide

/-! ### WellFormed: an ill-formed term for each check -/

theorem test_illFormed_lda : (Instr.lda (.mem (.zpY 0))).wellFormed = false := by decide
theorem test_illFormed_adc : (Instr.adc (.mem (.zpY 0))).wellFormed = false := by decide
theorem test_illFormed_sbc : (Instr.sbc (.mem (.zpY 0))).wellFormed = false := by decide
theorem test_illFormed_cmp : (Instr.cmp (.mem (.zpY 0))).wellFormed = false := by decide
theorem test_illFormed_and : (Instr.and (.mem (.zpY 0))).wellFormed = false := by decide
theorem test_illFormed_eor : (Instr.eor (.mem (.zpY 0))).wellFormed = false := by decide
theorem test_illFormed_ora : (Instr.ora (.mem (.zpY 0))).wellFormed = false := by decide
theorem test_illFormed_ldx : (Instr.ldx (.mem (.zpX 0))).wellFormed = false := by decide
theorem test_illFormed_ldy : (Instr.ldy (.mem (.absY 0))).wellFormed = false := by decide
theorem test_illFormed_sta : (Instr.sta (.zpY 0)).wellFormed = false := by decide
theorem test_illFormed_stx : (Instr.stx (.absY 0)).wellFormed = false := by decide
theorem test_illFormed_sty : (Instr.sty (.absX 0)).wellFormed = false := by decide
theorem test_illFormed_cpx : (Instr.cpx (.mem (.zpX 0))).wellFormed = false := by decide
theorem test_illFormed_cpy : (Instr.cpy (.mem (.absX 0))).wellFormed = false := by decide
theorem test_illFormed_bit : (Instr.bit (.zpX 0)).wellFormed = false := by decide
theorem test_illFormed_inc : (Instr.inc (.absY 0)).wellFormed = false := by decide
theorem test_illFormed_dec : (Instr.dec (.indX 0)).wellFormed = false := by decide
theorem test_illFormed_asl : (Instr.asl (.mem (.absY 0))).wellFormed = false := by decide
theorem test_illFormed_lsr : (Instr.lsr (.mem (.indY 0))).wellFormed = false := by decide
theorem test_illFormed_rol : (Instr.rol (.mem (.zpY 0))).wellFormed = false := by decide
theorem test_illFormed_ror : (Instr.ror (.mem (.indX 0))).wellFormed = false := by decide
theorem test_illFormed_illegal : (Instr.illegal 0xEA).wellFormed = false := by decide

/-- An ill-formed instruction has no bytes, and its meaning is refused. -/
theorem test_illFormed_refused : encode (.ldx (.mem (.zpX 0))) = [] ∧
    after (exec (.ldx (.mem (.zpX 0))) State.reset) (fun t => t) = none := by decide

/-! ### Decode: a word written out bit by bit from the spec's encoding of each constructor -/

/-- R140 to R145: the encodings, operand bytes low byte first. -/
theorem test_decode_loadStore :
    decode [0b10110001, 0b00110100] = .ok (.lda (.mem (.indY 0x34)), []) ∧
    decode [0b10110110, 0b00110100] = .ok (.ldx (.mem (.zpY 0x34)), []) ∧
    decode [0b10111100, 0b00110100, 0b10010010] = .ok (.ldy (.mem (.absX 0x9234)), []) ∧
    decode [0b10011001, 0b00110100, 0b10010010] = .ok (.sta (.absY 0x9234), []) ∧
    decode [0b10010110, 0b00110100] = .ok (.stx (.zpY 0x34), []) ∧
    decode [0b10010100, 0b00110100] = .ok (.sty (.zpX 0x34), []) := ⟨rfl, rfl, rfl, rfl, rfl, rfl⟩

/-- R150 to R159: the encodings, operand bytes low byte first. -/
theorem test_decode_transferStack :
    decode [0b10101010] = .ok (.tax, []) ∧
    decode [0b10101000] = .ok (.tay, []) ∧
    decode [0b10111010] = .ok (.tsx, []) ∧
    decode [0b10001010] = .ok (.txa, []) ∧
    decode [0b10011010] = .ok (.txs, []) ∧
    decode [0b10011000] = .ok (.tya, []) ∧
    decode [0b01001000] = .ok (.pha, []) ∧
    decode [0b00001000] = .ok (.php, []) ∧
    decode [0b01101000] = .ok (.pla, []) ∧
    decode [0b00101000] = .ok (.plp, []) := ⟨rfl, rfl, rfl, rfl, rfl, rfl, rfl, rfl, rfl, rfl⟩

/-- R162 to R168: the encodings, operand bytes low byte first. -/
theorem test_decode_arithmetic :
    decode [0b01111101, 0b00110100, 0b10010010] = .ok (.adc (.mem (.absX 0x9234)), []) ∧
    decode [0b11100001, 0b00110100] = .ok (.sbc (.mem (.indX 0x34)), []) ∧
    decode [0b11011001, 0b00110100, 0b10010010] = .ok (.cmp (.mem (.absY 0x9234)), []) ∧
    decode [0b11101100, 0b00110100, 0b10010010] = .ok (.cpx (.mem (.abs 0x9234)), []) ∧
    decode [0b11000100, 0b00110100] = .ok (.cpy (.mem (.zp 0x34)), []) := ⟨rfl, rfl, rfl, rfl, rfl⟩

/-- R170 to R173: the encodings, operand bytes low byte first. -/
theorem test_decode_logic :
    decode [0b00110101, 0b00110100] = .ok (.and (.mem (.zpX 0x34)), []) ∧
    decode [0b01000001, 0b00110100] = .ok (.eor (.mem (.indX 0x34)), []) ∧
    decode [0b00001101, 0b00110100, 0b10010010] = .ok (.ora (.mem (.abs 0x9234)), []) ∧
    decode [0b00101100, 0b00110100, 0b10010010] = .ok (.bit (.abs 0x9234), []) := ⟨rfl, rfl, rfl, rfl⟩

/-- R180 to R185: the encodings, operand bytes low byte first. -/
theorem test_decode_incDec :
    decode [0b11111110, 0b00110100, 0b10010010] = .ok (.inc (.absX 0x9234), []) ∧
    decode [0b11010110, 0b00110100] = .ok (.dec (.zpX 0x34), []) ∧
    decode [0b11101000] = .ok (.inx, []) ∧
    decode [0b11001000] = .ok (.iny, []) ∧
    decode [0b11001010] = .ok (.dex, []) ∧
    decode [0b10001000] = .ok (.dey, []) := ⟨rfl, rfl, rfl, rfl, rfl, rfl⟩

/-- R186 to R189: the encodings, operand bytes low byte first. -/
theorem test_decode_shift :
    decode [0b00001010] = .ok (.asl .acc, []) ∧
    decode [0b01010110, 0b00110100] = .ok (.lsr (.mem (.zpX 0x34)), []) ∧
    decode [0b00101110, 0b00110100, 0b10010010] = .ok (.rol (.mem (.abs 0x9234)), []) ∧
    decode [0b01111110, 0b00110100, 0b10010010] = .ok (.ror (.mem (.absX 0x9234)), []) := ⟨rfl, rfl, rfl, rfl⟩

/-- R191 to R198: the encodings, operand bytes low byte first. -/
theorem test_decode_branch :
    decode [0b00010000, 0b00110100] = .ok (.bpl 0x34, []) ∧
    decode [0b00110000, 0b00110100] = .ok (.bmi 0x34, []) ∧
    decode [0b01010000, 0b00110100] = .ok (.bvc 0x34, []) ∧
    decode [0b01110000, 0b00110100] = .ok (.bvs 0x34, []) ∧
    decode [0b10010000, 0b00110100] = .ok (.bcc 0x34, []) ∧
    decode [0b10110000, 0b00110100] = .ok (.bcs 0x34, []) ∧
    decode [0b11010000, 0b00110100] = .ok (.bne 0x34, []) ∧
    decode [0b11110000, 0b00110100] = .ok (.beq 0x34, []) := ⟨rfl, rfl, rfl, rfl, rfl, rfl, rfl, rfl⟩

/-- R199 to R201: the encodings, operand bytes low byte first. -/
theorem test_decode_jump :
    decode [0b01001100, 0b00110100, 0b10010010] = .ok (.jmp (.abs 0x9234), []) ∧
    decode [0b01101100, 0b00110100, 0b10010010] = .ok (.jmp (.ind 0x9234), []) ∧
    decode [0b00100000, 0b00110100, 0b10010010] = .ok (.jsr 0x9234, []) ∧
    decode [0b01100000] = .ok (.rts, []) := ⟨rfl, rfl, rfl, rfl⟩

/-- R210 to R219, R125: the encodings, operand bytes low byte first. -/
theorem test_decode_system :
    decode [0b00011000] = .ok (.clc, []) ∧
    decode [0b00111000] = .ok (.sec, []) ∧
    decode [0b01011000] = .ok (.cli, []) ∧
    decode [0b01111000] = .ok (.sei, []) ∧
    decode [0b10111000] = .ok (.clv, []) ∧
    decode [0b11011000] = .ok (.cld, []) ∧
    decode [0b11111000] = .ok (.sed, []) ∧
    decode [0b11101010] = .ok (.nop, []) ∧
    decode [0b00000000] = .ok (.brk, []) ∧
    decode [0b01000000] = .ok (.rti, []) ∧
    decode [0b00000010] = .ok (.illegal 0x02, []) ∧
    decode [0b11111111] = .ok (.illegal 0xFF, []) := ⟨rfl, rfl, rfl, rfl, rfl, rfl, rfl, rfl, rfl, rfl, rfl, rfl⟩

/-- R90: a byte sequence that ends inside an instruction is refused by name. -/
theorem test_decode_truncated : decode [0xAD, 0x34] = .error (.truncated 0xAD) ∧ decode [] = .error .noBytes := ⟨rfl, rfl⟩

/-! ### The opcode table, row by row -/

/-- The mnemonic of an instruction, as opcode_table.json spells it. -/
def mnemonic : Instr → String
  | .lda _ => "LDA"  | .ldx _ => "LDX"  | .ldy _ => "LDY"  | .sta _ => "STA"  | .stx _ => "STX"  | .sty _ => "STY"
  | .tax => "TAX"  | .tay => "TAY"  | .tsx => "TSX"  | .txa => "TXA"  | .txs => "TXS"  | .tya => "TYA"
  | .pha => "PHA"  | .php => "PHP"  | .pla => "PLA"  | .plp => "PLP"  | .adc _ => "ADC"  | .sbc _ => "SBC"
  | .cmp _ => "CMP"  | .cpx _ => "CPX"  | .cpy _ => "CPY"  | .and _ => "AND"  | .eor _ => "EOR"  | .ora _ => "ORA"
  | .bit _ => "BIT"  | .inc _ => "INC"  | .dec _ => "DEC"  | .inx => "INX"  | .iny => "INY"  | .dex => "DEX"
  | .dey => "DEY"  | .asl _ => "ASL"  | .lsr _ => "LSR"  | .rol _ => "ROL"  | .ror _ => "ROR"  | .bpl _ => "BPL"
  | .bmi _ => "BMI"  | .bvc _ => "BVC"  | .bvs _ => "BVS"  | .bcc _ => "BCC"  | .bcs _ => "BCS"  | .bne _ => "BNE"
  | .beq _ => "BEQ"  | .jmp _ => "JMP"  | .jsr _ => "JSR"  | .rts => "RTS"  | .clc => "CLC"  | .sec => "SEC"
  | .cli => "CLI"  | .sei => "SEI"  | .clv => "CLV"  | .cld => "CLD"  | .sed => "SED"  | .nop => "NOP"
  | .brk => "BRK"  | .rti => "RTI"  | .illegal _ => "ILLEGAL"

/-- One row of opcode_table.json: mnemonic, format, base ticks, page_cross_penalty. The opcode is the row's place. -/
structure Row where
  name   : String
  format : Format
  ticks  : Nat
  cross  : Bool

/-- Whether an instruction's page cross costs a tick under `nmos`, as the meaning charges it: asked of the instruction in a
state whose X and Y make every indexed sum cross. -/
def crossTick (i : Instr) : Bool :=
  let s := { machine [] [(0x40, 0xFF), (0x41, 0x02)] ⟨0, 1, 1, 0xFD, 0x24, 0x0400⟩ with params.penaltyPolicy := .nmos }
  after (exec i s) (fun t => t.tickCount) = some (baseTicks i + 1)

/-- The decoder, the tick table and the encoder agree with the rows from opcode `n` up. -/
def rowsAgree : Nat → List Row → Bool
  | _, [] => true
  | n, r :: rest =>
    (match decodeTableWord (8 * r.format.length) (n + 0x40 * 256) with
      | none => false
      | some i => mnemonic i == r.name && decide (i.format = r.format) && baseTicks i == r.ticks &&
          (encode i).head? == some (BitVec.ofNat 8 n) && i.wellFormed) && rowsAgree (n + 1) rest

/-- As `rowsAgree`, for the penalty column of the rows that are no branch: operands 0x40 and 0x02FF make the sums cross. -/
def crossAgree : Nat → List Row → Bool
  | _, [] => true
  | n, r :: rest =>
    (r.format == .relative || match decodeTableWord (8 * r.format.length)
        (n + (if r.format.length = 3 then 0x02FF else 0x40) * 256) with
      | none => false
      | some i => crossTick i == r.cross) && crossAgree (n + 1) rest

/-- Rows 0x00 to 0x0F of opcode_table.json. -/
def rows0 : List Row :=
  [⟨"BRK", .implied, 7, false⟩, ⟨"ORA", .indexedIndirect, 6, false⟩, ⟨"ILLEGAL", .implied, 2, false⟩, ⟨"ILLEGAL", .implied, 2, false⟩] ++
  [⟨"ILLEGAL", .implied, 2, false⟩, ⟨"ORA", .zeropage, 3, false⟩, ⟨"ASL", .zeropage, 5, false⟩, ⟨"ILLEGAL", .implied, 2, false⟩] ++
  [⟨"PHP", .implied, 3, false⟩, ⟨"ORA", .immediate, 2, false⟩, ⟨"ASL", .accumulator, 2, false⟩, ⟨"ILLEGAL", .implied, 2, false⟩] ++
  [⟨"ILLEGAL", .implied, 2, false⟩, ⟨"ORA", .absolute, 4, false⟩, ⟨"ASL", .absolute, 6, false⟩, ⟨"ILLEGAL", .implied, 2, false⟩]

/-- Rows 0x10 to 0x1F of opcode_table.json. -/
def rows1 : List Row :=
  [⟨"BPL", .relative, 2, false⟩, ⟨"ORA", .indirectIndexed, 5, true⟩, ⟨"ILLEGAL", .implied, 2, false⟩, ⟨"ILLEGAL", .implied, 2, false⟩] ++
  [⟨"ILLEGAL", .implied, 2, false⟩, ⟨"ORA", .zeropageX, 4, false⟩, ⟨"ASL", .zeropageX, 6, false⟩, ⟨"ILLEGAL", .implied, 2, false⟩] ++
  [⟨"CLC", .implied, 2, false⟩, ⟨"ORA", .absoluteY, 4, true⟩, ⟨"ILLEGAL", .implied, 2, false⟩, ⟨"ILLEGAL", .implied, 2, false⟩] ++
  [⟨"ILLEGAL", .implied, 2, false⟩, ⟨"ORA", .absoluteX, 4, true⟩, ⟨"ASL", .absoluteX, 7, false⟩, ⟨"ILLEGAL", .implied, 2, false⟩]

/-- Rows 0x20 to 0x2F of opcode_table.json. -/
def rows2 : List Row :=
  [⟨"JSR", .absolute, 6, false⟩, ⟨"AND", .indexedIndirect, 6, false⟩, ⟨"ILLEGAL", .implied, 2, false⟩, ⟨"ILLEGAL", .implied, 2, false⟩] ++
  [⟨"BIT", .zeropage, 3, false⟩, ⟨"AND", .zeropage, 3, false⟩, ⟨"ROL", .zeropage, 5, false⟩, ⟨"ILLEGAL", .implied, 2, false⟩] ++
  [⟨"PLP", .implied, 4, false⟩, ⟨"AND", .immediate, 2, false⟩, ⟨"ROL", .accumulator, 2, false⟩, ⟨"ILLEGAL", .implied, 2, false⟩] ++
  [⟨"BIT", .absolute, 4, false⟩, ⟨"AND", .absolute, 4, false⟩, ⟨"ROL", .absolute, 6, false⟩, ⟨"ILLEGAL", .implied, 2, false⟩]

/-- Rows 0x30 to 0x3F of opcode_table.json. -/
def rows3 : List Row :=
  [⟨"BMI", .relative, 2, false⟩, ⟨"AND", .indirectIndexed, 5, true⟩, ⟨"ILLEGAL", .implied, 2, false⟩, ⟨"ILLEGAL", .implied, 2, false⟩] ++
  [⟨"ILLEGAL", .implied, 2, false⟩, ⟨"AND", .zeropageX, 4, false⟩, ⟨"ROL", .zeropageX, 6, false⟩, ⟨"ILLEGAL", .implied, 2, false⟩] ++
  [⟨"SEC", .implied, 2, false⟩, ⟨"AND", .absoluteY, 4, true⟩, ⟨"ILLEGAL", .implied, 2, false⟩, ⟨"ILLEGAL", .implied, 2, false⟩] ++
  [⟨"ILLEGAL", .implied, 2, false⟩, ⟨"AND", .absoluteX, 4, true⟩, ⟨"ROL", .absoluteX, 7, false⟩, ⟨"ILLEGAL", .implied, 2, false⟩]

/-- Rows 0x40 to 0x4F of opcode_table.json. -/
def rows4 : List Row :=
  [⟨"RTI", .implied, 6, false⟩, ⟨"EOR", .indexedIndirect, 6, false⟩, ⟨"ILLEGAL", .implied, 2, false⟩, ⟨"ILLEGAL", .implied, 2, false⟩] ++
  [⟨"ILLEGAL", .implied, 2, false⟩, ⟨"EOR", .zeropage, 3, false⟩, ⟨"LSR", .zeropage, 5, false⟩, ⟨"ILLEGAL", .implied, 2, false⟩] ++
  [⟨"PHA", .implied, 3, false⟩, ⟨"EOR", .immediate, 2, false⟩, ⟨"LSR", .accumulator, 2, false⟩, ⟨"ILLEGAL", .implied, 2, false⟩] ++
  [⟨"JMP", .absolute, 3, false⟩, ⟨"EOR", .absolute, 4, false⟩, ⟨"LSR", .absolute, 6, false⟩, ⟨"ILLEGAL", .implied, 2, false⟩]

/-- Rows 0x50 to 0x5F of opcode_table.json. -/
def rows5 : List Row :=
  [⟨"BVC", .relative, 2, false⟩, ⟨"EOR", .indirectIndexed, 5, true⟩, ⟨"ILLEGAL", .implied, 2, false⟩, ⟨"ILLEGAL", .implied, 2, false⟩] ++
  [⟨"ILLEGAL", .implied, 2, false⟩, ⟨"EOR", .zeropageX, 4, false⟩, ⟨"LSR", .zeropageX, 6, false⟩, ⟨"ILLEGAL", .implied, 2, false⟩] ++
  [⟨"CLI", .implied, 2, false⟩, ⟨"EOR", .absoluteY, 4, true⟩, ⟨"ILLEGAL", .implied, 2, false⟩, ⟨"ILLEGAL", .implied, 2, false⟩] ++
  [⟨"ILLEGAL", .implied, 2, false⟩, ⟨"EOR", .absoluteX, 4, true⟩, ⟨"LSR", .absoluteX, 7, false⟩, ⟨"ILLEGAL", .implied, 2, false⟩]

/-- Rows 0x60 to 0x6F of opcode_table.json. -/
def rows6 : List Row :=
  [⟨"RTS", .implied, 6, false⟩, ⟨"ADC", .indexedIndirect, 6, false⟩, ⟨"ILLEGAL", .implied, 2, false⟩, ⟨"ILLEGAL", .implied, 2, false⟩] ++
  [⟨"ILLEGAL", .implied, 2, false⟩, ⟨"ADC", .zeropage, 3, false⟩, ⟨"ROR", .zeropage, 5, false⟩, ⟨"ILLEGAL", .implied, 2, false⟩] ++
  [⟨"PLA", .implied, 4, false⟩, ⟨"ADC", .immediate, 2, false⟩, ⟨"ROR", .accumulator, 2, false⟩, ⟨"ILLEGAL", .implied, 2, false⟩] ++
  [⟨"JMP", .indirect, 5, false⟩, ⟨"ADC", .absolute, 4, false⟩, ⟨"ROR", .absolute, 6, false⟩, ⟨"ILLEGAL", .implied, 2, false⟩]

/-- Rows 0x70 to 0x7F of opcode_table.json. -/
def rows7 : List Row :=
  [⟨"BVS", .relative, 2, false⟩, ⟨"ADC", .indirectIndexed, 5, true⟩, ⟨"ILLEGAL", .implied, 2, false⟩, ⟨"ILLEGAL", .implied, 2, false⟩] ++
  [⟨"ILLEGAL", .implied, 2, false⟩, ⟨"ADC", .zeropageX, 4, false⟩, ⟨"ROR", .zeropageX, 6, false⟩, ⟨"ILLEGAL", .implied, 2, false⟩] ++
  [⟨"SEI", .implied, 2, false⟩, ⟨"ADC", .absoluteY, 4, true⟩, ⟨"ILLEGAL", .implied, 2, false⟩, ⟨"ILLEGAL", .implied, 2, false⟩] ++
  [⟨"ILLEGAL", .implied, 2, false⟩, ⟨"ADC", .absoluteX, 4, true⟩, ⟨"ROR", .absoluteX, 7, false⟩, ⟨"ILLEGAL", .implied, 2, false⟩]

/-- Rows 0x80 to 0x8F of opcode_table.json. -/
def rows8 : List Row :=
  [⟨"ILLEGAL", .implied, 2, false⟩, ⟨"STA", .indexedIndirect, 6, false⟩, ⟨"ILLEGAL", .implied, 2, false⟩, ⟨"ILLEGAL", .implied, 2, false⟩] ++
  [⟨"STY", .zeropage, 3, false⟩, ⟨"STA", .zeropage, 3, false⟩, ⟨"STX", .zeropage, 3, false⟩, ⟨"ILLEGAL", .implied, 2, false⟩] ++
  [⟨"DEY", .implied, 2, false⟩, ⟨"ILLEGAL", .implied, 2, false⟩, ⟨"TXA", .implied, 2, false⟩, ⟨"ILLEGAL", .implied, 2, false⟩] ++
  [⟨"STY", .absolute, 4, false⟩, ⟨"STA", .absolute, 4, false⟩, ⟨"STX", .absolute, 4, false⟩, ⟨"ILLEGAL", .implied, 2, false⟩]

/-- Rows 0x90 to 0x9F of opcode_table.json. -/
def rows9 : List Row :=
  [⟨"BCC", .relative, 2, false⟩, ⟨"STA", .indirectIndexed, 6, false⟩, ⟨"ILLEGAL", .implied, 2, false⟩, ⟨"ILLEGAL", .implied, 2, false⟩] ++
  [⟨"STY", .zeropageX, 4, false⟩, ⟨"STA", .zeropageX, 4, false⟩, ⟨"STX", .zeropageY, 4, false⟩, ⟨"ILLEGAL", .implied, 2, false⟩] ++
  [⟨"TYA", .implied, 2, false⟩, ⟨"STA", .absoluteY, 5, false⟩, ⟨"TXS", .implied, 2, false⟩, ⟨"ILLEGAL", .implied, 2, false⟩] ++
  [⟨"ILLEGAL", .implied, 2, false⟩, ⟨"STA", .absoluteX, 5, false⟩, ⟨"ILLEGAL", .implied, 2, false⟩, ⟨"ILLEGAL", .implied, 2, false⟩]

/-- Rows 0xA0 to 0xAF of opcode_table.json. -/
def rowsA : List Row :=
  [⟨"LDY", .immediate, 2, false⟩, ⟨"LDA", .indexedIndirect, 6, false⟩, ⟨"LDX", .immediate, 2, false⟩, ⟨"ILLEGAL", .implied, 2, false⟩] ++
  [⟨"LDY", .zeropage, 3, false⟩, ⟨"LDA", .zeropage, 3, false⟩, ⟨"LDX", .zeropage, 3, false⟩, ⟨"ILLEGAL", .implied, 2, false⟩] ++
  [⟨"TAY", .implied, 2, false⟩, ⟨"LDA", .immediate, 2, false⟩, ⟨"TAX", .implied, 2, false⟩, ⟨"ILLEGAL", .implied, 2, false⟩] ++
  [⟨"LDY", .absolute, 4, false⟩, ⟨"LDA", .absolute, 4, false⟩, ⟨"LDX", .absolute, 4, false⟩, ⟨"ILLEGAL", .implied, 2, false⟩]

/-- Rows 0xB0 to 0xBF of opcode_table.json. -/
def rowsB : List Row :=
  [⟨"BCS", .relative, 2, false⟩, ⟨"LDA", .indirectIndexed, 5, true⟩, ⟨"ILLEGAL", .implied, 2, false⟩, ⟨"ILLEGAL", .implied, 2, false⟩] ++
  [⟨"LDY", .zeropageX, 4, false⟩, ⟨"LDA", .zeropageX, 4, false⟩, ⟨"LDX", .zeropageY, 4, false⟩, ⟨"ILLEGAL", .implied, 2, false⟩] ++
  [⟨"CLV", .implied, 2, false⟩, ⟨"LDA", .absoluteY, 4, true⟩, ⟨"TSX", .implied, 2, false⟩, ⟨"ILLEGAL", .implied, 2, false⟩] ++
  [⟨"LDY", .absoluteX, 4, true⟩, ⟨"LDA", .absoluteX, 4, true⟩, ⟨"LDX", .absoluteY, 4, true⟩, ⟨"ILLEGAL", .implied, 2, false⟩]

/-- Rows 0xC0 to 0xCF of opcode_table.json. -/
def rowsC : List Row :=
  [⟨"CPY", .immediate, 2, false⟩, ⟨"CMP", .indexedIndirect, 6, false⟩, ⟨"ILLEGAL", .implied, 2, false⟩, ⟨"ILLEGAL", .implied, 2, false⟩] ++
  [⟨"CPY", .zeropage, 3, false⟩, ⟨"CMP", .zeropage, 3, false⟩, ⟨"DEC", .zeropage, 5, false⟩, ⟨"ILLEGAL", .implied, 2, false⟩] ++
  [⟨"INY", .implied, 2, false⟩, ⟨"CMP", .immediate, 2, false⟩, ⟨"DEX", .implied, 2, false⟩, ⟨"ILLEGAL", .implied, 2, false⟩] ++
  [⟨"CPY", .absolute, 4, false⟩, ⟨"CMP", .absolute, 4, false⟩, ⟨"DEC", .absolute, 6, false⟩, ⟨"ILLEGAL", .implied, 2, false⟩]

/-- Rows 0xD0 to 0xDF of opcode_table.json. -/
def rowsD : List Row :=
  [⟨"BNE", .relative, 2, false⟩, ⟨"CMP", .indirectIndexed, 5, true⟩, ⟨"ILLEGAL", .implied, 2, false⟩, ⟨"ILLEGAL", .implied, 2, false⟩] ++
  [⟨"ILLEGAL", .implied, 2, false⟩, ⟨"CMP", .zeropageX, 4, false⟩, ⟨"DEC", .zeropageX, 6, false⟩, ⟨"ILLEGAL", .implied, 2, false⟩] ++
  [⟨"CLD", .implied, 2, false⟩, ⟨"CMP", .absoluteY, 4, true⟩, ⟨"ILLEGAL", .implied, 2, false⟩, ⟨"ILLEGAL", .implied, 2, false⟩] ++
  [⟨"ILLEGAL", .implied, 2, false⟩, ⟨"CMP", .absoluteX, 4, true⟩, ⟨"DEC", .absoluteX, 7, false⟩, ⟨"ILLEGAL", .implied, 2, false⟩]

/-- Rows 0xE0 to 0xEF of opcode_table.json. -/
def rowsE : List Row :=
  [⟨"CPX", .immediate, 2, false⟩, ⟨"SBC", .indexedIndirect, 6, false⟩, ⟨"ILLEGAL", .implied, 2, false⟩, ⟨"ILLEGAL", .implied, 2, false⟩] ++
  [⟨"CPX", .zeropage, 3, false⟩, ⟨"SBC", .zeropage, 3, false⟩, ⟨"INC", .zeropage, 5, false⟩, ⟨"ILLEGAL", .implied, 2, false⟩] ++
  [⟨"INX", .implied, 2, false⟩, ⟨"SBC", .immediate, 2, false⟩, ⟨"NOP", .implied, 2, false⟩, ⟨"ILLEGAL", .implied, 2, false⟩] ++
  [⟨"CPX", .absolute, 4, false⟩, ⟨"SBC", .absolute, 4, false⟩, ⟨"INC", .absolute, 6, false⟩, ⟨"ILLEGAL", .implied, 2, false⟩]

/-- Rows 0xF0 to 0xFF of opcode_table.json. -/
def rowsF : List Row :=
  [⟨"BEQ", .relative, 2, false⟩, ⟨"SBC", .indirectIndexed, 5, true⟩, ⟨"ILLEGAL", .implied, 2, false⟩, ⟨"ILLEGAL", .implied, 2, false⟩] ++
  [⟨"ILLEGAL", .implied, 2, false⟩, ⟨"SBC", .zeropageX, 4, false⟩, ⟨"INC", .zeropageX, 6, false⟩, ⟨"ILLEGAL", .implied, 2, false⟩] ++
  [⟨"SED", .implied, 2, false⟩, ⟨"SBC", .absoluteY, 4, true⟩, ⟨"ILLEGAL", .implied, 2, false⟩, ⟨"ILLEGAL", .implied, 2, false⟩] ++
  [⟨"ILLEGAL", .implied, 2, false⟩, ⟨"SBC", .absoluteX, 4, true⟩, ⟨"INC", .absoluteX, 7, false⟩, ⟨"ILLEGAL", .implied, 2, false⟩]

theorem test_table_0x : (rowsAgree 0x00 rows0 && crossAgree 0x00 rows0) = true := by decide
theorem test_table_1x : (rowsAgree 0x10 rows1 && crossAgree 0x10 rows1) = true := by decide
theorem test_table_2x : (rowsAgree 0x20 rows2 && crossAgree 0x20 rows2) = true := by decide
theorem test_table_3x : (rowsAgree 0x30 rows3 && crossAgree 0x30 rows3) = true := by decide
theorem test_table_4x : (rowsAgree 0x40 rows4 && crossAgree 0x40 rows4) = true := by decide
theorem test_table_5x : (rowsAgree 0x50 rows5 && crossAgree 0x50 rows5) = true := by decide
theorem test_table_6x : (rowsAgree 0x60 rows6 && crossAgree 0x60 rows6) = true := by decide
theorem test_table_7x : (rowsAgree 0x70 rows7 && crossAgree 0x70 rows7) = true := by decide
theorem test_table_8x : (rowsAgree 0x80 rows8 && crossAgree 0x80 rows8) = true := by decide
theorem test_table_9x : (rowsAgree 0x90 rows9 && crossAgree 0x90 rows9) = true := by decide
theorem test_table_Ax : (rowsAgree 0xA0 rowsA && crossAgree 0xA0 rowsA) = true := by decide
theorem test_table_Bx : (rowsAgree 0xB0 rowsB && crossAgree 0xB0 rowsB) = true := by decide
theorem test_table_Cx : (rowsAgree 0xC0 rowsC && crossAgree 0xC0 rowsC) = true := by decide
theorem test_table_Dx : (rowsAgree 0xD0 rowsD && crossAgree 0xD0 rowsD) = true := by decide
theorem test_table_Ex : (rowsAgree 0xE0 rowsE && crossAgree 0xE0 rowsE) = true := by decide
theorem test_table_Fx : (rowsAgree 0xF0 rowsF && crossAgree 0xF0 rowsF) = true := by decide

/-! ### One step per vector of 95_test_vectors.md -/

/-- V7, R140. -/
theorem test_lda_v7 :
    runs [0xA1, 0x20] [(0x0024, 0x00), (0x0025, 0x03), (0x0300, 0x99)] ⟨0x00, 0x04, 0x00, 0xFD, 0x24, 0x0400⟩ ⟨0x99, 0x04, 0x00, 0xFD, 0xA4, 0x0402⟩ 6 [] = true := by decide

/-- V8, R140. -/
theorem test_lda_v8 :
    runs [0xB1, 0x40] [(0x0040, 0xF0), (0x0041, 0x02), (0x0310, 0x42)] ⟨0x00, 0x00, 0x20, 0xFD, 0x24, 0x0400⟩ ⟨0x42, 0x00, 0x20, 0xFD, 0x24, 0x0402⟩ 5 [] = true := by decide

/-- V9, R141. -/
theorem test_ldx_v9 :
    runs [0xB6, 0xFF] [(0x0001, 0xAB)] ⟨0x00, 0x00, 0x02, 0xFD, 0x24, 0x0400⟩ ⟨0x00, 0xAB, 0x02, 0xFD, 0xA4, 0x0402⟩ 4 [] = true := by decide

/-- V10, R142. -/
theorem test_ldy_v10 :
    runs [0xBC, 0xFF, 0x00] [(0x0100, 0x00)] ⟨0x00, 0x01, 0x00, 0xFD, 0x24, 0x0400⟩ ⟨0x00, 0x01, 0x00, 0xFD, 0x26, 0x0403⟩ 4 [] = true := by decide

/-- V12, R143. -/
theorem test_sta_v12 :
    runs [0x9D, 0xFF, 0x02] [] ⟨0x11, 0x01, 0x00, 0xFD, 0x24, 0x0400⟩ ⟨0x11, 0x01, 0x00, 0xFD, 0x24, 0x0403⟩ 5 [(0x0300, 0x11)] = true := by decide

/-- V13, R143. -/
theorem test_sta_v13 :
    runs [0x91, 0xFF] [(0x00FF, 0x00), (0x0000, 0x03)] ⟨0x22, 0x00, 0x01, 0xFD, 0x24, 0x0400⟩ ⟨0x22, 0x00, 0x01, 0xFD, 0x24, 0x0402⟩ 6 [(0x0301, 0x22)] = true := by decide

/-- V14, R144. -/
theorem test_stx_v14 :
    runs [0x96, 0xFF] [] ⟨0x00, 0x33, 0x02, 0xFD, 0x24, 0x0400⟩ ⟨0x00, 0x33, 0x02, 0xFD, 0x24, 0x0402⟩ 4 [(0x0001, 0x33)] = true := by decide

/-- V15, R145. -/
theorem test_sty_v15 :
    runs [0x8C, 0x00, 0x03] [] ⟨0x00, 0x00, 0x44, 0xFD, 0x24, 0x0400⟩ ⟨0x00, 0x00, 0x44, 0xFD, 0x24, 0x0403⟩ 4 [(0x0300, 0x44)] = true := by decide

/-- V16, R150. -/
theorem test_tax_v16 :
    runs [0xAA] [] ⟨0x80, 0x00, 0x00, 0xFD, 0x24, 0x0400⟩ ⟨0x80, 0x80, 0x00, 0xFD, 0xA4, 0x0401⟩ 2 [] = true := by decide

/-- V17, R151. -/
theorem test_tay_v17 :
    runs [0xA8] [] ⟨0x00, 0x00, 0x00, 0xFD, 0x24, 0x0400⟩ ⟨0x00, 0x00, 0x00, 0xFD, 0x26, 0x0401⟩ 2 [] = true := by decide

/-- V18, R152. -/
theorem test_tsx_v18 :
    runs [0xBA] [] ⟨0x00, 0x00, 0x00, 0x00, 0x24, 0x0400⟩ ⟨0x00, 0x00, 0x00, 0x00, 0x26, 0x0401⟩ 2 [] = true := by decide

/-- V19, R153. -/
theorem test_txa_v19 :
    runs [0x8A] [] ⟨0x00, 0x7F, 0x00, 0xFD, 0x24, 0x0400⟩ ⟨0x7F, 0x7F, 0x00, 0xFD, 0x24, 0x0401⟩ 2 [] = true := by decide

/-- V20, R154. -/
theorem test_txs_v20 :
    runs [0x9A] [] ⟨0x00, 0x00, 0x00, 0xFD, 0xA4, 0x0400⟩ ⟨0x00, 0x00, 0x00, 0x00, 0xA4, 0x0401⟩ 2 [] = true := by decide

/-- V21, R155. -/
theorem test_tya_v21 :
    runs [0x98] [] ⟨0x00, 0x00, 0xFF, 0xFD, 0x24, 0x0400⟩ ⟨0xFF, 0x00, 0xFF, 0xFD, 0xA4, 0x0401⟩ 2 [] = true := by decide

/-- V22, R156. -/
theorem test_pha_v22 :
    runs [0x48] [] ⟨0x82, 0x00, 0x00, 0x00, 0x24, 0x0400⟩ ⟨0x82, 0x00, 0x00, 0xFF, 0x24, 0x0401⟩ 3 [(0x0100, 0x82)] = true := by decide

/-- V23, R157. -/
theorem test_php_v23 :
    runs [0x08] [] ⟨0x00, 0x00, 0x00, 0xFD, 0xE7, 0x0400⟩ ⟨0x00, 0x00, 0x00, 0xFC, 0xE7, 0x0401⟩ 3 [(0x01FD, 0xF7)] = true := by decide

/-- V24, R158. -/
theorem test_pla_v24 :
    runs [0x68] [(0x0100, 0x00)] ⟨0x00, 0x00, 0x00, 0xFF, 0x24, 0x0400⟩ ⟨0x00, 0x00, 0x00, 0x00, 0x26, 0x0401⟩ 4 [] = true := by decide

/-- V25, R159. -/
theorem test_plp_v25 :
    runs [0x28] [(0x01FD, 0xFF)] ⟨0x00, 0x00, 0x00, 0xFC, 0x24, 0x0400⟩ ⟨0x00, 0x00, 0x00, 0xFD, 0xEF, 0x0401⟩ 4 [] = true := by decide

/-- V28, R162. -/
theorem test_adc_v28 :
    runs [0x69, 0xFF] [] ⟨0x80, 0x00, 0x00, 0xFD, 0x24, 0x0400⟩ ⟨0x7F, 0x00, 0x00, 0xFD, 0x65, 0x0402⟩ 2 [] = true := by decide

/-- V31, R162. -/
theorem test_adc_v31 :
    runs [0x69, 0x01] [] ⟨0x99, 0x00, 0x00, 0xFD, 0x2C, 0x0400⟩ ⟨0x00, 0x00, 0x00, 0xFD, 0xAD, 0x0402⟩ 2 [] = true := by decide

/-- V35, R164. -/
theorem test_sbc_v35 :
    runs [0xE9, 0xB0] [] ⟨0x50, 0x00, 0x00, 0xFD, 0x25, 0x0400⟩ ⟨0xA0, 0x00, 0x00, 0xFD, 0xE4, 0x0402⟩ 2 [] = true := by decide

/-- V41, R164. -/
theorem test_sbc_v41 :
    runs [0xE9, 0x01] [] ⟨0x00, 0x00, 0x00, 0xFD, 0x2D, 0x0400⟩ ⟨0x99, 0x00, 0x00, 0xFD, 0xAC, 0x0402⟩ 2 [] = true := by decide

/-- V43, R166. -/
theorem test_cmp_v43 :
    runs [0xC9, 0x01] [] ⟨0x00, 0x00, 0x00, 0xFD, 0x24, 0x0400⟩ ⟨0x00, 0x00, 0x00, 0xFD, 0xA4, 0x0402⟩ 2 [] = true := by decide

/-- V44, R166. -/
theorem test_cmp_v44 :
    runs [0xC9, 0x00] [] ⟨0x80, 0x00, 0x00, 0xFD, 0x24, 0x0400⟩ ⟨0x80, 0x00, 0x00, 0xFD, 0xA5, 0x0402⟩ 2 [] = true := by decide

/-- V45, R167. -/
theorem test_cpx_v45 :
    runs [0xE0, 0x05] [] ⟨0x00, 0x05, 0x00, 0xFD, 0x24, 0x0400⟩ ⟨0x00, 0x05, 0x00, 0xFD, 0x27, 0x0402⟩ 2 [] = true := by decide

/-- V46, R168. -/
theorem test_cpy_v46 :
    runs [0xC0, 0x01] [] ⟨0x00, 0x00, 0x00, 0xFD, 0x25, 0x0400⟩ ⟨0x00, 0x00, 0x00, 0xFD, 0xA4, 0x0402⟩ 2 [] = true := by decide

/-- V47, R170. -/
theorem test_and_v47 :
    runs [0x29, 0x3C] [] ⟨0xF0, 0x00, 0x00, 0xFD, 0x24, 0x0400⟩ ⟨0x30, 0x00, 0x00, 0xFD, 0x24, 0x0402⟩ 2 [] = true := by decide

/-- V48, R170. -/
theorem test_and_v48 :
    runs [0x29, 0x0F] [] ⟨0xF0, 0x00, 0x00, 0xFD, 0x24, 0x0400⟩ ⟨0x00, 0x00, 0x00, 0xFD, 0x26, 0x0402⟩ 2 [] = true := by decide

/-- V49, R171. -/
theorem test_eor_v49 :
    runs [0x49, 0xFF] [] ⟨0xFF, 0x00, 0x00, 0xFD, 0x24, 0x0400⟩ ⟨0x00, 0x00, 0x00, 0xFD, 0x26, 0x0402⟩ 2 [] = true := by decide

/-- V50, R172. -/
theorem test_ora_v50 :
    runs [0x09, 0x80] [] ⟨0x01, 0x00, 0x00, 0xFD, 0x24, 0x0400⟩ ⟨0x81, 0x00, 0x00, 0xFD, 0xA4, 0x0402⟩ 2 [] = true := by decide

/-- V51, R173. -/
theorem test_bit_v51 :
    runs [0x24, 0x10] [(0x0010, 0xC0)] ⟨0x01, 0x00, 0x00, 0xFD, 0x24, 0x0400⟩ ⟨0x01, 0x00, 0x00, 0xFD, 0xE6, 0x0402⟩ 3 [] = true := by decide

/-- V52, R173. -/
theorem test_bit_v52 :
    runs [0x2C, 0x00, 0x03] [(0x0300, 0x00)] ⟨0xFF, 0x00, 0x00, 0xFD, 0xE5, 0x0400⟩ ⟨0xFF, 0x00, 0x00, 0xFD, 0x27, 0x0403⟩ 4 [] = true := by decide

/-- V53, R180. -/
theorem test_inc_v53 :
    runs [0xE6, 0x10] [(0x0010, 0xFF)] ⟨0x00, 0x00, 0x00, 0xFD, 0x24, 0x0400⟩ ⟨0x00, 0x00, 0x00, 0xFD, 0x26, 0x0402⟩ 5 [(0x0010, 0x00)] = true := by decide

/-- V55, R180. -/
theorem test_inc_v55 :
    runs [0xFE, 0xFF, 0x02] [(0x0300, 0x7F)] ⟨0x00, 0x01, 0x00, 0xFD, 0x24, 0x0400⟩ ⟨0x00, 0x01, 0x00, 0xFD, 0xA4, 0x0403⟩ 7 [(0x0300, 0x80)] = true := by decide

/-- V54, R181. -/
theorem test_dec_v54 :
    runs [0xC6, 0x10] [(0x0010, 0x00)] ⟨0x00, 0x00, 0x00, 0xFD, 0x24, 0x0400⟩ ⟨0x00, 0x00, 0x00, 0xFD, 0xA4, 0x0402⟩ 5 [(0x0010, 0xFF)] = true := by decide

/-- V56, R182. -/
theorem test_inx_v56 :
    runs [0xE8] [] ⟨0x00, 0xFF, 0x00, 0xFD, 0x24, 0x0400⟩ ⟨0x00, 0x00, 0x00, 0xFD, 0x26, 0x0401⟩ 2 [] = true := by decide

/-- V57, R183. -/
theorem test_iny_v57 :
    runs [0xC8] [] ⟨0x00, 0x00, 0x7F, 0xFD, 0x24, 0x0400⟩ ⟨0x00, 0x00, 0x80, 0xFD, 0xA4, 0x0401⟩ 2 [] = true := by decide

/-- V58, R184. -/
theorem test_dex_v58 :
    runs [0xCA] [] ⟨0x00, 0x00, 0x00, 0xFD, 0x24, 0x0400⟩ ⟨0x00, 0xFF, 0x00, 0xFD, 0xA4, 0x0401⟩ 2 [] = true := by decide

/-- V59, R185. -/
theorem test_dey_v59 :
    runs [0x88] [] ⟨0x00, 0x00, 0x01, 0xFD, 0x24, 0x0400⟩ ⟨0x00, 0x00, 0x00, 0xFD, 0x26, 0x0401⟩ 2 [] = true := by decide

/-- V60, R186. -/
theorem test_asl_v60 :
    runs [0x0A] [] ⟨0x80, 0x00, 0x00, 0xFD, 0x24, 0x0400⟩ ⟨0x00, 0x00, 0x00, 0xFD, 0x27, 0x0401⟩ 2 [] = true := by decide

/-- V61, R186. -/
theorem test_asl_v61 :
    runs [0x06, 0x10] [(0x0010, 0x41)] ⟨0x00, 0x00, 0x00, 0xFD, 0x24, 0x0400⟩ ⟨0x00, 0x00, 0x00, 0xFD, 0xA4, 0x0402⟩ 5 [(0x0010, 0x82)] = true := by decide

/-- V62, R187. -/
theorem test_lsr_v62 :
    runs [0x4A] [] ⟨0x01, 0x00, 0x00, 0xFD, 0x24, 0x0400⟩ ⟨0x00, 0x00, 0x00, 0xFD, 0x27, 0x0401⟩ 2 [] = true := by decide

/-- V63, R188. -/
theorem test_rol_v63 :
    runs [0x2A] [] ⟨0x80, 0x00, 0x00, 0xFD, 0x24, 0x0400⟩ ⟨0x00, 0x00, 0x00, 0xFD, 0x27, 0x0401⟩ 2 [] = true := by decide

/-- V64, R188. -/
theorem test_rol_v64 :
    runs [0x2A] [] ⟨0x81, 0x00, 0x00, 0xFD, 0x25, 0x0400⟩ ⟨0x03, 0x00, 0x00, 0xFD, 0x25, 0x0401⟩ 2 [] = true := by decide

/-- V66, R189. -/
theorem test_ror_v66 :
    runs [0x6A] [] ⟨0x02, 0x00, 0x00, 0xFD, 0x25, 0x0400⟩ ⟨0x81, 0x00, 0x00, 0xFD, 0xA4, 0x0401⟩ 2 [] = true := by decide

/-- V67, R189. -/
theorem test_ror_v67 :
    runs [0x7E, 0xFF, 0x02] [(0x0300, 0x00)] ⟨0x00, 0x01, 0x00, 0xFD, 0x25, 0x0400⟩ ⟨0x00, 0x01, 0x00, 0xFD, 0xA4, 0x0403⟩ 7 [(0x0300, 0x80)] = true := by decide

/-- V68, R197. -/
theorem test_bne_v68 :
    runs [0xD0, 0xFE] [] ⟨0x00, 0x00, 0x00, 0xFD, 0x24, 0x0400⟩ ⟨0x00, 0x00, 0x00, 0xFD, 0x24, 0x0400⟩ 2 [] = true := by decide

/-- V69, R198. -/
theorem test_beq_v69 :
    runs [0xF0, 0xFE] [] ⟨0x00, 0x00, 0x00, 0xFD, 0x24, 0x0400⟩ ⟨0x00, 0x00, 0x00, 0xFD, 0x24, 0x0402⟩ 2 [] = true := by decide

/-- V70, R191. -/
theorem test_bpl_v70 :
    runs [0x10, 0x7F] [] ⟨0x00, 0x00, 0x00, 0xFD, 0x24, 0x0400⟩ ⟨0x00, 0x00, 0x00, 0xFD, 0x24, 0x0481⟩ 2 [] = true := by decide

/-- V71, R192. -/
theorem test_bmi_v71 :
    runs [0x30, 0x80] [] ⟨0x00, 0x00, 0x00, 0xFD, 0xA4, 0x0400⟩ ⟨0x00, 0x00, 0x00, 0xFD, 0xA4, 0x0382⟩ 2 [] = true := by decide

/-- V72, R193. -/
theorem test_bvc_v72 :
    runs [0x50, 0x00] [] ⟨0x00, 0x00, 0x00, 0xFD, 0x24, 0x0400⟩ ⟨0x00, 0x00, 0x00, 0xFD, 0x24, 0x0402⟩ 2 [] = true := by decide

/-- V73, R194. -/
theorem test_bvs_v73 :
    runs [0x70, 0x02] [] ⟨0x00, 0x00, 0x00, 0xFD, 0x64, 0x0400⟩ ⟨0x00, 0x00, 0x00, 0xFD, 0x64, 0x0404⟩ 2 [] = true := by decide

/-- V74, R195. -/
theorem test_bcc_v74 :
    runs [0x90, 0x02] [] ⟨0x00, 0x00, 0x00, 0xFD, 0x25, 0x0400⟩ ⟨0x00, 0x00, 0x00, 0xFD, 0x25, 0x0402⟩ 2 [] = true := by decide

/-- V75, R196. -/
theorem test_bcs_v75 :
    runs [0xB0, 0x02] [] ⟨0x00, 0x00, 0x00, 0xFD, 0x25, 0x0400⟩ ⟨0x00, 0x00, 0x00, 0xFD, 0x25, 0x0404⟩ 2 [] = true := by decide

/-- V76, R199. -/
theorem test_jmp_v76 :
    runs [0x4C, 0x34, 0x12] [] ⟨0x00, 0x00, 0x00, 0xFD, 0x24, 0x0400⟩ ⟨0x00, 0x00, 0x00, 0xFD, 0x24, 0x1234⟩ 3 [] = true := by decide

/-- V77, R199. -/
theorem test_jmp_v77 :
    runs [0x6C, 0xFF, 0x10] [(0x10FF, 0x34), (0x1000, 0x12), (0x1100, 0x56)] ⟨0x00, 0x00, 0x00, 0xFD, 0x24, 0x0400⟩ ⟨0x00, 0x00, 0x00, 0xFD, 0x24, 0x1234⟩ 5 [] = true := by decide

/-- V78, R200. -/
theorem test_jsr_v78 :
    runs [0x20, 0x34, 0x12] [] ⟨0x00, 0x00, 0x00, 0xFD, 0x24, 0x0400⟩ ⟨0x00, 0x00, 0x00, 0xFB, 0x24, 0x1234⟩ 6 [(0x01FC, 0x02), (0x01FD, 0x04)] = true := by decide

/-- V79, R201. -/
theorem test_rts_v79 :
    runs [0x60] [(0x01FC, 0xFF), (0x01FD, 0xFF)] ⟨0x00, 0x00, 0x00, 0xFB, 0x24, 0x0400⟩ ⟨0x00, 0x00, 0x00, 0xFD, 0x24, 0x0000⟩ 6 [] = true := by decide

/-- V80, R210. -/
theorem test_clc_v80 :
    runs [0x18] [] ⟨0x00, 0x00, 0x00, 0xFD, 0xEF, 0x0400⟩ ⟨0x00, 0x00, 0x00, 0xFD, 0xEE, 0x0401⟩ 2 [] = true := by decide

/-- V81, R211. -/
theorem test_sec_v81 :
    runs [0x38] [] ⟨0x00, 0x00, 0x00, 0xFD, 0x20, 0x0400⟩ ⟨0x00, 0x00, 0x00, 0xFD, 0x21, 0x0401⟩ 2 [] = true := by decide

/-- V82, R212. -/
theorem test_cli_v82 :
    runs [0x58] [] ⟨0x00, 0x00, 0x00, 0xFD, 0x24, 0x0400⟩ ⟨0x00, 0x00, 0x00, 0xFD, 0x20, 0x0401⟩ 2 [] = true := by decide

/-- V83, R213. -/
theorem test_sei_v83 :
    runs [0x78] [] ⟨0x00, 0x00, 0x00, 0xFD, 0x20, 0x0400⟩ ⟨0x00, 0x00, 0x00, 0xFD, 0x24, 0x0401⟩ 2 [] = true := by decide

/-- V84, R214. -/
theorem test_clv_v84 :
    runs [0xB8] [] ⟨0x00, 0x00, 0x00, 0xFD, 0x64, 0x0400⟩ ⟨0x00, 0x00, 0x00, 0xFD, 0x24, 0x0401⟩ 2 [] = true := by decide

/-- V85, R215. -/
theorem test_cld_v85 :
    runs [0xD8] [] ⟨0x00, 0x00, 0x00, 0xFD, 0x2C, 0x0400⟩ ⟨0x00, 0x00, 0x00, 0xFD, 0x24, 0x0401⟩ 2 [] = true := by decide

/-- V86, R216. -/
theorem test_sed_v86 :
    runs [0xF8] [] ⟨0x00, 0x00, 0x00, 0xFD, 0x24, 0x0400⟩ ⟨0x00, 0x00, 0x00, 0xFD, 0x2C, 0x0401⟩ 2 [] = true := by decide

/-- V87, R217. -/
theorem test_nop_v87 :
    runs [0xEA] [] ⟨0x00, 0x00, 0x00, 0xFD, 0xE7, 0x0400⟩ ⟨0x00, 0x00, 0x00, 0xFD, 0xE7, 0x0401⟩ 2 [] = true := by decide

/-- V88, R218. -/
theorem test_brk_v88 :
    runs [0x00] [(0xFFFE, 0x00), (0xFFFF, 0x90)] ⟨0x00, 0x00, 0x00, 0xFD, 0x2B, 0x0400⟩ ⟨0x00, 0x00, 0x00, 0xFA, 0x2F, 0x9000⟩ 7 [(0x01FB, 0x3B), (0x01FC, 0x02), (0x01FD, 0x04)] = true := by decide

/-- V89, R219. -/
theorem test_rti_v89 :
    runs [0x40] [(0x01FB, 0xFF), (0x01FC, 0x34), (0x01FD, 0x12)] ⟨0x00, 0x00, 0x00, 0xFA, 0x24, 0x0400⟩ ⟨0x00, 0x00, 0x00, 0xFD, 0xEF, 0x1234⟩ 6 [] = true := by decide

/-- V90, R125. -/
theorem test_illegal_v90 :
    runs [0x02] [] ⟨0x00, 0x00, 0x00, 0xFD, 0x24, 0x0400⟩ ⟨0x00, 0x00, 0x00, 0xFD, 0x24, 0x0401⟩ 2 [] = true := by decide

/-- V91, R125. -/
theorem test_illegal_v91 :
    runs [0xFF] [] ⟨0x00, 0x00, 0x00, 0xFD, 0xE7, 0x0400⟩ ⟨0x00, 0x00, 0x00, 0xFD, 0xE7, 0x0401⟩ 2 [] = true := by decide

/-! ### The addressing modes the vectors above leave out -/

/-- V4, R140. -/
theorem test_zeropageX_wraps :
    runs [0xB5, 0xF0] [(0x0010, 0x55)] ⟨0x00, 0x20, 0x00, 0xFD, 0x24, 0x0400⟩ ⟨0x55, 0x20, 0x00, 0xFD, 0x24, 0x0402⟩ 4 [] = true := by decide

/-- V5, R140. -/
theorem test_absoluteX_crosses :
    runs [0xBD, 0xFF, 0x02] [(0x0300, 0xC3)] ⟨0x00, 0x01, 0x00, 0xFD, 0x24, 0x0400⟩ ⟨0xC3, 0x01, 0x00, 0xFD, 0xA4, 0x0403⟩ 4 [] = true := by decide

/-- V6, R140. -/
theorem test_absoluteY :
    runs [0xB9, 0x00, 0x03] [(0x0310, 0x01)] ⟨0x00, 0x00, 0x10, 0xFD, 0x24, 0x0400⟩ ⟨0x01, 0x00, 0x10, 0xFD, 0x24, 0x0403⟩ 4 [] = true := by decide

/-! ### Ticks under `penaltyPolicy = nmos` -/

/-- The ticks of one step under `nmos`. -/
def nmosTicks (bytes : List Byte) (mem : List (Nat × Byte)) (cpu : Cpu) : Option Nat :=
  after (step { machine bytes mem cpu with params.penaltyPolicy := .nmos }) State.tickCount

/-- T1 to T4: a read-class page cross costs a tick, a store's none. -/
theorem test_nmos_crosses :
    nmosTicks [0xBD, 0xFF, 0x02] [(0x0300, 0xC3)] ⟨0x00, 0x01, 0x00, 0xFD, 0x24, 0x0400⟩ = some 5 ∧
    nmosTicks [0xB1, 0x40] [(0x0040, 0xF0), (0x0041, 0x02), (0x0310, 0x42)] ⟨0x00, 0x00, 0x20, 0xFD, 0x24, 0x0400⟩ = some 6 ∧
    nmosTicks [0xBE, 0xFF, 0x02] [] ⟨0x00, 0x00, 0x01, 0xFD, 0x24, 0x0400⟩ = some 5 ∧
    nmosTicks [0x9D, 0xFF, 0x02] [] ⟨0x11, 0x01, 0x00, 0xFD, 0x24, 0x0400⟩ = some 5 := by decide

/-- T5 to T8: a read-modify-write costs no extra tick; a taken branch one, and one more on a page cross. -/
theorem test_nmos_branches :
    nmosTicks [0xFE, 0xFF, 0x02] [(0x0300, 0x7F)] ⟨0x00, 0x01, 0x00, 0xFD, 0x24, 0x0400⟩ = some 7 ∧
    nmosTicks [0xD0, 0xFE] [] ⟨0x00, 0x00, 0x00, 0xFD, 0x24, 0x0400⟩ = some 3 ∧
    nmosTicks [0x30, 0x80] [] ⟨0x00, 0x00, 0x00, 0xFD, 0xA4, 0x0400⟩ = some 4 ∧
    nmosTicks [0xF0, 0xFE] [] ⟨0x00, 0x00, 0x00, 0xFD, 0x24, 0x0400⟩ = some 2 := by decide
/-! ### Interrupts, the step loop, hooks and the host interface (95 section 3) -/

/-- The vectors of X1 with a program at 0x8000 and RTI in both handlers: NMI 0xA000, reset 0x8000, IRQ 0x9000. -/
def withVectors (program : List Byte) : State :=
  machine program
    [(0x9000, 0x40), (0xA000, 0x40), (0xFFFA, 0x00), (0xFFFB, 0xA0), (0xFFFC, 0x00), (0xFFFD, 0x80), (0xFFFE, 0x00),
      (0xFFFF, 0x90)] ⟨0x00, 0x00, 0x00, 0xFD, 0x24, 0x8000⟩

/-- X1: CLI, then NMI wins over IRQ. -/
theorem test_x1_nmi_wins :
    after (step { withVectors [0x58, 0xEA] with pendingIRQ := true, pendingNMI := true })
      (fun t => (t.cpu, t.tickCount, t.pendingIRQ, t.pendingNMI)) =
      some (⟨0x00, 0x00, 0x00, 0xFA, 0x24, 0xA000⟩, 9, true, false) ∧
    after (step { withVectors [0x58, 0xEA] with pendingIRQ := true, pendingNMI := true })
      (fun t => readCells t.bus.cells 0x01FB 3) = some [0x20, 0x01, 0x80] := by decide

/-- X2: RTI clears I, and the same step's check point takes the IRQ. -/
theorem test_x2_rti_unmasks :
    after (step { withVectors [0x58, 0xEA] with
        cpu := ⟨0x00, 0x00, 0x00, 0xFA, 0x24, 0xA000⟩, pendingIRQ := true
        bus.cells := writeCells (withVectors [0x58, 0xEA]).bus.cells 0x01FB [0x20, 0x01, 0x80] })
      (fun t => (t.cpu, t.tickCount, t.pendingIRQ)) =
      some (⟨0x00, 0x00, 0x00, 0xFA, 0x24, 0x9000⟩, 13, false) := by decide

/-- E5: with I set the IRQ stays pending and nothing is pushed. -/
theorem test_e5_irq_masked :
    after (step { withVectors [0x78, 0xEA] with pendingIRQ := true })
      (fun t => (t.cpu, t.pendingIRQ, t.tickCount)) =
      some (⟨0x00, 0x00, 0x00, 0xFD, 0x24, 0x8001⟩, true, 2) := by decide

/-- X4, X5, X6: `exec` of 0 ticks runs nothing; of 3 ticks, two NOPs, an overshoot of 1. -/
theorem test_exec_overshoots :
    (execTo 0 (withVectors [0xEA, 0xEA])).map (fun o => after o State.tickCount) = some (some 0) ∧
    (execTo 3 (withVectors [0xEA, 0xEA])).map (fun o => after o State.tickCount) = some (some 4) := by decide

/-- X8: `stepTimes(0)` and `exec(0)` before the first reset do nothing. -/
theorem test_x8_nothing_before_reset :
    after (stepTimes 0 State.construct) State.instructionCount = some 0 ∧
    (execTo 0 State.construct).map (fun o => after o State.instructionCount) = some (some 0) := by decide

/-- What a host call answers, apart from the state it leaves. -/
def errorOf {α : Type} : Except HostError α → Option HostError
  | .ok _ => none
  | .error e => some e

/-- X9 to X12, E2: the ranges of `load` and `read`, and the reduction of bytes. -/
theorem test_load_and_read_ranges :
    errorOf (load [] 0x10000 State.reset) = none ∧ errorOf (load [1] 0xFFFF State.reset) = none ∧
    errorOf (load [1, 2] 0xFFFF State.reset) = some .outOfRange ∧
    errorOf (bulkRead 0x10000 0 State.reset) = some .outOfRange ∧
    errorOf (bulkRead (-1) 1 State.reset) = some .outOfRange ∧ errorOf (bulkRead 0xFFFF 0 State.reset) = none ∧
    (match load [0x1FF, -1] 0x10 State.reset with
      | .ok t => readCells t.bus.cells 0x10 2
      | .error _ => []) = [0xFF, 0xFF] := by decide

/-- X13 to X15: the kind and the address of a hook call, and a deregistration of nothing. -/
theorem test_hook_calls :
    errorOf (registerReadWriteHook 0x10 (.other 0) 1 State.reset) = some .invalidArgument ∧
    errorOf (registerReadWriteHook 0x10000 (.other 0) 1 State.reset) = some .outOfRange ∧
    errorOf (deregisterReadWriteHook 0x10 .read State.reset) = none := by decide

/-- X16: an illegal byte under `illegalPolicy = fault`. -/
theorem test_x16_illegal_faults :
    (match step { withVectors [0x02] with params.illegalPolicy := .fault } with
      | .fault r => some r
      | _ => none) = some (.illegalOpcode 0x8000 0x02) := by decide

/-- X17: a step called from a read hook on the opcode is refused. -/
theorem test_x17_reentrant_step :
    (match step { withVectors [0xEA] with bus.readHooks := [(0x8000, 1)], script := [[.call .step]] } with
      | .refused r => some r
      | _ => none) = some .reentrantStep := by decide

/-- X18: a request made during the opcode fetch is serviced at the same step's check point. -/
theorem test_x18_request_in_fetch :
    after (step { withVectors [0x58] with bus.readHooks := [(0x8000, 1)], script := [[.call .interruptRequest]] })
      (fun t => (t.cpu.pc, t.tickCount, t.pendingIRQ)) = some (0x9000, 9, false) := by decide

/-- X19: an instruction hook that requests an IRQ while I is set: it stays pending, and the hook fires once. -/
theorem test_x19_instruction_hook :
    after (step { withVectors [0xEA] with bus.instructionHooks := [7], script := [[.call .interruptRequest]] })
      (fun t => (t.cpu.pc, t.pendingIRQ, t.hookLog.length)) = some (0x8001, true, 1) := by decide

/-- R68, R77: a read hook on a pointer's first byte that loads the second: the read sees the new byte. -/
theorem test_hook_between_pointer_bytes :
    after (step { withVectors [0x6C, 0x10, 0x00] with
        bus.readHooks := [(0x0010, 1)], script := [[.call (.load [0x12] 0x0011)]] })
      (fun t => t.cpu.pc) = some 0x1200 := by decide

/-- E7: INC at a hooked address fires one read and one write; STA only a write. -/
theorem test_e7_hook_kinds :
    after (step { withVectors [0xE6, 0x10] with bus.readHooks := [(0x10, 1)], bus.writeHooks := [(0x10, 1)] })
      (fun t => t.hookLog.map HookEvent.kind) = some [.read, .write] ∧
    after (step { withVectors [0x8D, 0x10, 0x00] with bus.readHooks := [(0x10, 1)], bus.writeHooks := [(0x10, 1)] })
      (fun t => t.hookLog.map HookEvent.kind) = some [.write] := by decide

/-- E8: LDA at the bound address takes the draw, whatever it is, and uses one. -/
theorem test_e8_bound_address :
    after (step { withVectors [0xA5, 0xFE] with bus.rngBinding := some 0x00FE })
      (fun t => (t.cpu.a, t.rngDraws)) = some (rngDraw 0, 1) := by rfl

/-- X20, X21: a reset after the first BRK at 0x0000 leaves the stack bytes and gives the reset registers again. -/
theorem test_x21_reset_again :
    (match step State.reset with
      | .next t => after (hostReset t) (fun u => (u.cpu, u.tickCount, readCells u.bus.cells 0x01FB 2))
      | _ => none) = some (⟨0x00, 0x00, 0x00, 0xFD, 0x24, 0x0000⟩, 0, [0x34, 0x02]) := by decide

/-- R135: the getters give the registers and counters. -/
theorem test_getters : getters State.reset =
    { programCounter := 0, stackPointer := 0xFD, accumulator := 0, indexX := 0, indexY := 0, statusFlags := 0x24,
      instructionCount := 0, tickCount := 0 } := rfl

/-- A placed table word is the first instruction after reset: LDA #nn with nn = 0, and JMP $nnnn with nnnn = 0xFFFF. -/
theorem test_withFetchWord :
    after (step (State.reset.withFetchWord 16 0x00A9)) (fun t => t.cpu.pc) = some 0x0002 ∧
    after (step (State.reset.withFetchWord 24 0xFFFF4C)) (fun t => t.cpu.pc) = some 0xFFFF := by decide

/-! ### Witnesses: states and operands that meet the hypotheses of each obligation -/

/-- A state with no hook and no RNG binding, at the corner S = 0x00, X = Y = 0xFF, C and I set. -/
def corner (p : Byte) : State := machine [] [] ⟨0x80, 0xFF, 0xFF, 0x00, p, 0xFFFF⟩

/-- A state with a read and a write hook at 0x0010 whose one choice stores nothing, and the RNG bound at 0x00FE. -/
def hooked : State :=
  { corner 0x25 with
    bus.readHooks := [(0x10, 1)], bus.writeHooks := [(0x10, 1)], bus.rngBinding := some 0x00FE
    script := [[.call .interruptRequest]] }

theorem corner_quiet (p : Byte) : Quiet (corner p) := ⟨rfl, rfl, rfl⟩

/-- Operand forms at the ends of their ranges. -/
theorem witness_DecodeOfEncodeIsTheInstruction :
    (Instr.illegal 0x02).wellFormed = true ∧ (Instr.illegal 0xFF).wellFormed = true ∧
    (Instr.lda (.imm 0xFF)).wellFormed = true ∧ (Instr.sta (.absX 0xFFFF)).wellFormed = true := by decide

theorem witness_EncodeOfDecodeIsTheBytes :
    decode [0x02, 0xEA] = .ok (.illegal 0x02, [0xEA]) ∧ decode [0xFE, 0xFF, 0xFF] = .ok (.inc (.absX 0xFFFF), []) :=
  ⟨rfl, rfl⟩

/-- Each clause at a value where the clauses meet: 0xFFFF with one byte and with two, -1, and 0x10000 with none. -/
theorem witness_LoadStoresItsBytes :
    (((-1 : Int) < 0) ∧ (65536 : Int) < 0xFFFF + ([1, 2] : List Int).length) ∧
    ((0 : Int) ≤ 0xFFFF ∧ (0xFFFF : Int) + ([1] : List Int).length ≤ 65536) ∧
    ((0 : Int) ≤ 0x10000 ∧ (0x10000 : Int) + ([] : List Int).length ≤ 65536) := by decide

theorem witness_BulkReadGivesTheCells :
    ((65536 : Int) ≤ 0x10000 ∧ (65536 : Int) < 0xFFFF + 2) ∧
    ((0 : Int) ≤ 0xFFFF ∧ (0xFFFF : Int) < 65536 ∧ (0 : Int) ≤ 1 ∧ (0xFFFF : Int) + 1 ≤ 65536) ∧
    ((0 : Int) ≤ 0 ∧ (0 : Int) < 65536 ∧ (0 : Int) ≤ 65536 ∧ (0 : Int) + 65536 ≤ 65536) := by decide

theorem witness_HookTablesFollowTheirCalls :
    ((65536 : Int) ≤ 0x10000 ∧ (-1 : Int) < 0) ∧
    (¬ ((0xFFFF : Int) < 0 ∨ (65536 : Int) ≤ 0xFFFF) ∧ ¬ (KindArg.other 0 = .read ∨ KindArg.other 0 = .readWrite) ∧
      ¬ (KindArg.other 0 = .write ∨ KindArg.other 0 = .readWrite)) ∧
    (¬ ((0xFFFF : Int) < 0 ∨ (65536 : Int) ≤ 0xFFFF) ∧ (KindArg.readWrite = .read ∨ KindArg.readWrite = .readWrite)) ∧
    (¬ ((0 : Int) < 0 ∨ (65536 : Int) ≤ 0) ∧ (KindArg.write = .write ∨ KindArg.write = .readWrite) ∧
      ¬ (KindArg.write = .read ∨ KindArg.write = .readWrite)) := by decide

theorem witness_BoundAddressReadsDraws : hooked.bus.rngBinding = some 0x00FE ∧ HostStoresNothing hooked :=
  ⟨rfl, .inr rfl⟩

theorem witness_ReadAfterWriteGivesTheByte :
    HostStoresNothing hooked ∧ (memWrite 0x0010 0xFF hooked).bus.rngBinding ≠ some 0x0010 := ⟨.inr rfl, by decide⟩

theorem witness_ModifyFiresOneReadAndOneWrite :
    ({ hooked with script := [] } : State).script = [] ∧
    lookupKey (0x0010 : Word).toNat hooked.bus.readHooks = some 1 ∧
    lookupKey (0x0010 : Word).toNat hooked.bus.writeHooks = some 1 := by decide

/-- An execute phase that answers, by an instruction that is not BRK, with a hook that fires. -/
theorem witness_CallbacksSeeRegistersOfBefore :
    (∃ t, exec (.inc (.zp 0x10)) hooked = .next t) ∧ Instr.inc (.zp 0x10) ≠ .brk := ⟨⟨_, rfl⟩, by decide⟩

/-- The premise under which the registers-only instructions count their base ticks, under `none` and under `nmos`. -/
theorem witness_RunsAs :
    (corner 0x25).params.tickOverrides = [] ∧
    (let s : State := { corner 0x25 with params.penaltyPolicy := .nmos }
     s.params.tickOverrides = [] ∧ s.params.penaltyPolicy = .nmos) := by decide

theorem witness_IndexedAddressesWrap : MemMode.absX 0xFFFF = .zp 0xFF ∨ MemMode.absX 0xFFFF = .absX 0xFFFF := by decide

theorem witness_IndirectAddressesUsePageZero : Quiet (corner 0x25) := corner_quiet _

theorem witness_ReadOperandsGiveTheCell : Quiet (corner 0x25) := corner_quiet _

theorem witness_LoadsPutTheOperandInTheRegister :
    (Instr.lda (.imm 0xFF)).wellFormed = true ∧ (Instr.lda (.mem (.indY 0xFF))).wellFormed = true ∧
    (Instr.ldx (.mem (.zpY 0xFF))).wellFormed = true ∧ (Instr.ldy (.mem (.absX 0xFFFF))).wellFormed = true := by decide

theorem witness_StoresPutTheRegisterInTheCell :
    ((Instr.sta (.indX 0xFF)).wellFormed = true ∧ (Instr.stx (.zpY 0xFF)).wellFormed = true ∧
      (Instr.sty (.abs 0xFFFF)).wellFormed = true) ∧ HostStoresNothing hooked := ⟨by decide, .inr rfl⟩

theorem witness_PushesStoreBelowTheStack : HostStoresNothing (corner 0x25) ∧ HostStoresNothing hooked :=
  ⟨.inl ⟨rfl, rfl⟩, .inr rfl⟩

theorem witness_PullsLoadFromTheStack : Quiet (corner 0x25) := corner_quiet _

theorem witness_ComparesSetTheFlags :
    (Instr.cmp (.mem (.indX 0xFF))).wellFormed = true ∧ (Instr.cpx (.imm 0xFF)).wellFormed = true ∧
    (Instr.cpy (.mem (.abs 0x0000))).wellFormed = true := by decide

theorem witness_LogicWritesBitByBit :
    (Instr.and (.imm 0x00)).wellFormed = true ∧ (Instr.eor (.mem (.zpX 0xFF))).wellFormed = true ∧
    (Instr.ora (.mem (.zp 0x00))).wellFormed = true ∧ (Instr.bit (.abs 0xFFFF)).wellFormed = true := by decide

theorem witness_IncAndDecWriteTheCell :
    ((Instr.inc (.absX 0xFFFF)).wellFormed = true ∧ (Instr.dec (.zpX 0xFF)).wellFormed = true) ∧
    HostStoresNothing hooked ∧ Quiet (corner 0x25) := ⟨by decide, .inr rfl, corner_quiet _⟩

theorem witness_MemoryShiftsWriteTheCell :
    ((Instr.asl (.mem (.absX 0xFFFF))).wellFormed = true ∧ (Instr.lsr (.mem (.zp 0xFF))).wellFormed = true ∧
      (Instr.rol (.mem (.abs 0x0000))).wellFormed = true ∧ (Instr.ror (.mem (.zpX 0xFF))).wellFormed = true) ∧
    HostStoresNothing hooked := ⟨by decide, .inr rfl⟩

theorem witness_JumpsReadTheirTarget : Quiet (corner 0x25) := corner_quiet _

theorem witness_JsrPushesItsLastAddress : HostStoresNothing (corner 0x25) ∧ HostStoresNothing hooked :=
  ⟨.inl ⟨rfl, rfl⟩, .inr rfl⟩

theorem witness_RtsReturnsPastThePulledAddress : Quiet (corner 0x25) := corner_quiet _

theorem witness_RtsUndoesJsr : Quiet (corner 0x25) := corner_quiet _

theorem witness_BrkEntersTheHandler : HostStoresNothing hooked ∧ Quiet (corner 0x25) := ⟨.inr rfl, corner_quiet _⟩

theorem witness_RtiRestoresStatusAndPc : Quiet (corner 0x25) := corner_quiet _

theorem witness_ServicePushesItsFrame : HostStoresNothing hooked ∧ Quiet (corner 0x25) := ⟨.inr rfl, corner_quiet _⟩

/-- Each clause: an NMI, an IRQ let in by the CLI of the same step, and an IRQ that the SEI of the same step keeps out. -/
theorem witness_CheckPointServesOneRequest :
    let at0 := fun (s : State) (i : Instr) => Quiet s ∧ s.bus.instructionHooks = [] ∧ s.phase = .running ∧
      s.inStep = false ∧
      (∃ rest, decode [cellAt s s.cpu.pc, cellAt s (s.cpu.pc + 1), cellAt s (s.cpu.pc + 2)] = .ok (i, rest)) ∧
      i.length = 1
    let run := fun (s : State) (i : Instr) =>
      exec i { s with inStep := true, stop := none, cpu.pc := s.cpu.pc + BitVec.ofNat 16 1 }
    let nmi : State := { withVectors [0xEA] with pendingNMI := true }
    let irq : State := { withVectors [0x58] with pendingIRQ := true }
    let masked : State := { withVectors [0x78] with pendingIRQ := true }
    (at0 nmi .nop ∧ ∃ u, run nmi .nop = .next u) ∧
    (at0 irq .cli ∧ irq.pendingNMI = false ∧ irq.pendingIRQ = true ∧
      ∃ u, run irq .cli = .next u ∧ flagOf .i u.cpu.p = false) ∧
    (at0 masked .sei ∧ masked.pendingNMI = false ∧ ∃ u, run masked .sei = .next u ∧ flagOf .i u.cpu.p = true) :=
  ⟨⟨⟨⟨rfl, rfl, rfl⟩, rfl, rfl, rfl, ⟨_, rfl⟩, rfl⟩, ⟨_, rfl⟩⟩,
   ⟨⟨⟨rfl, rfl, rfl⟩, rfl, rfl, rfl, ⟨_, rfl⟩, rfl⟩, rfl, rfl, ⟨_, rfl, rfl⟩⟩,
   ⟨⟨⟨rfl, rfl, rfl⟩, rfl, rfl, rfl, ⟨_, rfl⟩, rfl⟩, rfl, ⟨_, rfl, rfl⟩⟩⟩

theorem witness_DecimalArithmeticIsBcd : isBcd 0x99 = true ∧ isBcd 0x00 = true := by decide

/-- D clear and D set. -/
theorem witness_AdcAndSbcWriteTheResult :
    flagOf .d (corner 0x25).cpu.p = false ∧ flagOf .d (corner 0x2D).cpu.p = true := by decide

theorem witness_NopAndIllegalBytes :
    ((corner 0x25).params.illegalPolicy = .nop ∧ (Instr.illegal 0x02).wellFormed = true) ∧
    (let s : State := { withVectors [0x02] with params.illegalPolicy := .fault, cpu.pc := 0x0000 }
     s.params.illegalPolicy = .fault ∧ s.cpu.pc = 0xFFFF + 1) := by decide

/-- Execute phases that answer, by instructions that write none of A, X, Y, S, PC between them, and no flag. -/
theorem witness_OnlyListedInstructionsWriteARegister :
    (∃ t, exec .nop (corner 0x25) = .next t) ∧ writesA .nop = false ∧ writesX .nop = false ∧ writesY .nop = false ∧
    writesS .nop = false ∧ writesPC .nop = false := ⟨⟨_, rfl⟩, by decide⟩

theorem witness_OnlyListedFlagsChange :
    (∃ t, exec (.adc (.imm 0xFF)) (corner 0x25) = .next t) ∧ Flag.i ∉ flagsWritten (.adc (.imm 0xFF)) ∧
    statusFixed (corner 0x25).cpu.p = true ∧ (∃ t, exec .txs (corner 0x25) = .next t) ∧ flagsWritten .txs = [] :=
  ⟨⟨_, rfl⟩, by decide, by decide, ⟨_, rfl⟩, rfl⟩

theorem witness_OnlyStoredCellsChange :
    (∃ t, exec .brk (corner 0x25) = .next t) ∧ HostStoresNothing (corner 0x25) ∧
    (∃ t, exec (.sta (.zp 0x10)) hooked = .next t) ∧ HostStoresNothing hooked :=
  ⟨⟨_, rfl⟩, .inl ⟨rfl, rfl⟩, ⟨_, rfl⟩, .inr rfl⟩

theorem witness_ExecuteLeavesTheRestAlone : (∃ t, exec .rti (corner 0x25) = .next t) ∧ Quiet (corner 0x25) :=
  ⟨⟨_, rfl⟩, corner_quiet _⟩

/-- Under `none` and under `nmos`. -/
theorem witness_ExecuteCountsItsTicks :
    (∃ t, exec (.lda (.mem (.absX 0xFFFF))) (corner 0x25) = .next t) ∧
    (Instr.lda (.mem (.absX 0xFFFF))).format ≠ .relative ∧ (corner 0x25).params.penaltyPolicy = .none ∧
    (let s : State := { corner 0x25 with params.penaltyPolicy := .nmos }
     (∃ t, exec (.lda (.mem (.absX 0xFFFF))) s = .next t) ∧ s.params.penaltyPolicy = .nmos) :=
  ⟨⟨_, rfl⟩, by decide, rfl, ⟨_, rfl⟩, rfl⟩

/-- A three-byte instruction across the top of memory, with a hook and an RNG binding elsewhere. -/
theorem witness_StepRunsTheDecodedInstruction :
    let s : State := { hooked with bus.cells := [(0x0000, 0x34), (0x0001, 0x12), (0xFFFF, 0x4C)] }
    s.phase = .running ∧ s.inStep = false ∧
    decode [cellAt s s.cpu.pc, cellAt s (s.cpu.pc + 1), cellAt s (s.cpu.pc + 2)] = .ok (.jmp (.abs 0x1234), []) ∧
    (∀ k, k < (Instr.jmp (.abs 0x1234)).length →
      lookupKey (s.cpu.pc + BitVec.ofNat 16 k).toNat s.bus.readHooks = none ∧
      s.bus.rngBinding ≠ some (s.cpu.pc + BitVec.ofNat 16 k)) := by
  refine ⟨rfl, rfl, rfl, ?_⟩
  decide

theorem witness_StepsAreRefusedOutOfPlace :
    (State.construct.phase = .uninitialized ∧ State.construct.inStep = false ∧ State.construct.tickCount < 1 ∧
      0 ≤ State.construct.tickCount) ∧
    (({ corner 0x25 with inStep := true } : State).phase = .running ∧
      ({ corner 0x25 with inStep := true } : State).inStep = true ∧
      ({ corner 0x25 with inStep := true } : State).stop = none) := by decide

/-- R65 and log 27: a read hook on the vector calls step during the first reset, which is refused for the re-entrant call. -/
theorem test_first_reset_reentrant :
    hostReset { State.construct with bus.readHooks := [(0xFFFC, 1)], script := [[.call .step]] } =
      .refused .reentrantStep := rfl

theorem witness_TheEngineAlwaysStepsOn :
    hooked.phase = .running ∧ hooked.inStep = false ∧ hooked.params.illegalPolicy = .nop ∧
    scriptAdmitted hooked = true := by decide

theorem witness_EachStepCountsOneInstruction :
    (∃ t, step (corner 0x25) = .next t) ∧ (corner 0x25).params = {} := ⟨⟨_, rfl⟩, rfl⟩

theorem witness_StepTimesRunsItsSteps :
    (corner 0x25).inStep = false ∧ (∃ t, stepTimes 0 (corner 0x25) = .next t) ∧
    (∃ t, stepTimes 1 (corner 0x25) = .next t) := ⟨rfl, ⟨_, rfl⟩, ⟨_, rfl⟩⟩

/-- A target already reached, and one a tick away that the run reaches. -/
theorem witness_ExecReachesItsTarget :
    (corner 0x25).params = {} ∧ (corner 0x25).inStep = false ∧ 0 ≤ (corner 0x25).tickCount ∧
    (corner 0x25).tickCount < 1 ∧ (∃ t, execTo 1 (corner 0x25) = some (.next t)) :=
  ⟨rfl, rfl, Nat.zero_le _, by decide, ⟨_, rfl⟩⟩

/-- Two states that agree but for timing, and differ. -/
theorem witness_TimingDecidesNothingElse :
    let s : State := hooked
    let s' : State := { hooked with tickCount := 5, params.penaltyPolicy := .nmos, params.interruptTicks := 9 }
    withoutTiming s = withoutTiming s' ∧ s.tickCount ≠ s'.tickCount := ⟨rfl, by decide⟩

theorem witness_EveryStepKeepsTheInvariant : Inv (withVectors [0x00]) ∧ (∃ t, step (withVectors [0x00]) = .next t) :=
  ⟨⟨by decide, by decide, rfl, rfl, rfl⟩, ⟨_, rfl⟩⟩

/-- An execute phase with both requests pending, and a step that clears one. -/
theorem witness_OnlyServiceClearsARequest :
    (∃ t, exec .nop { corner 0x25 with pendingIRQ := true, pendingNMI := true } = .next t) ∧
    (let s : State := { withVectors [0xEA] with pendingNMI := true }
     ∃ t, step s = .next t ∧ s.pendingNMI = true ∧ t.pendingNMI = false) ∧
    (let s : State := { withVectors [0x58] with pendingIRQ := true }
     ∃ t, step s = .next t ∧ s.pendingIRQ = true ∧ t.pendingIRQ = false) :=
  ⟨⟨_, rfl⟩, ⟨_, rfl, rfl, rfl⟩, ⟨_, rfl, rfl, rfl⟩⟩

theorem witness_PendingNmiIsServedByTheNextStep :
    let s : State := { withVectors [0xEA] with pendingNMI := true }
    s.pendingNMI = true ∧ (∃ t, step s = .next t) ∧ Quiet s ∧ s.bus.instructionHooks = [] :=
  ⟨rfl, ⟨_, rfl⟩, ⟨rfl, rfl, rfl⟩, rfl⟩

theorem witness_ReturnUndoesService : Quiet (corner 0x25) ∧ statusFixed (corner 0x25).cpu.p = true :=
  ⟨corner_quiet _, by decide⟩

/-- A reset that answers, and the two conditions of its second part. -/
theorem witness_ResetGivesTheResetValues :
    (∃ t, hostReset hooked = .next t) ∧ (corner 0x25).inStep = false ∧ (corner 0x25).bus.readHooks = [] ∧
    (corner 0x25).bus.rngBinding = none := ⟨⟨_, rfl⟩, rfl, rfl, rfl⟩

end Sys2Proof.Tests
end

section
/-! SUPPORT. Proofs about the bus and the host's memory calls (20_memory.md): `load`, `read`, the bus hook calls, and the
hook events of a read-modify-write. -/

namespace Sys2Proof.Machine

/-! ### Runs of cells -/

/-- A sequence of writes puts its `k`-th byte in the `k`-th cell of its window; `readCell_writeCells_outside` has the rest. -/
theorem readCell_writeCells_inside (m : Memory) (a k : Nat) (vs : List Byte) (hk : k < vs.length) :
    readCell (writeCells m a vs) (a + k) = vs[k] := by
  induction vs generalizing m a k with
  | nil => simp at hk
  | cons v vs ih =>
    cases k with
    | zero => rw [writeCells, readCell_writeCells_outside _ _ _ _ (by omega)]; simp
    | succ k =>
      have hk : k < vs.length := by simpa using hk
      rw [writeCells, show a + (k + 1) = a + 1 + k by omega, ih _ _ _ hk, List.getElem_cons_succ]

@[simp] theorem length_readCells (m : Memory) (a n : Nat) : (readCells m a n).length = n := by
  induction n generalizing a with
  | zero => rfl
  | succ n ih => rw [readCells, List.length_cons, ih]

theorem getElem?_readCells (m : Memory) (a n k : Nat) (hk : k < n) :
    (readCells m a n)[k]? = some (readCell m (a + k)) := by
  induction n generalizing a k with
  | zero => omega
  | succ n ih =>
    cases k with
    | zero => rfl
    | succ k => rw [readCells, List.getElem?_cons_succ, ih _ _ (by omega), show a + (k + 1) = a + 1 + k by omega]

/-- Settles O5: the range check guards the whole call, and the stores fill the window byte by byte. -/
theorem loadStoresItsBytes : Obligations.LoadStoresItsBytes := by
  intro bytes location s
  refine ⟨fun h => if_pos h, fun h => ⟨_, if_neg (by omega), rfl, fun a => ?_⟩⟩
  dsimp only
  split
  · next hin =>
    obtain ⟨k, rfl⟩ := Nat.exists_eq_add_of_le hin.1
    have hk : k < bytes.length := by omega
    rw [readCell_writeCells_inside _ _ _ _ (by simpa using hk), Nat.add_sub_cancel_left, List.getElem_map,
      List.getD_eq_getElem _ _ hk]
  · next hout => exact readCell_writeCells_outside _ _ _ _ (by rw [List.length_map]; omega)

/-- Settles O6: the range check guards the whole call, and the answer lists the cells of the window. -/
theorem bulkReadGivesTheCells : Obligations.BulkReadGivesTheCells := by
  intro location count s
  exact ⟨fun h => if_pos h, fun h => ⟨_, if_neg (by omega), length_readCells _ _ _, getElem?_readCells _ _ _⟩⟩

/-! ### The hook tables -/

/-- The two hook tables with `f` applied to those that a valid `kind` names (R59, R60). -/
def onHookTables (kind : KindArg) (f : HookTable → HookTable) (s : State) : State :=
  { s with
    bus.readHooks := if kind = .read ∨ kind = .readWrite then f s.bus.readHooks else s.bus.readHooks
    bus.writeHooks := if kind = .write ∨ kind = .readWrite then f s.bus.writeHooks else s.bus.writeHooks }

theorem onHookTables_readHooks {kind : KindArg} (h : kind = .read ∨ kind = .readWrite) (f : HookTable → HookTable)
    (s : State) : (onHookTables kind f s).bus.readHooks = f s.bus.readHooks := if_pos h

theorem onHookTables_readHooks_keep {kind : KindArg} (h : ¬ (kind = .read ∨ kind = .readWrite)) (f : HookTable → HookTable)
    (s : State) : (onHookTables kind f s).bus.readHooks = s.bus.readHooks := if_neg h

theorem onHookTables_writeHooks {kind : KindArg} (h : kind = .write ∨ kind = .readWrite) (f : HookTable → HookTable)
    (s : State) : (onHookTables kind f s).bus.writeHooks = f s.bus.writeHooks := if_pos h

theorem onHookTables_writeHooks_keep {kind : KindArg} (h : ¬ (kind = .write ∨ kind = .readWrite))
    (f : HookTable → HookTable) (s : State) : (onHookTables kind f s).bus.writeHooks = s.bus.writeHooks := if_neg h

/-- A registration at a valid address inserts in the tables its kind names, or refuses the kind (R59). -/
theorem registerReadWriteHook_eq {address : Int} (h : ¬ (address < 0 ∨ 65536 ≤ address)) (kind : KindArg) (callback : Nat)
    (s : State) : registerReadWriteHook address kind callback s =
      if (kind = .read ∨ kind = .readWrite) ∨ kind = .write ∨ kind = .readWrite
      then .ok (onHookTables kind (insertKey address.toNat callback) s) else .error .invalidArgument := by
  rw [registerReadWriteHook, if_neg h]
  cases kind <;> simp [onHookTables]

/-- A deregistration at a valid address erases in the tables its kind names, or refuses the kind (R60). -/
theorem deregisterReadWriteHook_eq {address : Int} (h : ¬ (address < 0 ∨ 65536 ≤ address)) (kind : KindArg) (s : State) :
    deregisterReadWriteHook address kind s =
      if (kind = .read ∨ kind = .readWrite) ∨ kind = .write ∨ kind = .readWrite
      then .ok (onHookTables kind (eraseKey address.toNat) s) else .error .invalidArgument := by
  rw [deregisterReadWriteHook, if_neg h]
  cases kind <;> simp [onHookTables]

/-- Settles O7: both calls check the address, then the kind, and then act on the tables that the kind names. -/
theorem hookTablesFollowTheirCalls : Obligations.HookTablesFollowTheirCalls := by
  intro address kind callback s bad reads writes
  refine ⟨fun hbad => ⟨if_pos hbad, if_pos hbad⟩, fun hok hr hw => ?_, fun hok hkind => ?_⟩
  · have hkind : ¬ (reads ∨ writes) := not_or.2 ⟨hr, hw⟩
    exact ⟨(registerReadWriteHook_eq hok ..).trans (if_neg hkind), (deregisterReadWriteHook_eq hok ..).trans (if_neg hkind)⟩
  · refine ⟨_, _, (registerReadWriteHook_eq hok ..).trans (if_pos hkind),
      (deregisterReadWriteHook_eq hok ..).trans (if_pos hkind), rfl, rfl, fun a => ⟨?_, ?_, ?_, ?_⟩⟩
    · rintro rfl hr
      simp [onHookTables_readHooks hr]
    · rintro rfl hw
      simp [onHookTables_writeHooks hw]
    · rintro (ha | hr)
      · simp [onHookTables, apply_ite (lookupKey a), ha]
      · simp [onHookTables_readHooks_keep hr]
    · rintro (ha | hw)
      · simp [onHookTables, apply_ite (lookupKey a), ha]
      · simp [onHookTables_writeHooks_keep hw]

/-! ### Hooks that do nothing -/

/-- A callback with no choice left to make is recorded and does nothing (log 6). -/
theorem invoke_silent {s : State} (h : s.script = []) (callback : Nat) (kind : HookKind) :
    invoke callback kind s = logHook callback kind s := by
  simp [invoke, h]

/-- Taking the value of a read uses up a draw at most (R84). -/
theorem readValue_state (a : Word) (s : State) : ∃ draws, (readValue a s).2 = { s with rngDraws := draws } := by
  unfold readValue
  split
  · exact ⟨_, rfl⟩
  · exact ⟨_, rfl⟩

/-- A read at an address with a silent hook records the hook's event, and uses up a draw at most. -/
theorem memRead_silent {a : Word} {callback : Nat} {s : State} (hs : s.script = [])
    (hr : lookupKey a.toNat s.bus.readHooks = some callback) :
    ∃ draws, (memRead a s).2 = logHook callback .read { s with rngDraws := draws } := by
  obtain ⟨draws, hv⟩ := readValue_state a s
  refine ⟨draws, ?_⟩
  simp only [memRead, hv, fireBusHook, hr]
  rw [invoke_silent]
  exact hs

/-- A write at an address with a silent hook stores the byte, then records the hook's event. -/
theorem memWrite_silent {a : Word} {v : Byte} {callback : Nat} {s : State} (hs : s.script = [])
    (hw : lookupKey a.toNat s.bus.writeHooks = some callback) :
    memWrite a v s = logHook callback .write (storeCell a v s) := by
  simp only [memWrite, fireBusHook, storeCell_bus, hw]
  rw [invoke_silent]
  exact hs

/-- A read-modify-write at an address with one silent hook in both tables records a read event, then a write event, both with
the registers and counters of before (R66, R111, R132). -/
theorem modifyMem_abs_silent {a : Word} {callback : Nat} {s : State} (hs : s.script = [])
    (hr : lookupKey a.toNat s.bus.readHooks = some callback) (hw : lookupKey a.toNat s.bus.writeHooks = some callback)
    (f : Byte → Byte) {act : Byte → State → State} (hact : ∀ v t, (act v t).hookLog = t.hookLog) :
    (modifyMem (.abs a) f act s).hookLog = s.hookLog ++ [eventAt callback .read s, eventAt callback .write s] := by
  obtain ⟨draws, hread⟩ := memRead_silent hs hr
  simp only [modifyMem, resolve, hact, hread]
  rw [memWrite_silent (callback := callback)]
  · simp [eventAt]
  · exact hs
  · exact hw

/-- Settles O10: INC absolute is a read-modify-write, and neither its flags nor its retirement touch the log. -/
theorem modifyFiresOneReadAndOneWrite : Obligations.ModifyFiresOneReadAndOneWrite := by
  intro a callback s hs hr hw
  have hop : (Instr.inc (.abs a)).opcode = some 0xEE := rfl
  exact ⟨_, retire_of_opcode hop _ _, modifyMem_abs_silent hs hr hw _ fun _ _ => rfl⟩

end Sys2Proof.Machine
end

section
/-! SUPPORT. Proofs about the step and its counters (40_step_cycle.md): what a step adds to the instruction count and to the
ticks, and the runs of stepTimes. -/

namespace Sys2Proof.Machine

open Sys2Proof.Config

/-! ### Ticks under the default parameters -/

/-- A bound on the ticks of each listed form bounds those of every operand whose form is listed. -/
theorem ticks_bounds_of_contains {formats : List Format} {ticks : Format → Nat}
    (hall : ∀ f ∈ formats, 2 ≤ ticks f ∧ ticks f ≤ 7) {f : Format} (h : formats.contains f = true) :
    2 ≤ ticks f ∧ ticks f ≤ 7 :=
  hall f (List.contains_iff_mem.1 h)

/-- The base ticks of the forms that exist run from 2 to 7 (R271). Forms without an encoding have 0. -/
theorem baseTicks_bounds {i : Instr} (h : i.wellFormed = true) : 2 ≤ baseTicks i ∧ baseTicks i ≤ 7 := by
  cases i with
  | lda o | adc o | sbc o | cmp o | and o | eor o | ora o =>
    exact ticks_bounds_of_contains (formats := accFormats) (ticks := readTicks) (by decide) h
  | ldx o => exact ticks_bounds_of_contains (formats := ldxFormats) (ticks := readTicks) (by decide) h
  | ldy o => exact ticks_bounds_of_contains (formats := ldyFormats) (ticks := readTicks) (by decide) h
  | cpx o | cpy o => exact ticks_bounds_of_contains (formats := cpxFormats) (ticks := readTicks) (by decide) h
  | bit m => exact ticks_bounds_of_contains (formats := bitFormats) (ticks := readTicks) (by decide) h
  | sta m => exact ticks_bounds_of_contains (formats := staFormats) (ticks := writeTicks) (by decide) h
  | stx m => exact ticks_bounds_of_contains (formats := stxFormats) (ticks := writeTicks) (by decide) h
  | sty m => exact ticks_bounds_of_contains (formats := styFormats) (ticks := writeTicks) (by decide) h
  | inc m | dec m => exact ticks_bounds_of_contains (formats := incFormats) (ticks := modifyTicks) (by decide) h
  | asl o | lsr o | rol o | ror o =>
    exact ticks_bounds_of_contains (formats := shiftFormats) (ticks := modifyTicks) (by decide) h
  | jmp j => cases j <;> simp [baseTicks]
  | _ => simp [baseTicks]

/-- Under the default parameters every instruction costs its base ticks, an illegal byte too (R123, R125). -/
theorem tickCost_default (i : Instr) (op : Byte) : tickCost {} i op = baseTicks i := by
  cases i <;> rfl

/-! ### What a step counts -/

@[simp] theorem retired_params (i : Instr) (op : Byte) (extra : Nat) (s : State) :
    (retired i op extra s).params = s.params := rfl

/-- EVERYTHING A STEP ADDS TO THE COUNTERS: one instruction, that instruction's cost and penalty, and the ticks of at most one
service (R123, R124, R237, R238). -/
theorem step_counters {s t : State} (h : step s = .next t) :
    t.instructionCount = s.instructionCount + 1 ∧
      ∃ i op extra serviceTicks, i.opcode = some op ∧ extra ≤ 2 ∧
        (serviceTicks = 0 ∨ serviceTicks = s.params.interruptTicks) ∧
        t.tickCount = s.tickCount + (tickCost s.params i op + penalty s.params extra) + serviceTicks := by
  obtain ⟨-, -, i, f, u, hf, -, hu, -, rfl⟩ := step_next h
  have hfetch : BusOnly (beginStep s) f := by simpa [hf] using fetchInstr_busOnly (beginStep s)
  obtain ⟨op, extra, v, hop, hextra, rfl, hv, -⟩ := exec_acted hu
  have hacted : BusOnly (beginStep s) v := hfetch.trans hv
  have hhooks := fireInstructionHooks_hostActed (retired i op extra v)
  obtain ⟨hcount, -, -, -, -, -, -, hticks⟩ := checkPoint_keeps (fireInstructionHooks (retired i op extra v))
  rw [hhooks.instructionCount, retired_instructionCount, hacted.instructionCount] at hcount
  rw [hhooks.tickCount, hhooks.params, retired_tickCount, retired_params, hacted.tickCount, hacted.params] at hticks
  refine ⟨hcount, i, op, extra, ?_⟩
  rcases hticks with hnone | hserved
  · exact ⟨0, hop, hextra, .inl rfl, hnone⟩
  · exact ⟨s.params.interruptTicks, hop, hextra, .inr rfl, hserved⟩

/-- Settles O48: by default a step costs 2 to 7 base ticks, no penalty, and 0 or 7 ticks of a service. -/
theorem eachStepCountsOneInstruction : Obligations.EachStepCountsOneInstruction := by
  intro s t h
  obtain ⟨hcount, i, op, extra, serviceTicks, hop, -, hservice, hticks⟩ := step_counters h
  refine ⟨hcount, fun hdefault => ?_⟩
  have hbase := baseTicks_bounds (i := i) (by rw [← opcode_isSome, hop]; rfl)
  have hpenalty : penalty {} extra = 0 := rfl
  have hinterrupt : ({} : Params).interruptTicks = 7 := rfl
  rw [hdefault, tickCost_default, hpenalty] at hticks
  rw [hdefault, hinterrupt] at hservice
  omega

/-! ### Runs of steps -/

/-- The loop of stepTimes is the host's run (R127). -/
theorem stepMany_eq_run (n : Nat) (s : State) : stepMany n s = Host.Core.run Sys2Proof.core n s := by
  induction n generalizing s with
  | zero => rfl
  | succ n ih =>
    have hcore : Sys2Proof.core.step s = step s := rfl
    cases h : step s with
    | next u => simpa only [stepMany, Host.Core.run, hcore, h] using ih u
    | fault r | refused r =>
      simp only [stepMany, Host.Core.run, hcore, h]
      rfl

/-- A run of n + 1 steps that answers is a step that answers and a run of n steps from there. -/
theorem stepMany_succ_next {n : Nat} {s t : State} (h : stepMany (n + 1) s = .next t) :
    ∃ u, step s = .next u ∧ stepMany n u = .next t := by
  rw [stepMany] at h
  split at h
  · rename_i u hu
    exact ⟨u, hu, h⟩
  · cases h
  · cases h

/-- A run that answers has counted its steps (R124). -/
theorem stepMany_instructionCount {n : Nat} {s t : State} (h : stepMany n s = .next t) :
    t.instructionCount = s.instructionCount + n := by
  induction n generalizing s with
  | zero => cases h; rfl
  | succ n ih =>
    obtain ⟨u, hstep, hrest⟩ := stepMany_succ_next h
    have hone := (step_counters hstep).1
    have hmany := ih hrest
    omega

/-- Between steps, stepTimes is its loop (R65, R127). -/
theorem stepTimes_eq_stepMany {s : State} (h : s.inStep = false) (n : Nat) : stepTimes n s = stepMany n s := by
  simp [stepTimes, h]

/-- Settles O49: the loop is the host's run, and each step of it counts one instruction. -/
theorem stepTimesRunsItsSteps : Obligations.StepTimesRunsItsSteps := by
  intro n s hs
  rw [stepTimes_eq_stepMany hs]
  exact ⟨stepMany_eq_run n s, fun _ => stepMany_instructionCount⟩

end Sys2Proof.Machine
end

section
/-! SUPPORT. Proofs about the decoder (30_encoding.md): what it reads from a whole instruction of each length, and the sample
words of the families. -/

namespace Sys2Proof.Machine

/-! ### A whole instruction of each length (R91) -/

theorem decode_of_lengthOf_one {op : Byte} (h : lengthOf op = 1) (rest : List Byte) :
    decode (op :: rest) = .ok (ofOpcode op 0 0, rest) := by
  simp only [decode, h]

theorem decode_of_lengthOf_two {op : Byte} (h : lengthOf op = 2) (b1 : Byte) (rest : List Byte) :
    decode (op :: b1 :: rest) = .ok (ofOpcode op b1 0, rest) := by
  simp only [decode, h]

theorem decode_of_lengthOf_three {op : Byte} (h : lengthOf op = 3) (b1 b2 : Byte) (rest : List Byte) :
    decode (op :: b1 :: b2 :: rest) = .ok (ofOpcode op b1 b2, rest) := by
  simp only [decode, h]

/-- Settles O4: the opcode byte fixes the length of each word, and the opcode table gives the instruction. -/
theorem sampleWordsDecode : Obligations.SampleWordsDecode := by
  refine ⟨?lda, ?sbc, ?rol, ?jmp, ?brk, ?illegal⟩
  case lda => exact decode_of_lengthOf_two rfl _ _
  case sbc => exact decode_of_lengthOf_three rfl _ _ _
  case rol => exact decode_of_lengthOf_one rfl _
  case jmp => exact decode_of_lengthOf_three rfl _ _ _
  case brk => exact decode_of_lengthOf_one rfl _
  case illegal => exact decode_of_lengthOf_one rfl _

end Sys2Proof.Machine
end

section
/-! SUPPORT. Proofs about the transfers (42_transfer_stack.md), and the rule for every instruction whose execute phase changes
only registers before it retires. -/

namespace Sys2Proof.Machine

open Sys2Proof.Config

/-! ### Instructions that change only registers -/

/-- A documented instruction costs its base ticks where no override stands (R7, R123). -/
theorem tickCost_of_no_overrides {params : Params} (h : params.tickOverrides = []) {i : Instr}
    (hi : ∀ b, i ≠ .illegal b) (op : Byte) : tickCost params i op = baseTicks i := by
  cases i with
  | illegal b => exact absurd rfl (hi b)
  | _ => simp only [tickCost, h]; rfl

/-- A penalty counts under `nmos` only (R272). -/
theorem penalty_eq_ite (params : Params) (n : Nat) :
    penalty params n = if params.penaltyPolicy = .nmos then n else 0 := by
  unfold penalty
  cases params.penaltyPolicy <;> rfl

/-- A documented instruction whose execute phase writes the registers and retires runs with no bus access (R123, R124, R271). -/
theorem runsAs_of_exec_eq_retire {i : Instr} {op : Byte} {extra : Nat} {s : State} {c : Cpu} {good : Cpu → Prop}
    (hop : i.opcode = some op) (hi : ∀ b, i ≠ .illegal b) (hexec : exec i s = retire i extra { s with cpu := c })
    (hgood : good c) : RunsAs i (op :: i.operandBytes) (baseTicks i) extra good s := by
  refine ⟨by simp only [encode, hop], c, _, hgood, hexec.trans (retire_of_opcode hop _ _), fun hnone => ?_⟩
  rw [tickCost_of_no_overrides hnone hi, penalty_eq_ite, Nat.add_assoc]

/-! ### The transfers (R150 to R155) -/

/-- Settles O18: each transfer writes its register, and P if it sets N and Z, and then retires. -/
theorem transfersCopyTheRegister : Obligations.TransfersCopyTheRegister := by
  intro s
  refine ⟨?tax, ?tay, ?tsx, ?txa, ?txs, ?tya⟩
  case txs => exact runsAs_of_exec_eq_retire rfl nofun rfl rfl
  case tax | tay | tsx | txa | tya => exact runsAs_of_exec_eq_retire rfl nofun rfl ⟨rfl, setsNZ_withNZ _ _⟩

end Sys2Proof.Machine
end

section
/-! SUPPORT. Proofs about the arithmetic (43_arithmetic.md): what binary addition computes, in unsigned and in signed integers,
and the rule the three compares share. -/

namespace Sys2Proof.Machine

/-! ### Binary addition (R160) -/

theorem addBinary_result_toNat (a m : Byte) (c : Bool) :
    (addBinary a m c).result.toNat = (a.toNat + m.toNat + bitNat c) % 256 := BitVec.toNat_ofNat _ _

theorem addBinary_c_iff (a m : Byte) (c : Bool) : (addBinary a m c).c = true ↔ 255 < a.toNat + m.toNat + bitNat c :=
  decide_eq_true_iff

/-- The mask 0x80 tests the sign bit. -/
theorem and_signMask_ne_zero_iff (v : Byte) : v &&& 0x80 ≠ 0 ↔ v.msb = true := by
  rw [show (0x80 : Byte) = BitVec.twoPow 8 7 from rfl, BitVec.and_twoPow, BitVec.msb_eq_getLsbD_last]
  split <;> simp_all

/-- The V formula compares sign bits: the operands share one that the result has not. -/
theorem overflowOf_iff (a m r : Byte) : overflowOf a m r = true ↔ a.msb = m.msb ∧ a.msb ≠ r.msb := by
  rw [overflowOf, bne_iff_ne, and_signMask_ne_zero_iff, BitVec.msb_and, BitVec.msb_not, BitVec.msb_xor, BitVec.msb_xor]
  cases a.msb <;> simp

/-- V says that the signed sum does not fit in a byte (R160). -/
theorem addBinary_v_iff (a m : Byte) (c : Bool) :
    (addBinary a m c).v = true ↔ a.toInt + m.toInt + bitNat c < -128 ∨ 127 < a.toInt + m.toInt + bitNat c := by
  have hcarry := bitNat_le c
  have hsum := addBinary_result_toNat a m c
  have hv : (addBinary a m c).v = overflowOf a m (addBinary a m c).result := rfl
  rw [hv, overflowOf_iff]
  simp only [BitVec.msb_eq_decide, BitVec.toInt_eq_toNat_cond, ne_eq, decide_eq_decide]
  split <;> split <;> omega

/-! ### Binary subtraction, the addition of the complement (R164) -/

/-- In two's complement, `~m` is `-m - 1`. -/
theorem toInt_complement (m : Byte) : (~~~m).toInt = -m.toInt - 1 := by
  rw [BitVec.toInt_eq_toNat_cond, BitVec.toInt_eq_toNat_cond, BitVec.toNat_not]
  split <;> split <;> omega

/-- The borrow of a subtraction is the complement of its carry (R164). -/
theorem borrow_eq (c : Bool) : (if c then 0 else 1 : Int) = 1 - bitNat c := by cases c <;> rfl

/-- Settles O21: V is a comparison of signs, and the difference is the sum with `-m - 1`. -/
theorem binaryArithmeticIsExact : Obligations.BinaryArithmeticIsExact := by
  intro a m c r carry q borrow
  have hborrow : borrow = 1 - bitNat c := borrow_eq c
  refine ⟨⟨addBinary_result_toNat a m c, addBinary_c_iff a m c, addBinary_v_iff a m c, bne_iff_ne,
    BitVec.msb_eq_getLsbD_last r.result, beq_iff_eq⟩, ?result, ?noBorrow, ?overflow⟩
  case result =>
    have hsum : q.result.toNat = _ := addBinary_result_toNat a (~~~m) c
    rw [BitVec.toNat_not] at hsum
    omega
  case noBorrow =>
    rw [addBinary_c_iff, BitVec.toNat_not]
    omega
  case overflow =>
    rw [addBinary_v_iff, toInt_complement]
    omega

/-! ### Compares (R166 to R169) -/

/-- An instruction of the read class that compares a register with the byte read completes in every state and writes the
flags of the comparison, and nothing else (R169). -/
theorem exec_compare {i : Instr} (hw : i.wellFormed = true) (o : ReadOperand) (reg : Cpu → Byte) {s : State}
    (hexec : exec i s = readClass i o (fun m u => setP (withCompare (reg u.cpu) m u.cpu.p) u) s) :
    ∃ t, exec i s = .next t ∧ t.cpu = { s.cpu with p := t.cpu.p } ∧
      SetsCompare (reg s.cpu) (readOperand o s).value s.cpu.p t.cpu.p := by
  obtain ⟨op, hop⟩ := opcode_of_wellFormed hw
  refine ⟨_, hexec.trans (retire_of_opcode hop _ _), ?_⟩
  rw [retired_cpu, setP_cpu, readOperand_cpu]
  exact ⟨rfl, setsCompare_withCompare _ _ _⟩

/-- Settles O25: the three compares are one, each with its register. -/
theorem comparesSetTheFlags : Obligations.ComparesSetTheFlags := by
  intro s o v
  refine ⟨fun hw => ?cmp, fun hw => ?cpx, fun hw => ?cpy⟩
  case cmp => exact exec_compare hw o Cpu.a rfl
  case cpx => exact exec_compare hw o Cpu.x rfl
  case cpy => exact exec_compare hw o Cpu.y rfl

end Sys2Proof.Machine
end

section
/-! SUPPORT. Proofs about increments, decrements and shifts (45_inc_dec_shift.md): the four forms that count an index
register up or down. -/

namespace Sys2Proof.Machine

/-! ### Counting an index register (R182 to R185) -/

/-- Counting down is adding 255 mod 256 (R184, R185). -/
theorem byte_sub_one_toNat (v : Byte) : (v - 1).toNat = (v.toNat + 255) % 256 := by
  rw [Nat.add_comm]
  exact BitVec.toNat_sub v 1

/-- Settles O28: each form writes the counted byte to its register, N and Z of it to P, and retires. -/
theorem registerCountsWrap : Obligations.RegisterCountsWrap := by
  intro s
  refine ⟨?inx, ?iny, ?dex, ?dey⟩
  case inx | iny => exact runsAs_of_exec_eq_retire rfl nofun rfl ⟨rfl, BitVec.toNat_add _ 1, setsNZ_withNZ _ _⟩
  case dex | dey => exact runsAs_of_exec_eq_retire rfl nofun rfl ⟨rfl, byte_sub_one_toNat _, setsNZ_withNZ _ _⟩

end Sys2Proof.Machine
end

section
/-! SUPPORT. Proofs about control transfer (46_control_transfer.md): where a branch goes, when its target lies in another
page, and the rule the eight branches share. -/

namespace Sys2Proof.Machine

/-! ### The target of a branch (R103) -/

/-- The signed displacement is added mod 65536. -/
theorem branchTarget_toNat (d : Byte) (pc : Word) :
    ((branchTarget d pc).toNat : Int) = ((pc.toNat : Int) + d.toInt) % 65536 := by
  have hdisp : ((d.signExtend 16).toNat : Int) = d.toInt % 65536 := by
    rw [BitVec.signExtend, BitVec.toNat_ofInt, Int.toNat_of_nonneg (Int.emod_nonneg _ (by decide))]
    rfl
  rw [branchTarget, BitVec.toNat_add, Int.natCast_emod, Int.natCast_add, hdisp]
  exact Int.add_emod_emod _ _ _

/-- The tick of a page cross, by the page numbers of the two addresses (R272). -/
theorem bitNat_crosses (a b : Word) :
    bitNat (crosses a b) = if (a.toNat : Int) / 256 = (b.toNat : Int) / 256 then 0 else 1 := by
  have hpages : crosses a b = true ↔ ¬ (a.toNat : Int) / 256 = (b.toNat : Int) / 256 := by
    rw [crosses_iff]
    omega
  simp only [bitNat, hpages, ite_not]

/-! ### The eight branches (R190 to R198) -/

/-- A documented instruction whose execute phase is `Branch(cond)` runs with no bus access: `taken` decides its target and
its penalty (R190, R272). -/
theorem runsAs_of_exec_eq_branch {i : Instr} {op d : Byte} {taken : Bool} {s : State}
    (hop : i.opcode = some op) (hi : ∀ b, i ≠ .illegal b) (hexec : exec i s = branch i d taken s) :
    let target := ((s.cpu.pc.toNat : Int) + d.toInt) % 65536
    let cross : Nat := if (s.cpu.pc.toNat : Int) / 256 = target / 256 then 0 else 1
    RunsAs i (op :: i.operandBytes) (baseTicks i) (if taken then 1 + cross else 0)
      (fun c => c = { s.cpu with pc := c.pc } ∧ (c.pc.toNat : Int) = if taken then target else s.cpu.pc.toNat) s := by
  dsimp only
  rw [← branchTarget_toNat, ← bitNat_crosses]
  cases taken with
  | false | true => exact runsAs_of_exec_eq_retire hop hi hexec ⟨rfl, rfl⟩

/-- Settles O31: each branch is `Branch(cond)` with its own flag. -/
theorem branchesFollowTheirFlag : Obligations.BranchesFollowTheirFlag := by
  intro s d
  refine ⟨?bpl, ?bmi, ?bvc, ?bvs, ?bcc, ?bcs, ?bne, ?beq⟩
  case bpl | bmi | bvc | bvs | bcc | bcs | bne | beq => exact runsAs_of_exec_eq_branch rfl nofun rfl

end Sys2Proof.Machine
end

section
/-! SUPPORT. Proofs about the flag instructions (47_flags_system.md): the rule that the seven of them share. -/

namespace Sys2Proof.Machine

/-! ### Writing one flag (R210 to R216) -/

/-- A documented instruction whose execute phase writes one flag and retires runs with no bus access, and every other bit of P
keeps its value. -/
theorem runsAs_of_exec_eq_setFlag {i : Instr} {op : Byte} {f : Flag} {v : Bool} {s : State}
    (hop : i.opcode = some op) (hi : ∀ b, i ≠ .illegal b) (hexec : exec i s = retire i 0 (setFlag f v s)) :
    RunsAs i (op :: i.operandBytes) (baseTicks i) 0
      (fun c => c = { s.cpu with p := c.p } ∧ flagOf f c.p = v ∧ KeepsFlagsBut [f] s.cpu.p c.p) s := by
  have hflag : flagOf f (withFlag f v s.cpu.p) = v := by rw [flagOf_withFlag, if_pos rfl]
  exact runsAs_of_exec_eq_retire hop hi hexec ⟨rfl, hflag, keepsFlagsBut_withFlag f v s.cpu.p⟩

/-- Settles O36: each of the seven is a write of its own flag, with its own value. -/
theorem flagInstructionsWriteOneFlag : Obligations.FlagInstructionsWriteOneFlag := by
  intro s
  refine ⟨?clc, ?sec, ?cli, ?sei, ?clv, ?cld, ?sed⟩
  case clc | sec | cli | sei | clv | cld | sed => exact runsAs_of_exec_eq_setFlag rfl nofun rfl

end Sys2Proof.Machine
end

section
/-! SUPPORT. Proofs about timing (70_reset_and_hazards.md R273): `withoutTiming` passes through every operation of the step, and
so the outcome of a step, or of any number of them, is that of the state without timing, `tickCount` and the timing
parameters apart. -/

namespace Sys2Proof.Machine

/-! ### What setting the timing aside leaves -/

@[simp] theorem withoutTiming_cpu (s : State) : (withoutTiming s).cpu = s.cpu := rfl
@[simp] theorem withoutTiming_bus (s : State) : (withoutTiming s).bus = s.bus := rfl
@[simp] theorem withoutTiming_pendingIRQ (s : State) : (withoutTiming s).pendingIRQ = s.pendingIRQ := rfl
@[simp] theorem withoutTiming_pendingNMI (s : State) : (withoutTiming s).pendingNMI = s.pendingNMI := rfl
@[simp] theorem withoutTiming_phase (s : State) : (withoutTiming s).phase = s.phase := rfl
@[simp] theorem withoutTiming_inStep (s : State) : (withoutTiming s).inStep = s.inStep := rfl
@[simp] theorem withoutTiming_script (s : State) : (withoutTiming s).script = s.script := rfl
@[simp] theorem withoutTiming_rngDraws (s : State) : (withoutTiming s).rngDraws = s.rngDraws := rfl
@[simp] theorem withoutTiming_stop (s : State) : (withoutTiming s).stop = s.stop := rfl

/-- The policy for illegal bytes is no timing parameter. -/
@[simp] theorem withoutTiming_illegalPolicy (s : State) :
    (withoutTiming s).params.illegalPolicy = s.params.illegalPolicy := rfl

@[simp] theorem withoutTiming_idem (s : State) : withoutTiming (withoutTiming s) = withoutTiming s := by
  simp [withoutTiming]

/-! ### Callbacks without timing -/

theorem afterCall_load_withoutTiming (bytes : List Int) (location : Int) (s : State) :
    afterCall (withoutTiming s) (load bytes location (withoutTiming s)) =
      withoutTiming (afterCall s (load bytes location s)) := by
  unfold load
  split <;> rfl

theorem afterCall_register_withoutTiming (address : Int) (kind : KindArg) (callback : Nat) (s : State) :
    afterCall (withoutTiming s) (registerReadWriteHook address kind callback (withoutTiming s)) =
      withoutTiming (afterCall s (registerReadWriteHook address kind callback s)) := by
  unfold registerReadWriteHook
  split
  · rfl
  · cases kind <;> rfl

theorem afterCall_deregister_withoutTiming (address : Int) (kind : KindArg) (s : State) :
    afterCall (withoutTiming s) (deregisterReadWriteHook address kind (withoutTiming s)) =
      withoutTiming (afterCall s (deregisterReadWriteHook address kind s)) := by
  unfold deregisterReadWriteHook
  split
  · rfl
  · cases kind <;> rfl

/-- No act of a callback looks at the timing. -/
theorem runAct_withoutTiming (s : State) (act : CallbackAct) :
    runAct (withoutTiming s) act = withoutTiming (runAct s act) := by
  cases act with
  | raise => rfl
  | call c =>
    cases c with
    | load bytes location => exact afterCall_load_withoutTiming bytes location s
    | registerReadWriteHook address kind callback => exact afterCall_register_withoutTiming address kind callback s
    | deregisterReadWriteHook address kind => exact afterCall_deregister_withoutTiming address kind s
    | _ => rfl

/-- An event recorded without timing is the event recorded, its `tickCount` set aside. -/
theorem logHook_withoutTiming (callback : Nat) (kind : HookKind) (s : State) :
    logHook callback kind (withoutTiming s) = withoutTiming (logHook callback kind s) := by
  simp [logHook, withoutTiming]

@[simp] theorem invoke_withoutTiming (callback : Nat) (kind : HookKind) (s : State) :
    invoke callback kind (withoutTiming s) = withoutTiming (invoke callback kind s) := by
  unfold invoke
  rw [withoutTiming_script]
  split
  · exact logHook_withoutTiming callback kind s
  · rename_i acts rest _
    calc acts.foldl runAct (logHook callback kind (withoutTiming { s with script := rest }))
      _ = acts.foldl runAct (withoutTiming (logHook callback kind { s with script := rest })) := by
        rw [logHook_withoutTiming]
      _ = withoutTiming (acts.foldl runAct (logHook callback kind { s with script := rest })) :=
        List.foldl_hom withoutTiming runAct_withoutTiming

@[simp] theorem fireInstructionHooks_withoutTiming (s : State) :
    fireInstructionHooks (withoutTiming s) = withoutTiming (fireInstructionHooks s) :=
  List.foldl_hom withoutTiming fun t callback => invoke_withoutTiming callback .instruction t

/-! ### Bus accesses, stack and operands without timing -/

@[simp] theorem fireBusHook_withoutTiming (table : HookTable) (kind : HookKind) (a : Word) (s : State) :
    fireBusHook table kind a (withoutTiming s) = withoutTiming (fireBusHook table kind a s) := by
  unfold fireBusHook
  split
  · rfl
  · exact invoke_withoutTiming _ kind s

@[simp] theorem readValue_withoutTiming (a : Word) (s : State) :
    readValue a (withoutTiming s) = ((readValue a s).1, withoutTiming (readValue a s).2) := by
  unfold readValue
  rw [withoutTiming_bus]
  split <;> rfl

@[simp] theorem memRead_withoutTiming (a : Word) (s : State) :
    memRead a (withoutTiming s) = ((memRead a s).1, withoutTiming (memRead a s).2) := by
  simp [memRead]

@[simp] theorem storeCell_withoutTiming (a : Word) (v : Byte) (s : State) :
    storeCell a v (withoutTiming s) = withoutTiming (storeCell a v s) := rfl

@[simp] theorem memWrite_withoutTiming (a : Word) (v : Byte) (s : State) :
    memWrite a v (withoutTiming s) = withoutTiming (memWrite a v s) := by
  simp [memWrite]

@[simp] theorem setA_withoutTiming (v : Byte) (s : State) : setA v (withoutTiming s) = withoutTiming (setA v s) := rfl
@[simp] theorem setS_withoutTiming (v : Byte) (s : State) : setS v (withoutTiming s) = withoutTiming (setS v s) := rfl
@[simp] theorem setP_withoutTiming (v : Byte) (s : State) : setP v (withoutTiming s) = withoutTiming (setP v s) := rfl
@[simp] theorem setPC_withoutTiming (v : Word) (s : State) : setPC v (withoutTiming s) = withoutTiming (setPC v s) := rfl

@[simp] theorem fetchByte_withoutTiming (s : State) :
    fetchByte (withoutTiming s) = ((fetchByte s).1, withoutTiming (fetchByte s).2) := by
  simp [fetchByte]

@[simp] theorem push_withoutTiming (v : Byte) (s : State) : push v (withoutTiming s) = withoutTiming (push v s) := by
  simp [push]

@[simp] theorem pull_withoutTiming (s : State) :
    pull (withoutTiming s) = ((pull s).1, withoutTiming (pull s).2) := by
  simp [pull]

@[simp] theorem pushWord_withoutTiming (w : Word) (s : State) :
    pushWord w (withoutTiming s) = withoutTiming (pushWord w s) := by
  simp [pushWord]

@[simp] theorem pullWord_withoutTiming (s : State) :
    pullWord (withoutTiming s) = ((pullWord s).1, withoutTiming (pullWord s).2) := by
  simp [pullWord]

@[simp] theorem readPair_withoutTiming (a b : Word) (s : State) :
    readPair a b (withoutTiming s) = ((readPair a b s).1, withoutTiming (readPair a b s).2) := by
  simp [readPair]

@[simp] theorem enterHandler_withoutTiming (copy : Byte → Byte) (vector : Word) (s : State) :
    enterHandler copy vector (withoutTiming s) = withoutTiming (enterHandler copy vector s) := by
  simp [enterHandler, read16]

@[simp] theorem leaveHandler_withoutTiming (s : State) :
    leaveHandler (withoutTiming s) = withoutTiming (leaveHandler s) := by
  simp [leaveHandler]

@[simp] theorem resolve_withoutTiming (m : MemMode) (s : State) :
    resolve m (withoutTiming s) = { resolve m s with state := withoutTiming (resolve m s).state } := by
  cases m with
  | indX z | indY z => simp [resolve, zeroPagePointer, indexed]
  | zp _ | zpX _ | zpY _ | abs _ | absX _ | absY _ => rfl

@[simp] theorem readOperand_withoutTiming (o : ReadOperand) (s : State) :
    readOperand o (withoutTiming s) = { readOperand o s with state := withoutTiming (readOperand o s).state } := by
  cases o with
  | imm v => rfl
  | mem m => simp [readOperand]

@[simp] theorem jumpTarget_withoutTiming (t : JumpOperand) (s : State) :
    jumpTarget t (withoutTiming s) = ((jumpTarget t s).1, withoutTiming (jumpTarget t s).2) := by
  cases t with
  | abs w => rfl
  | ind ptr => exact readPair_withoutTiming _ _ s

/-- A read-modify-write whose last act ignores the timing ignores it. -/
theorem modifyMem_withoutTiming {act : Byte → State → State}
    (hact : ∀ v t, act v (withoutTiming t) = withoutTiming (act v t)) (m : MemMode) (f : Byte → Byte) (s : State) :
    modifyMem m f act (withoutTiming s) = withoutTiming (modifyMem m f act s) := by
  simp [modifyMem, hact]

@[simp] theorem shiftOperand_withoutTiming (o : ShiftOperand) (f : Byte → ShiftResult) (s : State) :
    shiftOperand o f (withoutTiming s) = withoutTiming (shiftOperand o f s) := by
  cases o with
  | acc => rfl
  | mem m =>
    simp only [shiftOperand]
    exact modifyMem_withoutTiming (fun _ _ => by rfl) m _ s

/-! ### Fetch and check point without timing -/

theorem fetchInstr_withoutTiming (s : State) :
    fetchInstr (withoutTiming s) = ((fetchInstr s).1, withoutTiming (fetchInstr s).2) := by
  simp only [fetchInstr, fetchByte_withoutTiming]
  split <;> rfl

theorem clearPending_withoutTiming (line : Line) (s : State) :
    clearPending line (withoutTiming s) = withoutTiming (clearPending line s) := by
  cases line <;> rfl

/-- The ticks of a service are set aside with `tickCount` (R237). -/
theorem service_withoutTiming (line : Line) (s : State) :
    service line (withoutTiming s) = withoutTiming (service line s) := by
  simp only [service, enterHandler_withoutTiming, clearPending_withoutTiming]
  rfl

theorem checkPoint_withoutTiming (s : State) : checkPoint (withoutTiming s) = withoutTiming (checkPoint s) := by
  simp only [checkPoint, withoutTiming_pendingNMI, withoutTiming_pendingIRQ, withoutTiming_cpu, service_withoutTiming]
  split
  · rfl
  · split <;> rfl

/-! ### Outcomes without timing -/

/-- An outcome with the timing of its next state set aside. -/
def untimed : Host.Outcome State Fault Refusal → Host.Outcome State Fault Refusal
  | .next t => .next (withoutTiming t)
  | .fault r => .fault r
  | .refused r => .refused r

/-- Outcomes agree but for timing exactly when they are one outcome with the timing set aside. -/
theorem outcomesAgree_iff_untimed_eq (o o' : Host.Outcome State Fault Refusal) :
    OutcomesAgree (fun t t' => withoutTiming t = withoutTiming t') o o' ↔ untimed o = untimed o' := by
  cases o <;> cases o' <;> simp [OutcomesAgree, untimed]

/-- What follows an outcome: a next state goes on with `g`, a fault or a refusal stands. -/
def followedBy (g : State → Host.Outcome State Fault Refusal) :
    Host.Outcome State Fault Refusal → Host.Outcome State Fault Refusal
  | .next t => g t
  | .fault r => .fault r
  | .refused r => .refused r

/-- Outcomes that agree but for timing still do after a continuation that ignores the timing. -/
theorem untimed_followedBy {g : State → Host.Outcome State Fault Refusal}
    (hg : ∀ t, untimed (g (withoutTiming t)) = untimed (g t)) {o o' : Host.Outcome State Fault Refusal}
    (h : untimed o = untimed o') : untimed (followedBy g o) = untimed (followedBy g o') := by
  have hset : ∀ r, untimed (followedBy g (untimed r)) = untimed (followedBy g r) := by
    intro r
    cases r with
    | next t => exact hg t
    | fault r | refused r => rfl
  rw [← hset o, h, hset o']

/-! ### The execute phase without timing -/

/-- The ticks of a retirement are set aside with `tickCount` (R123). -/
theorem untimed_retire {t u : State} (h : t = withoutTiming u) (i : Instr) (extra : Nat) :
    untimed (retire i extra t) = untimed (retire i extra u) := by
  subst h
  unfold retire
  split
  · rfl
  · simp [untimed, withoutTiming]

theorem untimed_readClass {act : Byte → State → State}
    (hact : ∀ v t, act v (withoutTiming t) = withoutTiming (act v t)) (i : Instr) (o : ReadOperand) (s : State) :
    untimed (readClass i o act (withoutTiming s)) = untimed (readClass i o act s) := by
  simp only [readClass, readOperand_withoutTiming]
  exact untimed_retire (hact _ _) i _

theorem untimed_writeClass (i : Instr) (m : MemMode) (v : Byte) (s : State) :
    untimed (writeClass i m v (withoutTiming s)) = untimed (writeClass i m v s) := by
  simp only [writeClass, resolve_withoutTiming]
  exact untimed_retire (memWrite_withoutTiming _ _ _) i 0

theorem untimed_branch (i : Instr) (d : Byte) (taken : Bool) (s : State) :
    untimed (branch i d taken (withoutTiming s)) = untimed (branch i d taken s) := by
  cases taken with
  | false | true => exact untimed_retire (by rfl) i _

/-- An execute phase that changes the state by an operation that ignores the timing, and then retires, ignores it. -/
theorem untimed_exec_of_retire {i : Instr} {extra : Nat} {f : State → State} (hexec : ∀ s, exec i s = retire i extra (f s))
    (hf : ∀ s, f (withoutTiming s) = withoutTiming (f s)) (s : State) :
    untimed (exec i (withoutTiming s)) = untimed (exec i s) := by
  rw [hexec, hexec]
  exact untimed_retire (hf s) i extra

/-- The execute phase of every instruction ignores the timing: its registers, cells and hook events are those of the state
without timing, and so is a fault (R125, R273). -/
theorem untimed_exec (i : Instr) (s : State) : untimed (exec i (withoutTiming s)) = untimed (exec i s) := by
  cases i with
  | lda o | ldx o | ldy o | adc o | sbc o | cmp o | cpx o | cpy o | and o | eor o | ora o =>
    simp only [exec, execLda, execLdx, execLdy, execAdc, execSbc, execCmp, execCpx, execCpy, execAnd, execEor, execOra]
    exact untimed_readClass (fun _ _ => by rfl) _ o s
  | bit m =>
    simp only [exec, execBit]
    exact untimed_readClass (fun _ _ => by rfl) _ (.mem m) s
  | sta m | stx m | sty m => exact untimed_writeClass _ m _ s
  | inc m | dec m => exact untimed_exec_of_retire (fun _ => rfl) (modifyMem_withoutTiming (fun _ _ => by rfl) m _) s
  | bpl d | bmi d | bvc d | bvs d | bcc d | bcs d | bne d | beq d => exact untimed_branch _ d _ s
  | tax | tay | tsx | txa | txs | tya | inx | iny | dex | dey | clc | sec | cli | sei | clv | cld | sed | nop =>
    exact untimed_exec_of_retire (fun _ => rfl) (fun _ => by rfl) s
  | asl _ | lsr _ | rol _ | ror _ | pha | php | pla | plp | jmp _ | jsr _ | rts | brk | rti =>
    exact untimed_exec_of_retire (fun _ => rfl) (fun _ => by simp) s
  | illegal op =>
    simp only [exec, execIllegal, withoutTiming_illegalPolicy]
    split
    · exact untimed_retire rfl _ 0
    · rfl

/-! ### Steps and runs without timing -/

theorem untimed_endStep (s : State) : untimed (endStep (withoutTiming s)) = untimed (endStep s) := by
  simp only [endStep, withoutTiming_stop]
  split
  · rfl
  · exact congrArg Host.Outcome.next (withoutTiming_idem { s with inStep := false })

theorem untimed_afterExecute (s : State) : untimed (afterExecute (withoutTiming s)) = untimed (afterExecute s) := by
  simp only [afterExecute, fireInstructionHooks_withoutTiming, checkPoint_withoutTiming, untimed_endStep]

theorem executeAndFinish_eq (i : Instr) (s : State) :
    executeAndFinish i s = s.stop.elim (followedBy afterExecute (exec i s)) .refused := by
  unfold executeAndFinish
  cases s.stop with
  | none => cases exec i s <;> rfl
  | some r => rfl

theorem untimed_executeAndFinish (i : Instr) (s : State) :
    untimed (executeAndFinish i (withoutTiming s)) = untimed (executeAndFinish i s) := by
  rw [executeAndFinish_eq, executeAndFinish_eq, withoutTiming_stop]
  cases s.stop with
  | none => exact untimed_followedBy untimed_afterExecute (untimed_exec i s)
  | some r => rfl

theorem untimed_runStep (s : State) : untimed (runStep (withoutTiming s)) = untimed (runStep s) := by
  have hbegin : beginStep (withoutTiming s) = withoutTiming (beginStep s) := rfl
  simp only [runStep, hbegin, fetchInstr_withoutTiming, untimed_executeAndFinish]

/-- A step of a state without timing is the step of the state, but for timing. -/
theorem untimed_step (s : State) : untimed (step (withoutTiming s)) = untimed (step s) := by
  unfold step
  rw [withoutTiming_phase, withoutTiming_inStep]
  split
  · rfl
  · cases s.inStep with
    | false => exact untimed_runStep s
    | true => rfl

theorem stepMany_succ_eq (n : Nat) (s : State) : stepMany (n + 1) s = followedBy (stepMany n) (step s) := by
  rw [stepMany]
  cases step s <;> rfl

/-- A run from a state without timing is the run from the state, but for timing. -/
theorem untimed_stepMany (n : Nat) (s : State) : untimed (stepMany n (withoutTiming s)) = untimed (stepMany n s) := by
  induction n generalizing s with
  | zero => exact congrArg Host.Outcome.next (withoutTiming_idem s)
  | succ n ih =>
    rw [stepMany_succ_eq, stepMany_succ_eq]
    exact untimed_followedBy ih (untimed_step s)

/-- Settles O51: both runs agree but for timing with the run from the one state the two have in common. -/
theorem timingDecidesNothingElse : Obligations.TimingDecidesNothingElse := by
  intro n s s' h
  rw [← stepMany_eq_run, ← stepMany_eq_run, outcomesAgree_iff_untimed_eq, ← untimed_stepMany n s, h, untimed_stepMany n s']

end Sys2Proof.Machine
end

section
/-! SUPPORT. Proofs about the whole opcode map (30_encoding.md R90 to R94, R112): decode and encode undo each other, and every
byte begins an instruction. An instruction is its opcode byte with operand bytes put in, and that is how the map makes it. -/

namespace Sys2Proof.Machine

/-! ### Operand bytes put into an instruction -/

/-- A memory mode with other operand bytes, low byte first (R92). -/
def modeWith (b1 b2 : Byte) : MemMode → MemMode
  | .zp _ => .zp b1
  | .zpX _ => .zpX b1
  | .zpY _ => .zpY b1
  | .abs _ => .abs (wordOf b2 b1)
  | .absX _ => .absX (wordOf b2 b1)
  | .absY _ => .absY (wordOf b2 b1)
  | .indX _ => .indX b1
  | .indY _ => .indY b1

/-- A read operand with other bytes. -/
def readWith (b1 b2 : Byte) : ReadOperand → ReadOperand
  | .imm _ => .imm b1
  | .mem m => .mem (modeWith b1 b2 m)

/-- A shift operand with other bytes. -/
def shiftWith (b1 b2 : Byte) : ShiftOperand → ShiftOperand
  | .acc => .acc
  | .mem m => .mem (modeWith b1 b2 m)

/-- The instruction of the same opcode byte with other operand bytes. -/
def instrWith (b1 b2 : Byte) : Instr → Instr
  | .lda o => .lda (readWith b1 b2 o)
  | .ldx o => .ldx (readWith b1 b2 o)
  | .ldy o => .ldy (readWith b1 b2 o)
  | .adc o => .adc (readWith b1 b2 o)
  | .sbc o => .sbc (readWith b1 b2 o)
  | .cmp o => .cmp (readWith b1 b2 o)
  | .cpx o => .cpx (readWith b1 b2 o)
  | .cpy o => .cpy (readWith b1 b2 o)
  | .and o => .and (readWith b1 b2 o)
  | .eor o => .eor (readWith b1 b2 o)
  | .ora o => .ora (readWith b1 b2 o)
  | .sta m => .sta (modeWith b1 b2 m)
  | .stx m => .stx (modeWith b1 b2 m)
  | .sty m => .sty (modeWith b1 b2 m)
  | .bit m => .bit (modeWith b1 b2 m)
  | .inc m => .inc (modeWith b1 b2 m)
  | .dec m => .dec (modeWith b1 b2 m)
  | .asl o => .asl (shiftWith b1 b2 o)
  | .lsr o => .lsr (shiftWith b1 b2 o)
  | .rol o => .rol (shiftWith b1 b2 o)
  | .ror o => .ror (shiftWith b1 b2 o)
  | .bpl _ => .bpl b1
  | .bmi _ => .bmi b1
  | .bvc _ => .bvc b1
  | .bvs _ => .bvs b1
  | .bcc _ => .bcc b1
  | .bcs _ => .bcs b1
  | .bne _ => .bne b1
  | .beq _ => .beq b1
  | .jmp (.abs _) => .jmp (.abs (wordOf b2 b1))
  | .jmp (.ind _) => .jmp (.ind (wordOf b2 b1))
  | .jsr _ => .jsr (wordOf b2 b1)
  | i => i

theorem modeWith_bytes (m : MemMode) : modeWith (m.bytes.getD 0 0) (m.bytes.getD 1 0) m = m := by
  cases m with
  | zp _ | zpX _ | zpY _ | indX _ | indY _ => rfl
  | abs a | absX a | absY a => simp [modeWith, MemMode.bytes]

theorem bytes_modeWith (b1 b2 : Byte) (m : MemMode) : (modeWith b1 b2 m).bytes = [b1, b2].take (m.format.length - 1) := by
  cases m with
  | zp _ | zpX _ | zpY _ | indX _ | indY _ => rfl
  | abs a | absX a | absY a => simp [modeWith, MemMode.bytes, MemMode.format, Format.length]

/-- An instruction with its own operand bytes is itself. -/
theorem instrWith_operandBytes (i : Instr) : instrWith (i.operandBytes.getD 0 0) (i.operandBytes.getD 1 0) i = i := by
  cases i with
  | lda o | ldx o | ldy o | adc o | sbc o | cmp o | cpx o | cpy o | and o | eor o | ora o =>
    cases o with
    | imm v => rfl
    | mem m => simp only [Instr.operandBytes, instrWith, readWith, modeWith_bytes]
  | sta m | stx m | sty m | bit m | inc m | dec m => simp only [Instr.operandBytes, instrWith, modeWith_bytes]
  | asl o | lsr o | rol o | ror o =>
    cases o with
    | acc => rfl
    | mem m => simp only [Instr.operandBytes, instrWith, shiftWith, modeWith_bytes]
  | jmp t => cases t <;> simp [Instr.operandBytes, instrWith]
  | jsr w => simp [Instr.operandBytes, instrWith]
  | _ => rfl

/-- The operand bytes of an instruction are those put into it, as many as its length says (R90, R91). -/
theorem operandBytes_instrWith (b1 b2 : Byte) (i : Instr) :
    (instrWith b1 b2 i).operandBytes = [b1, b2].take (i.length - 1) := by
  cases i with
  | lda o | ldx o | ldy o | adc o | sbc o | cmp o | cpx o | cpy o | and o | eor o | ora o =>
    cases o with
    | imm v => rfl
    | mem m => exact bytes_modeWith b1 b2 m
  | sta m | stx m | sty m | bit m | inc m | dec m => exact bytes_modeWith b1 b2 m
  | asl o | lsr o | rol o | ror o =>
    cases o with
    | acc => rfl
    | mem m => exact bytes_modeWith b1 b2 m
  | jmp t => cases t <;> simp [Instr.operandBytes, instrWith, Instr.length, Instr.format, JumpOperand.format, Format.length]
  | jsr w => simp [Instr.operandBytes, instrWith, Instr.length, Instr.format, Format.length]
  | _ => rfl

/-- Neither the opcode byte nor the format looks at the operand bytes (R91, R94). -/
theorem opcode_format_instrWith (b1 b2 : Byte) (i : Instr) :
    (instrWith b1 b2 i).opcode = i.opcode ∧ (instrWith b1 b2 i).format = i.format := by
  cases i with
  | lda o | ldx o | ldy o | adc o | sbc o | cmp o | cpx o | cpy o | and o | eor o | ora o =>
    cases o with
    | imm v => exact ⟨rfl, rfl⟩
    | mem m => cases m <;> exact ⟨rfl, rfl⟩
  | sta m | stx m | sty m | bit m | inc m | dec m => cases m <;> exact ⟨rfl, rfl⟩
  | asl o | lsr o | rol o | ror o =>
    cases o with
    | acc => exact ⟨rfl, rfl⟩
    | mem m => cases m <;> exact ⟨rfl, rfl⟩
  | jmp t => cases t <;> exact ⟨rfl, rfl⟩
  | _ => exact ⟨rfl, rfl⟩

/-! ### The opcode map -/

/-- The opcode map has no instruction for the bytes of the list R112. -/
theorem ofOpcode_illegal (b1 b2 : Byte) :
    ∀ op : Byte, illegalOpcodes.contains op.toNat = true → ofOpcode op b1 b2 = .illegal op :=
  of_decide_eq_true (Eq.refl true)

/-- The opcode map gives the instruction of the opcode byte with the operand bytes put in (R94). -/
theorem ofOpcode_eq_instrWith {i : Instr} {op : Byte} (h : i.opcode = some op) (b1 b2 : Byte) :
    ofOpcode op b1 b2 = instrWith b1 b2 i := by
  cases i with
  | lda o | ldx o | ldy o | adc o | sbc o | cmp o | cpx o | cpy o | and o | eor o | ora o =>
    cases o with
    | imm v => cases h; rfl
    | mem m => cases m <;> cases h <;> rfl
  | sta m | stx m | sty m | bit m | inc m | dec m => cases m <;> cases h <;> rfl
  | asl o | lsr o | rol o | ror o =>
    cases o with
    | acc => cases h; rfl
    | mem m => cases m <;> cases h <;> rfl
  | jmp t => cases t <;> cases h <;> rfl
  | illegal b =>
    simp only [Instr.opcode] at h
    split at h
    · next hb => cases h; exact ofOpcode_illegal b1 b2 _ hb
    · cases h
  | _ => cases h; rfl

/-- Every byte is the opcode byte of the instruction it begins: the opcode map and the encoding tables agree (R93, R94). -/
theorem opcode_ofOpcode_zero : ∀ op : Byte, (ofOpcode op 0 0).opcode = some op := by decide

theorem ofOpcode_eq_with (op b1 b2 : Byte) : ofOpcode op b1 b2 = instrWith b1 b2 (ofOpcode op 0 0) :=
  ofOpcode_eq_instrWith (opcode_ofOpcode_zero op) b1 b2

theorem opcode_ofOpcode (op b1 b2 : Byte) : (ofOpcode op b1 b2).opcode = some op := by
  rw [ofOpcode_eq_with, (opcode_format_instrWith b1 b2 _).1, opcode_ofOpcode_zero]

/-- Whatever the decoder reads has the form it carries (R94). -/
theorem wellFormed_ofOpcode (op b1 b2 : Byte) : (ofOpcode op b1 b2).wellFormed = true := by
  rw [← opcode_isSome, opcode_ofOpcode]
  rfl

/-- The opcode byte alone fixes the length (R91). -/
theorem length_ofOpcode (op b1 b2 : Byte) : (ofOpcode op b1 b2).length = lengthOf op := by
  rw [ofOpcode_eq_with, Instr.length, (opcode_format_instrWith b1 b2 _).2]
  rfl

theorem lengthOf_opcode {i : Instr} {op : Byte} (h : i.opcode = some op) : lengthOf op = i.length := by
  rw [lengthOf, ofOpcode_eq_instrWith h, Instr.length, (opcode_format_instrWith 0 0 i).2]
  rfl

/-- The bytes of what the opcode map gives: the opcode byte, and the operand bytes that its length admits (R90). -/
theorem encode_ofOpcode (op b1 b2 : Byte) : encode (ofOpcode op b1 b2) = op :: [b1, b2].take (lengthOf op - 1) := by
  simp only [encode, opcode_ofOpcode]
  rw [ofOpcode_eq_with, operandBytes_instrWith, lengthOf]

/-- The opcode map reads an instruction back from its opcode byte and its operand bytes. -/
theorem ofOpcode_opcode {i : Instr} {op : Byte} (h : i.opcode = some op) :
    ofOpcode op (i.operandBytes.getD 0 0) (i.operandBytes.getD 1 0) = i :=
  (ofOpcode_eq_instrWith h _ _).trans (instrWith_operandBytes i)

/-! ### Decode and encode -/

/-- EVERYTHING THE DECODER CAN ANSWER: what the opcode map gives for the bytes of one instruction, and the bytes after them. -/
theorem decode_ok {bytes rest : List Byte} {i : Instr} (h : decode bytes = .ok (i, rest)) :
    ∃ op b1 b2, i = ofOpcode op b1 b2 ∧ bytes = op :: [b1, b2].take (lengthOf op - 1) ++ rest := by
  unfold decode at h
  split at h
  · cases h
  · next op tail =>
    split at h
    · next hl => cases h; exact ⟨op, 0, 0, rfl, by rw [hl]; rfl⟩
    · next b1 tail hl => cases h; exact ⟨op, b1, 0, rfl, by rw [hl]; rfl⟩
    · next b1 b2 tail hl => cases h; exact ⟨op, b1, b2, rfl, by rw [hl]; rfl⟩
    · cases h

/-- An encoded instruction has as many operand bytes as its opcode byte says (R91). -/
theorem length_operandBytes {i : Instr} {op : Byte} (h : i.opcode = some op) :
    i.operandBytes.length + 1 = lengthOf op := by
  have hbytes := operandBytes_instrWith (i.operandBytes.getD 0 0) (i.operandBytes.getD 1 0) i
  rw [instrWith_operandBytes, ← lengthOf_opcode h] at hbytes
  rw [hbytes]
  rcases lengthOf_cases op with hl | hl | hl <;> rw [hl] <;> rfl

/-- Settles O1: the opcode byte says how many operand bytes to read, and the opcode map makes the instruction of them. -/
theorem decodeOfEncodeIsTheInstruction : Obligations.DecodeOfEncodeIsTheInstruction := by
  intro i rest hw
  obtain ⟨op, hop⟩ := opcode_of_wellFormed hw
  have hencode : encode i = op :: i.operandBytes := by simp only [encode, hop]
  have hmap := ofOpcode_opcode hop
  have hlen := length_operandBytes hop
  rw [hencode]
  generalize i.operandBytes = bytes at hmap hlen ⊢
  rcases bytes with _ | ⟨b1, _ | ⟨b2, _ | ⟨b3, bs⟩⟩⟩
  · exact (decode_of_lengthOf_one hlen.symm rest).trans (by rw [← hmap]; rfl)
  · exact (decode_of_lengthOf_two hlen.symm b1 rest).trans (by rw [← hmap]; rfl)
  · exact (decode_of_lengthOf_three hlen.symm b1 b2 rest).trans (by rw [← hmap]; rfl)
  · rcases lengthOf_cases op with h | h | h <;> simp [h] at hlen

/-- Settles O2: the decoder's instruction is well-formed, and its bytes are those that were read. -/
theorem encodeOfDecodeIsTheBytes : Obligations.EncodeOfDecodeIsTheBytes := by
  intro bytes rest i h
  obtain ⟨op, b1, b2, rfl, rfl⟩ := decode_ok h
  refine ⟨wellFormed_ofOpcode op b1 b2, by rw [encode_ofOpcode], ?_⟩
  rw [encode_ofOpcode, length_ofOpcode]
  rcases lengthOf_cases op with h | h | h <;> rw [h] <;> rfl

/-- A byte of the list R112, and no other, begins an illegal instruction. -/
theorem ofOpcode_eq_illegal_iff (op b1 b2 : Byte) : ofOpcode op b1 b2 = .illegal op ↔ op.toNat ∈ illegalOpcodes := by
  rw [← List.contains_iff_mem]
  refine ⟨fun h => ?_, ofOpcode_illegal b1 b2 op⟩
  have hw := wellFormed_ofOpcode op b1 b2
  rwa [h] at hw

/-- Settles O3: each byte has its length, and the list R112 is counted. -/
theorem everyOpcodeByteDecodes : Obligations.EveryOpcodeByteDecodes := by
  refine ⟨fun op b1 b2 rest => ?_, rfl, rfl⟩
  rcases lengthOf_cases op with h | h | h
  · exact ⟨_, _, decode_of_lengthOf_one h _, ofOpcode_eq_illegal_iff op _ _⟩
  · exact ⟨_, _, decode_of_lengthOf_two h _ _, ofOpcode_eq_illegal_iff op _ _⟩
  · exact ⟨_, _, decode_of_lengthOf_three h _ _ _, ofOpcode_eq_illegal_iff op _ _⟩

end Sys2Proof.Machine
end

section
/-! SUPPORT. Proofs about the step as a whole (40_step_cycle.md): what has happened when a step reaches its check point, the
invariant that every step keeps, and that a running machine steps on. -/

namespace Sys2Proof.Machine

/-! ### The way of a step to its check point (R120) -/

/-- What fetch, execute phase and instruction hooks of a step from `s` leave at its check point `v`. -/
structure AtCheckPoint (s v : State) : Prop where
  phase    : v.phase = s.phase
  params   : v.params = s.params
  ticks    : s.tickCount ≤ v.tickCount
  irq      : s.pendingIRQ = true → v.pendingIRQ = true
  nmi      : s.pendingNMI = true → v.pendingNMI = true
  wf       : s.bus.wf = true → v.bus.wf = true
  status   : statusFixed s.cpu.p = true → statusFixed v.cpu.p = true
  admitted : scriptAdmitted s = true → scriptAdmitted v = true ∧ v.stop = none

theorem atCheckPoint_of_exec {s u : State}
    (h : exec (fetchInstr (beginStep s)).1 (fetchInstr (beginStep s)).2 = .next u) :
    AtCheckPoint s (fireInstructionHooks u) := by
  have hfetch := (fetchInstr_busOnly (beginStep s)).hostActed
  have hp : (fetchInstr (beginStep s)).2.cpu.p = s.cpu.p := by rw [fetchInstr_cpu, beginStep_cpu]
  obtain ⟨op, extra, w, -, -, rfl, hexec, hstatus⟩ := exec_acted h
  have hacted := hfetch.trans hexec.hostActed
  have hhooks := fireInstructionHooks_hostActed (retired (fetchInstr (beginStep s)).1 op extra w)
  refine
    { phase := hhooks.phase.trans hacted.phase
      params := hhooks.params.trans hacted.params
      ticks := ?ticks
      irq := fun x => hhooks.irq (hacted.irq x)
      nmi := fun x => hhooks.nmi (hacted.nmi x)
      wf := fun x => hhooks.wf (hacted.wf x)
      status := fun x => ?status
      admitted := fun x => ?admitted }
  case ticks =>
    have hticks : w.tickCount = s.tickCount := hacted.tickCount
    rw [hhooks.tickCount, retired_tickCount, hticks]
    omega
  case status =>
    rw [fireInstructionHooks_cpu, retired_cpu]
    exact hstatus (by rwa [hp])
  case admitted =>
    obtain ⟨hscript, hstop⟩ := hacted.admitted x
    obtain ⟨hscript', hstop'⟩ := hhooks.admitted hscript
    exact ⟨hscript', hstop'.trans hstop⟩

/-- EVERYTHING A STEP CAN DO when it answers, from its check point on: the check point, with no refused call left. -/
theorem step_checkPoint {s t : State} (h : step s = .next t) :
    s.phase = .running ∧ ∃ v, AtCheckPoint s v ∧ (checkPoint v).stop = none ∧
      t = { checkPoint v with inStep := false } := by
  obtain ⟨hrunning, -, i, f, u, hf, -, hu, hstop, rfl⟩ := step_next h
  exact ⟨hrunning, _, atCheckPoint_of_exec (by rw [hf]; exact hu), hstop, rfl⟩

/-! ### The invariant -/

/-- Settles O53: every part of the invariant is a fact about the reset state's own values. -/
theorem theInvariantHoldsAtReset : Obligations.TheInvariantHoldsAtReset where
  busWf := by decide
  status := by decide
  idle := rfl
  noStop := rfl
  running := rfl

/-- Settles O52: the way to the check point and the check point each keep the invariant, and the end of the step clears
`inStep`. -/
theorem everyStepKeepsTheInvariant : Obligations.EveryStepKeepsTheInvariant := by
  intro s t hs h
  obtain ⟨hrunning, v, hv, hstop, rfl⟩ := step_checkPoint h
  obtain ⟨-, hphase, -, -, hwf, hstatus, -, -⟩ := checkPoint_keeps v
  exact
    { busWf := hwf (hv.wf hs.busWf)
      status := hstatus (hv.status hs.status)
      idle := rfl
      noStop := hstop
      running := hphase.trans (hv.phase.trans hrunning) }

/-! ### A running machine steps on (R131) -/

/-- Every well-formed instruction answers, an illegal byte under `illegalPolicy = nop` (R12, R125). -/
theorem exec_answers {i : Instr} {s : State} (hw : i.wellFormed = true) (hnop : s.params.illegalPolicy = .nop) :
    ∃ t, exec i s = .next t := by
  obtain ⟨op, hop⟩ := opcode_of_wellFormed hw
  cases i with
  | bpl d | bmi d | bvc d | bvs d | bcc d | bcs d | bne d | beq d =>
    simp only [exec, execBpl, execBmi, execBvc, execBvs, execBcc, execBcs, execBne, execBeq, branch]
    split <;> exact ⟨_, retire_of_opcode hop _ _⟩
  | illegal b =>
    simp only [exec, execIllegal, hnop]
    exact ⟨_, retire_of_opcode hop _ _⟩
  | _ => exact ⟨_, retire_of_opcode hop _ _⟩

/-- What is fetched has the form it carries (R93, R94). -/
theorem wellFormed_fetchInstr (s : State) : (fetchInstr s).1.wellFormed = true := by
  unfold fetchInstr
  dsimp only
  split <;> exact wellFormed_ofOpcode _ _ _

/-- A running step in which no call is refused and the instruction answers is a whole step (R120). -/
theorem step_eq_next {s u : State} (hrunning : s.phase = .running) (hidle : s.inStep = false)
    (hfetch : (fetchInstr (beginStep s)).2.stop = none)
    (hexec : exec (fetchInstr (beginStep s)).1 (fetchInstr (beginStep s)).2 = .next u)
    (hstop : (checkPoint (fireInstructionHooks u)).stop = none) :
    step s = .next { checkPoint (fireInstructionHooks u) with inStep := false } := by
  simp [step, hrunning, hidle, runStep, executeAndFinish, hfetch, hexec, afterExecute, endStep, hstop]

/-- Settles O47: the fetched instruction answers, and admitted callbacks leave no refused call. -/
theorem theEngineAlwaysStepsOn : Obligations.TheEngineAlwaysStepsOn := by
  intro s hrunning hidle hnop hscript
  have hfetch := fetchInstr_busOnly (beginStep s)
  obtain ⟨u, hu⟩ := exec_answers (wellFormed_fetchInstr (beginStep s)) (by rw [hfetch.params]; exact hnop)
  have hv := atCheckPoint_of_exec hu
  obtain ⟨hscriptV, hstopV⟩ := hv.admitted hscript
  obtain ⟨-, hphase, -, hparams, -, -, hadmitted, -⟩ := checkPoint_keeps (fireInstructionHooks u)
  obtain ⟨hscriptT, hstopT⟩ := hadmitted hscriptV
  exact ⟨_, step_eq_next hrunning hidle (hfetch.admitted hscript).2 hu (hstopT.trans hstopV),
    hphase.trans (hv.phase.trans hrunning), rfl, hparams.trans hv.params, hscriptT⟩

end Sys2Proof.Machine
end

section
/-! SUPPORT. Proofs about cells and operands (20_memory.md R56, R57; 30_encoding.md R99 to R110): what a write leaves in the
cells, and where the effective addresses lie. -/

namespace Sys2Proof.Machine

/-! ### Cells after writes -/

/-- A sequence of stores keeps every cell but those stored to. -/
theorem keepsCellsBut_of_stores {s t : State} (stores : List (Word × Byte))
    (h : t.bus.cells = stores.foldl (fun m c => writeCell m c.1.toNat c.2) s.bus.cells) :
    KeepsCellsBut (stores.map Prod.fst) s t := by
  intro b hb
  rw [cellAt, h, cellAt]
  clear h
  generalize s.bus.cells = m
  induction stores generalizing m with
  | nil => rfl
  | cons c cs ih =>
    rw [List.map_cons, List.mem_cons, not_or] at hb
    rw [List.foldl_cons, ih hb.2, readCell_writeCell, if_neg fun hc => hb.1 (BitVec.eq_of_toNat_eq hc)]

/-- One store gives its cell the byte and keeps every other cell. -/
theorem stored_of_cells {s t : State} {a : Word} {v : Byte} (h : t.bus.cells = writeCell s.bus.cells a.toNat v) :
    cellAt t a = v ∧ KeepsCellsBut [a] s t :=
  ⟨by simp [cellAt, h], keepsCellsBut_of_stores [(a, v)] h⟩

/-- Cells that stay keep every cell, whatever is listed as stored to. -/
theorem keepsCellsBut_of_cells_eq {s t : State} (h : t.bus.cells = s.bus.cells) (stored : List Word) :
    KeepsCellsBut stored s t := by
  intro a _
  rw [cellAt, h, cellAt]

/-! ### CPU reads (R56, R81) -/

theorem readValue_bound {a : Word} {s : State} (h : s.bus.rngBinding = some a) :
    readValue a s = (Config.rngDraw s.rngDraws, { s with rngDraws := s.rngDraws + 1 }) := if_pos h

theorem readValue_unbound {a : Word} {s : State} (h : s.bus.rngBinding ≠ some a) :
    readValue a s = (readCell s.bus.cells a.toNat, s) := if_neg h

/-- A read gives the value that was fixed before its hook ran (R58). -/
theorem memRead_value (a : Word) (s : State) : (memRead a s).1 = (readValue a s).1 := rfl

/-- A read uses up as many draws as its value does: a hook draws none. -/
theorem memRead_rngDraws (a : Word) (s : State) : (memRead a s).2.rngDraws = (readValue a s).2.rngDraws :=
  fireBusHook_rngDraws _ _ _ _

/-- Settles O8: the binding decides the value of a read, and the store beneath it fills the cell. -/
theorem boundAddressReadsDraws : Obligations.BoundAddressReadsDraws := by
  intro a v s hbound hs
  have hcell : readCell (memWrite a v s).bus.cells a.toNat = v := by simp [memWrite_cells hs]
  refine ⟨?value, ?draws, ?afterStore, ?bulk, memRead_cells hs⟩
  case value => rw [memRead_value, readValue_bound hbound]
  case draws => rw [memRead_rngDraws, readValue_bound hbound]
  case afterStore =>
    have hbound' : (storeCell a v s).bus.rngBinding = some a := hbound
    rw [memRead_value, readValue_bound hbound']
    rfl
  case bulk =>
    have hlt := a.isLt
    rw [bulkRead, if_neg (by omega)]
    simp [readCells, hcell]

/-- Settles O9: a write changes the one cell, and off the bound address a read gives it. -/
theorem readAfterWriteGivesTheByte : Obligations.ReadAfterWriteGivesTheByte := by
  intro a v s hs
  obtain ⟨hcell, hkeep⟩ := stored_of_cells (s := s) (t := memWrite a v s) (memWrite_cells hs)
  refine ⟨hcell, hkeep, fun hunbound => ?_⟩
  rw [memRead_value, readValue_unbound hunbound]
  exact hcell

/-! ### Effective addresses -/

theorem zeroPage_add_toNat (z index : Byte) : (zeroPage (z + index)).toNat = (z.toNat + index.toNat) % 256 := by
  rw [zeroPage_toNat, BitVec.toNat_add]

/-- The page cross of an indexed sum, by page numbers (R105, R106, R109). -/
theorem indexed_cross_iff (base : Word) (index : Byte) (s : State) :
    (indexed base index s).cross = true ↔ base.toNat / 256 ≠ (base.toNat + index.toNat) % 65536 / 256 := by
  rw [← indexed_ea_toNat base index s]
  exact crosses_iff _ _

/-- Settles O13: page-zero sums wrap in page zero, 16-bit sums mod 65536. -/
theorem indexedAddressesWrap : Obligations.IndexedAddressesWrap := by
  intro s z a
  refine ⟨?state, zeroPage_toNat z, zeroPage_add_toNat z _, zeroPage_add_toNat z _, rfl, indexed_ea_toNat a _ s,
    indexed_ea_toNat a _ s, indexed_cross_iff a _ s, indexed_cross_iff a _ s⟩
  rintro m (rfl | rfl | rfl | rfl | rfl | rfl) <;> rfl

/-- A page-zero address as a number (R70). -/
theorem zeroPage_eq_ofNat (z : Byte) : zeroPage z = BitVec.ofNat 16 z.toNat :=
  BitVec.eq_of_toNat_eq (by rw [zeroPage_toNat, BitVec.toNat_ofNat]; omega)

/-- A page-zero pointer over plain cells, its two addresses as numbers (R108, R109). -/
theorem cellPointer_eq_wordAt (p : Byte) (s : State) :
    cellPointer p s = wordAt s (BitVec.ofNat 16 p.toNat) (BitVec.ofNat 16 ((p.toNat + 1) % 256)) := by
  have hnext : (p.toNat + 1) % 256 = (p + 1).toNat := (BitVec.toNat_add p 1).symm
  rw [hnext, ← zeroPage_eq_ofNat, ← zeroPage_eq_ofNat]
  rfl

/-- A pointer read in page zero over plain cells. -/
theorem zeroPagePointer_quiet {s : State} (h : Quiet s) (p : Byte) : zeroPagePointer p s = (cellPointer p s, s) :=
  readPair_quiet h _ _

/-- `(zp),Y` over plain cells is an indexed sum from its pointer (R109). -/
theorem resolve_indY_quiet {s : State} (h : Quiet s) (z : Byte) :
    resolve (.indY z) s = indexed (cellPointer z s) s.cpu.y s := by
  simp only [resolve, zeroPagePointer_quiet h]

/-- Settles O14: both pointers are page-zero pointers, and the (zp),Y sum is an indexed one. -/
theorem indirectAddressesUsePageZero : Obligations.IndirectAddressesUsePageZero := by
  intro s z h p base
  have hbase : cellPointer z s = base := cellPointer_eq_wordAt z s
  have hp : p = (z + s.cpu.x).toNat := (BitVec.toNat_add z s.cpu.x).symm
  refine ⟨resolve_quiet_state h _, resolve_quiet_state h _, ?indX, ?indY, ?cross⟩
  case indX =>
    rw [resolve_quiet_ea h, hp]
    exact cellPointer_eq_wordAt _ s
  case indY => rw [resolve_indY_quiet h, indexed_ea_toNat, hbase]
  case cross => rw [resolve_indY_quiet h, indexed_cross_iff, indexed_ea_toNat, hbase]

/-- Settles O15: with no hook and no RNG binding a read of the effective address is a read of its cell. -/
theorem readOperandsGiveTheCell : Obligations.ReadOperandsGiveTheCell := by
  intro s v m
  refine ⟨rfl, rfl, fun h => ⟨?_, readOperand_quiet_state h _⟩⟩
  rw [readOperand_quiet_mem h, ← resolve_quiet_ea h]
  rfl

end Sys2Proof.Machine
end

section
/-! SUPPORT. Proofs about loads, stores and the stack instructions (41_load_store.md, 42_transfer_stack.md), and the rules for the
read and the write class. -/

namespace Sys2Proof.Machine

/-! ### The read and the write class (R111) -/

/-- An instruction of the read class completes in every state, with the registers its act leaves. -/
theorem exec_read {i : Instr} {o : ReadOperand} {act : Byte → State → State} {s : State} (hw : i.wellFormed = true)
    (hexec : exec i s = readClass i o act s) :
    ∃ t, exec i s = .next t ∧ t.cpu = (act (readOperand o s).value (readOperand o s).state).cpu := by
  obtain ⟨op, -, h⟩ := readClass_next hw o act s
  exact ⟨_, hexec.trans h, rfl⟩

/-- An instruction of the write class completes in every state, leaves every register, and stores its byte in the one cell of
the effective address. -/
theorem exec_write {i : Instr} {m : MemMode} {v : Byte} {s : State} (hw : i.wellFormed = true)
    (hexec : exec i s = writeClass i m v s) :
    ∃ t, exec i s = .next t ∧ t.cpu = s.cpu ∧
      (HostStoresNothing s → cellAt t (resolve m s).ea = v ∧ KeepsCellsBut [(resolve m s).ea] s t) := by
  obtain ⟨op, -, h⟩ := writeClass_next hw m v s
  refine ⟨_, hexec.trans h, by simp, fun hs => stored_of_cells ?_⟩
  rw [retired_bus, memWrite_cells ((resolve_busOnly m s).storeless hs), resolve_cells hs]

/-- Settles O16: each load writes its register, then N and Z, from the operand. -/
theorem loadsPutTheOperandInTheRegister : Obligations.LoadsPutTheOperandInTheRegister := by
  intro s o v
  have hflags : SetsNZ v s.cpu.p (withNZ v (readOperand o s).state.cpu.p) := by simpa using setsNZ_withNZ v s.cpu.p
  refine ⟨fun hw => ?lda, fun hw => ?ldx, fun hw => ?ldy⟩
  case lda =>
    obtain ⟨t, ht, hcpu⟩ := exec_read (o := o) (act := fun m u => setNZ m (setA m u)) hw rfl
    exact ⟨t, ht, by rw [hcpu]; rfl, by rw [hcpu]; exact hflags⟩
  case ldx =>
    obtain ⟨t, ht, hcpu⟩ := exec_read (o := o) (act := fun m u => setNZ m (setX m u)) hw rfl
    exact ⟨t, ht, by rw [hcpu]; rfl, by rw [hcpu]; exact hflags⟩
  case ldy =>
    obtain ⟨t, ht, hcpu⟩ := exec_read (o := o) (act := fun m u => setNZ m (setY m u)) hw rfl
    exact ⟨t, ht, by rw [hcpu]; rfl, by rw [hcpu]; exact hflags⟩

/-- Settles O17: the three stores are one, each with its register. -/
theorem storesPutTheRegisterInTheCell : Obligations.StoresPutTheRegisterInTheCell := by
  intro s m ea
  exact ⟨fun hw => exec_write hw rfl, fun hw => exec_write hw rfl, fun hw => exec_write hw rfl⟩

/-! ### The stack (R23, R156 to R159) -/

/-- The stack address of a byte as a number. -/
theorem stackAddr_eq_ofNat (sp : Byte) : stackAddr sp = BitVec.ofNat 16 (0x0100 + sp.toNat) :=
  BitVec.eq_of_toNat_eq (by rw [stackAddr_toNat, BitVec.toNat_ofNat]; omega)

/-- An instruction that pushes a byte and retires completes in every state. -/
theorem exec_push {i : Instr} {op v : Byte} {s : State} (hop : i.opcode = some op)
    (hexec : exec i s = retire i 0 (push v s)) :
    ∃ t, exec i s = .next t ∧ t.cpu = { s.cpu with s := s.cpu.s - 1 } ∧
      (HostStoresNothing s → cellAt t (stackAddr s.cpu.s) = v ∧ KeepsCellsBut [stackAddr s.cpu.s] s t) :=
  ⟨_, hexec.trans (retire_of_opcode hop _ _), push_cpu v s, fun hs => stored_of_cells (push_cells hs)⟩

/-- Settles O19: both are one push, PHP of the copy with bits 5 and 4 set. -/
theorem pushesStoreBelowTheStack : Obligations.PushesStoreBelowTheStack := by
  intro s slot
  have hslot : stackAddr s.cpu.s = slot := stackAddr_eq_ofNat s.cpu.s
  rw [← hslot]
  exact ⟨exec_push rfl rfl, exec_push rfl rfl⟩

/-- With no hook and no RNG binding a pull gives the cell above S (R11). -/
theorem pull_quiet_value {s : State} (h : Quiet s) : (pull s).1 = cellAt s (stackAddr (s.cpu.s + 1)) := by
  rw [pull_quiet h]
  rfl

/-- Settles O20: both are one pull; PLA writes A and its flags, PLP writes P whole. -/
theorem pullsLoadFromTheStack : Obligations.PullsLoadFromTheStack := by
  intro s v
  have hop : Instr.pla.opcode = some 0x68 := rfl
  have hop' : Instr.plp.opcode = some 0x28 := rfl
  refine ⟨⟨_, retire_of_opcode hop _ _, ?pla, ?flags⟩, ⟨_, retire_of_opcode hop' _ _, ?plp⟩, fun h => ?quiet⟩
  case pla => simp [v]
  case flags => simpa using setsNZ_withNZ v s.cpu.p
  case plp => simp [writePByte, v]
  case quiet =>
    have hnext : (s.cpu.s.toNat + 1) % 256 = (s.cpu.s + 1).toNat := (BitVec.toNat_add s.cpu.s 1).symm
    rw [hnext, ← stackAddr_eq_ofNat]
    exact pull_quiet_value h

end Sys2Proof.Machine
end

section
/-! SUPPORT. Proofs about decimal arithmetic (43_arithmetic.md R161 to R165): bytes as two digits, the decimal sum and difference
as arithmetic on digits, and ADC and SBC. -/

namespace Sys2Proof.Machine

/-! ### A byte as its two digits (R14) -/

theorem low_digit (n : Nat) : n &&& 0x0F = n % 16 := Nat.and_two_pow_sub_one_eq_mod n 4

theorem high_digit (a : Byte) : a.toNat &&& 0xF0 = a.toNat / 16 * 16 := by
  revert a
  decide

theorem isBcd_iff (b : Byte) : isBcd b = true ↔ b.toNat % 16 < 10 ∧ b.toNat / 16 < 10 := by simp [isBcd]

/-- A byte made of two decimal digits is valid and stands for their number. -/
theorem bcd_of_digits {b : Byte} {high low : Nat} (h : b.toNat = high * 16 + low) (hhigh : high < 10) (hlow : low < 10) :
    isBcd b = true ∧ bcdValue b = high * 10 + low := by
  rw [isBcd_iff, bcdValue]
  omega

/-- The statements' carry is the model's. -/
theorem carry_eq_bitNat (c : Bool) : (if c then 1 else 0 : Nat) = bitNat c := by cases c <;> rfl

/-! ### The decimal sum by digits (R161) -/

/-- The sum of the low digits and the carry in. -/
def lowSum (a m : Byte) (c : Bool) : Nat := a.toNat % 16 + m.toNat % 16 + bitNat c

/-- The sum of the high digits and the low digit's carry: the high digit of `t1` (R163). -/
def highSum (a m : Byte) (c : Bool) : Nat := a.toNat / 16 + m.toNat / 16 + (if lowSum a m c ≥ 10 then 1 else 0)

/-- `t1` has the high digit `highSum` over the corrected low digit, for all operands. -/
theorem decimalSum_eq (a m : Byte) (c : Bool) : decimalSum a m c =
    highSum a m c * 16 + (if lowSum a m c ≥ 10 then (lowSum a m c + 6) % 16 else lowSum a m c) := by
  have hlow : a.toNat % 16 + m.toNat % 16 + bitNat c = lowSum a m c := rfl
  simp only [decimalSum, decimalLowDigit, high_digit, low_digit, highSum, hlow]
  by_cases h : lowSum a m c ≥ 10
  · simp only [if_pos h]
    omega
  · simp only [if_neg h]
    omega

theorem decimalSum_div (a m : Byte) (c : Bool) : decimalSum a m c / 16 = highSum a m c := by
  rw [decimalSum_eq]
  split <;> omega

/-- Valid operands carry by tens (R14, R161). -/
theorem decimalSum_of_bcd {a m : Byte} (c : Bool) (ha : isBcd a = true) (hm : isBcd m = true) :
    decimalSum a m c = (a.toNat / 16 + m.toNat / 16 + lowSum a m c / 10) * 16 + lowSum a m c % 10 := by
  rw [isBcd_iff] at ha hm
  have hc := bitNat_le c
  have hlow : lowSum a m c ≤ 19 := by rw [lowSum]; omega
  rw [decimalSum_eq, highSum]
  by_cases h : lowSum a m c ≥ 10
  · simp only [if_pos h]
    omega
  · simp only [if_neg h]
    omega

/-- The high-digit adjust of `AddDecimal` leaves the high digit mod 10 (R161). -/
theorem adjusted_mod_256 {high low : Nat} (hhigh : high < 20) (hlow : low < 10) :
    ((if high ≥ 10 then high + 6 else high) * 16 + low) % 256 = high % 10 * 16 + low := by
  split <;> omega

/-- Decimal addition of valid operands is exact mod 100 (R161). -/
theorem addDecimal_of_bcd (how : Config.DecimalFlags) {a m : Byte} (c : Bool) (ha : isBcd a = true) (hm : isBcd m = true) :
    isBcd (addDecimal how a m c).result = true ∧
      bcdValue (addDecimal how a m c).result = (bcdValue a + bcdValue m + bitNat c) % 100 ∧
      ((addDecimal how a m c).c = true ↔ bcdValue a + bcdValue m + bitNat c ≥ 100) := by
  have ht1 := decimalSum_of_bcd c ha hm
  rw [isBcd_iff] at ha hm
  have hc := bitNat_le c
  have hlow : lowSum a m c = a.toNat % 16 + m.toNat % 16 + bitNat c := rfl
  generalize hhigh : a.toNat / 16 + m.toNat / 16 + lowSum a m c / 10 = high at ht1
  have ht : decimalAdjusted a m c = (if high ≥ 10 then high + 6 else high) * 16 + lowSum a m c % 10 := by
    rw [decimalAdjusted, ht1]
    split <;> split <;> omega
  have hresult : (addDecimal how a m c).result.toNat = high % 10 * 16 + lowSum a m c % 10 := by
    have hmod : (addDecimal how a m c).result.toNat = decimalAdjusted a m c % 256 := BitVec.toNat_ofNat _ _
    rw [hmod, ht]
    exact adjusted_mod_256 (by omega) (by omega)
  have hcarry : (addDecimal how a m c).c = true ↔ high ≥ 10 := by
    have hc' : (addDecimal how a m c).c = decide (decimalAdjusted a m c ≥ 0x100) := rfl
    rw [hc', decide_eq_true_iff, ht]
    split <;> omega
  obtain ⟨hbcd, hvalue⟩ := bcd_of_digits hresult (by omega) (by omega)
  rw [hvalue, hcarry, bcdValue, bcdValue]
  exact ⟨hbcd, by omega, by omega⟩

/-! ### The decimal difference by digits (R165) -/

/-- The difference of the low digits and the borrow in. -/
def lowDiff (a m : Byte) (c : Bool) : Int := (a.toNat % 16 : Nat) - (m.toNat % 16 : Nat) + bitNat c - 1

/-- The decimal difference of valid operands borrows by tens (R165). -/
theorem subDecimal_of_bcd {a m : Byte} (c : Bool) (ha : isBcd a = true) (hm : isBcd m = true) :
    ((subDecimal a m c).toNat : Int) =
      ((a.toNat / 16 : Nat) - (m.toNat / 16 : Nat) + lowDiff a m c / 10) % 10 * 16 + lowDiff a m c % 10 := by
  rw [isBcd_iff] at ha hm
  have hc := bitNat_le c
  have hlow : lowDiff a m c = (a.toNat % 16 : Nat) - (m.toNat % 16 : Nat) + bitNat c - 1 := rfl
  simp only [subDecimal, low_digit, high_digit, BitVec.toNat_ofInt, ← hlow]
  split <;> split <;> omega

/-- C after a subtraction, binary or decimal, says that no borrow occurred (R164, log 3). -/
theorem subtractDecimal_c_iff (how : Config.DecimalFlags) (a m : Byte) (c : Bool) :
    (subtractDecimal how a m c).c = true ↔ m.toNat + 1 ≤ a.toNat + bitNat c := by
  have hc : (subtractDecimal how a m c).c = (addBinary a (~~~m) c).c := rfl
  rw [hc, addBinary_c_iff, BitVec.toNat_not]
  omega

/-- Decimal subtraction of valid operands is exact mod 100, with C 0 on a borrow (R165). -/
theorem subtractDecimal_of_bcd (how : Config.DecimalFlags) {a m : Byte} (c : Bool) (ha : isBcd a = true)
    (hm : isBcd m = true) :
    isBcd (subtractDecimal how a m c).result = true ∧
      (bcdValue (subtractDecimal how a m c).result : Int) = ((bcdValue a : Int) - bcdValue m - (1 - bitNat c)) % 100 ∧
      ((subtractDecimal how a m c).c = false ↔ (bcdValue a : Int) - bcdValue m - (1 - bitNat c) < 0) := by
  have hdigits : ((subtractDecimal how a m c).result.toNat : Int) = _ := subDecimal_of_bcd c ha hm
  rw [isBcd_iff] at ha hm
  have hc := bitNat_le c
  have hlow : lowDiff a m c = (a.toNat % 16 : Nat) - (m.toNat % 16 : Nat) + bitNat c - 1 := rfl
  generalize hhigh : ((a.toNat / 16 : Nat) : Int) - (m.toNat / 16 : Nat) + lowDiff a m c / 10 = high at hdigits
  obtain ⟨hbcd, hvalue⟩ := bcd_of_digits (b := (subtractDecimal how a m c).result) (high := (high % 10).toNat)
    (low := (lowDiff a m c % 10).toNat) (by omega) (by omega) (by omega)
  rw [hvalue, ← Bool.not_eq_true, subtractDecimal_c_iff, bcdValue, bcdValue]
  exact ⟨hbcd, by omega, by omega⟩

/-- Settles O22: both are arithmetic on digits that carry and borrow by tens. -/
theorem decimalArithmeticIsBcd : Obligations.DecimalArithmeticIsBcd := by
  intro how a m c ha hm r sum q difference
  have hsum : sum = bcdValue a + bcdValue m + bitNat c := by rw [← carry_eq_bitNat]
  have hdifference : difference = (bcdValue a : Int) - bcdValue m - (1 - bitNat c) := by rw [← borrow_eq]
  rw [hsum, hdifference]
  exact ⟨addDecimal_of_bcd how c ha hm, subtractDecimal_of_bcd how c ha hm⟩

/-! ### The NMOS flags of decimal mode (R163) -/

/-- Bit 7 of `t1` is the top bit of its high digit. -/
theorem decimalSum_bit7 (a m : Byte) (c : Bool) : (decimalSum a m c).testBit 7 = decide (highSum a m c % 16 ≥ 8) := by
  have hhigh := decimalSum_div a m c
  rw [Nat.testBit_eq_decide_div_mod_eq, decide_eq_decide]
  omega

/-- V of decimal addition: the operands share a sign that `t1` has not (R163). -/
theorem overflowOf_decimalSum_iff (a m : Byte) (c : Bool) : overflowOf a m (BitVec.ofNat 8 (decimalSum a m c)) = true ↔
    a.getLsbD 7 = m.getLsbD 7 ∧ a.getLsbD 7 ≠ decide (highSum a m c % 16 ≥ 8) := by
  have hbit : (BitVec.ofNat 8 (decimalSum a m c)).msb = (decimalSum a m c).testBit 7 := by
    rw [BitVec.msb_eq_getLsbD_last, BitVec.getLsbD_ofNat]
    rfl
  rw [overflowOf_iff, ← decimalSum_bit7, hbit, BitVec.msb_eq_getLsbD_last, BitVec.msb_eq_getLsbD_last]

/-- Settles O23: N and V are read from the high digit of `t1`, Z from the binary sum, and SBC's flags are the binary ones. -/
theorem decimalFlagsAreNmos : Obligations.DecimalFlagsAreNmos := by
  intro a m c carry low high r q b
  have hcarry : carry = bitNat c := carry_eq_bitNat c
  have hhigh : highSum a m c = high := by rw [highSum, lowSum, ← hcarry]
  refine ⟨?z, ?n, ?v, rfl, rfl, rfl, rfl⟩
  case z =>
    rw [hcarry]
    exact decide_eq_true_iff
  case n =>
    rw [← hhigh, ← decide_eq_true_iff (p := _ ≥ 8), ← decimalSum_bit7]
    rfl
  case v =>
    rw [← hhigh]
    exact overflowOf_decimalSum_iff a m c

/-! ### ADC and SBC (R162, R164) -/

/-- An instruction of the read class that puts an ALU result in A and its flags in P completes in every state. -/
theorem exec_alu {i : Instr} (hw : i.wellFormed = true) (o : ReadOperand)
    (alu : Config.Params → Byte → Byte → Byte → AluResult) {s : State}
    (hexec : exec i s = readClass i o (fun m t =>
      setP (withNVZC (alu t.params t.cpu.p t.cpu.a m) t.cpu.p) (setA (alu t.params t.cpu.p t.cpu.a m).result t)) s) :
    ∃ t, exec i s = .next t ∧ t.cpu.a = (alu s.params s.cpu.p s.cpu.a (readOperand o s).value).result ∧
      SetsNVZC (alu s.params s.cpu.p s.cpu.a (readOperand o s).value) s.cpu.p t.cpu.p := by
  obtain ⟨t, ht, hcpu⟩ := exec_read hw hexec
  rw [setP_cpu, setA_cpu, readOperand_cpu, (readOperand_busOnly o s).params] at hcpu
  refine ⟨t, ht, by rw [hcpu], ?_⟩
  rw [hcpu]
  exact setsNVZC_withNVZC _ _

/-- Settles O24: each writes its ALU result, which D chooses. -/
theorem adcAndSbcWriteTheResult : Obligations.AdcAndSbcWriteTheResult := by
  intro s o v a c
  refine ⟨fun hw => ?adc, fun hw => ?sbc⟩
  case adc =>
    obtain ⟨t, ht, ha, hflags⟩ := exec_alu hw o adcResult rfl
    refine ⟨t, ht, fun hd => ?_, fun hd => ?_⟩
    · rw [adcResult, if_neg (by simp [hd])] at ha hflags
      exact ⟨ha, hflags⟩
    · rw [adcResult, if_pos hd] at ha hflags
      exact ⟨ha, hflags⟩
  case sbc =>
    obtain ⟨t, ht, ha, hflags⟩ := exec_alu hw o sbcResult rfl
    refine ⟨t, ht, fun hd => ?_, fun hd => ?_⟩
    · rw [sbcResult, if_neg (by simp [hd])] at ha hflags
      exact ⟨ha, hflags⟩
    · rw [sbcResult, if_pos hd] at ha hflags
      exact ⟨ha, hflags⟩

end Sys2Proof.Machine
end

section
/-! SUPPORT. Proofs about the logic instructions, INC and DEC, and the shifts (44_logic_bit.md, 45_inc_dec_shift.md), and the rule
for the read-modify-write class. -/

namespace Sys2Proof.Machine

/-! ### Logic (R170 to R173) -/

/-- An instruction of the read class that puts `f A M` in A and sets N and Z from it completes in every state. -/
theorem exec_logic {i : Instr} (hw : i.wellFormed = true) (o : ReadOperand) (f : Byte → Byte → Byte) {s : State}
    (hexec : exec i s = readClass i o (fun m t => setNZ (f t.cpu.a m) (setA (f t.cpu.a m) t)) s) :
    ∃ t, exec i s = .next t ∧ t.cpu.a = f s.cpu.a (readOperand o s).value ∧ SetsNZ t.cpu.a s.cpu.p t.cpu.p := by
  obtain ⟨t, ht, hcpu⟩ := exec_read hw hexec
  rw [setNZ_eq, setP_cpu, setA_cpu, readOperand_cpu] at hcpu
  refine ⟨t, ht, by rw [hcpu], ?_⟩
  rw [hcpu]
  exact setsNZ_withNZ _ _

theorem keepsFlagsBut_withBit (a m p : Byte) : KeepsFlagsBut [.z, .n, .v] p (withBit a m p) where
  flags f h := by simp at h; simp [h]
  bit5 := by simp only [withBit, bit5_withFlag]

/-- BIT completes in every state and writes P only. -/
theorem exec_bit {m : MemMode} {s : State} (hw : (Instr.bit m).wellFormed = true) :
    ∃ t, exec (.bit m) s = .next t ∧
      t.cpu = { s.cpu with p := withBit s.cpu.a (readOperand (.mem m) s).value s.cpu.p } := by
  obtain ⟨t, ht, hcpu⟩ := exec_read (o := .mem m) (act := fun v t => setP (withBit t.cpu.a v t.cpu.p) t) hw rfl
  exact ⟨t, ht, by rw [hcpu, setP_cpu, readOperand_cpu]⟩

/-- Settles O26: the three write A through their operation, whose bits are those of the operands; BIT writes flags only. -/
theorem logicWritesBitByBit : Obligations.LogicWritesBitByBit := by
  intro s o m v b
  refine ⟨fun hw => ?and, fun hw => ?eor, fun hw => ?ora, fun hw => ?bit⟩
  case and =>
    obtain ⟨t, ht, ha, hflags⟩ := exec_logic hw o (· &&& ·) rfl
    exact ⟨t, ht, hflags, fun k => by rw [ha, BitVec.getLsbD_and]⟩
  case eor =>
    obtain ⟨t, ht, ha, hflags⟩ := exec_logic hw o (· ^^^ ·) rfl
    exact ⟨t, ht, hflags, fun k => by rw [ha, BitVec.getLsbD_xor]⟩
  case ora =>
    obtain ⟨t, ht, ha, hflags⟩ := exec_logic hw o (· ||| ·) rfl
    exact ⟨t, ht, hflags, fun k => by rw [ha, BitVec.getLsbD_or]⟩
  case bit =>
    obtain ⟨t, ht, hcpu⟩ := exec_bit (s := s) hw
    have hp : t.cpu.p = withBit s.cpu.a b s.cpu.p := by rw [hcpu]
    refine ⟨t, ht, by rw [hcpu], ?_⟩
    rw [hp]
    exact ⟨by simp [Bool.beq_eq_decide_eq], by simp, by simp, keepsFlagsBut_withBit _ _ _⟩

/-! ### The read-modify-write class (R111) -/

/-- An instruction that reads a cell, writes `f` of its byte back and sets flags from it completes in every state, leaves every
register but P, and stores in the one cell of the effective address. -/
theorem exec_modify {i : Instr} {m : MemMode} (f : Byte → Byte) (flags : Byte → Byte → Byte) {s : State}
    (hw : i.wellFormed = true)
    (hexec : exec i s = retire i 0 (modifyMem m f (fun v t => setP (flags v t.cpu.p) t) s)) :
    ∃ t, exec i s = .next t ∧ t.cpu = { s.cpu with p := flags (dataAt m s) s.cpu.p } ∧
      (HostStoresNothing s → cellAt t (resolve m s).ea = f (dataAt m s) ∧ KeepsCellsBut [(resolve m s).ea] s t) := by
  obtain ⟨op, hop⟩ := opcode_of_wellFormed hw
  refine ⟨_, hexec.trans (retire_of_opcode hop _ _), ?_, fun hs => stored_of_cells (modifyMem_cells hs fun _ _ => rfl)⟩
  simp [modifyMem, dataAt]

/-! ### INC and DEC (R180, R181) -/

theorem ofNat_succ (v : Byte) : BitVec.ofNat 8 (v.toNat + 1) = v + 1 := by
  apply BitVec.eq_of_toNat_eq
  rw [BitVec.toNat_ofNat, BitVec.toNat_add]
  rfl

theorem ofNat_add_255 (v : Byte) : BitVec.ofNat 8 (v.toNat + 255) = v - 1 :=
  BitVec.eq_of_toNat_eq (by rw [BitVec.toNat_ofNat, byte_sub_one_toNat])

/-- With no hook and no RNG binding the data byte is the cell of the effective address. -/
theorem dataAt_quiet {s : State} (h : Quiet s) (m : MemMode) : dataAt m s = cellAt s (resolve m s).ea := by
  rw [dataAt, resolve_quiet_state h, memRead_quiet h]
  rfl

/-- Settles O27: both are one read-modify-write, up or down by one. -/
theorem incAndDecWriteTheCell : Obligations.IncAndDecWriteTheCell := by
  intro s m ea up down
  have hup : up = dataAt m s + 1 := ofNat_succ _
  have hdown : down = dataAt m s - 1 := ofNat_add_255 _
  rw [hup, hdown]
  refine ⟨fun hw => ?inc, fun hw => ?dec, fun h => dataAt_quiet h m⟩
  case inc =>
    obtain ⟨t, ht, hcpu, hcells⟩ := exec_modify (m := m) (s := s) (· + 1) (fun v => withNZ (v + 1)) hw rfl
    exact ⟨t, ht, by rw [hcpu], by rw [hcpu]; exact setsNZ_withNZ _ _, hcells⟩
  case dec =>
    obtain ⟨t, ht, hcpu, hcells⟩ := exec_modify (m := m) (s := s) (· - 1) (fun v => withNZ (v - 1)) hw rfl
    exact ⟨t, ht, by rw [hcpu], by rw [hcpu]; exact setsNZ_withNZ _ _, hcells⟩

/-! ### Shifts and rotates (R186 to R189) -/

/-- The four shifts as arithmetic on the byte and the old C: the result mod 256, and the bit shifted out. -/
theorem aslByte_eq : ∀ v : Byte, aslByte v = ⟨BitVec.ofNat 8 (2 * v.toNat), decide (v.toNat ≥ 128)⟩ := by decide

theorem lsrByte_eq : ∀ v : Byte, lsrByte v = ⟨BitVec.ofNat 8 (v.toNat / 2), decide (v.toNat % 2 = 1)⟩ := by decide

theorem rolByte_eq (c : Bool) :
    ∀ v : Byte, rolByte c v = ⟨BitVec.ofNat 8 (2 * v.toNat + bitNat c), decide (v.toNat ≥ 128)⟩ := by
  cases c <;> decide

theorem rorByte_eq (c : Bool) :
    ∀ v : Byte, rorByte c v = ⟨BitVec.ofNat 8 (v.toNat / 2 + 128 * bitNat c), decide (v.toNat % 2 = 1)⟩ := by
  cases c <;> decide

/-- An accumulator shift completes in every state and writes A and the flags of its result. -/
theorem exec_shift_acc {i : Instr} {op : Byte} {f : Byte → ShiftResult} {s : State} {r n : Nat} {out : Bool}
    (hop : i.opcode = some op) (hexec : exec i s = retire i 0 (shiftOperand .acc f s))
    (hf : f s.cpu.a = ⟨BitVec.ofNat 8 r, out⟩) (hr : r % 256 = n) :
    ∃ t, exec i s = .next t ∧ t.cpu = { s.cpu with a := t.cpu.a, p := t.cpu.p } ∧ t.cpu.a.toNat = n ∧
      SetsCNZ out t.cpu.a s.cpu.p t.cpu.p := by
  refine ⟨_, hexec.trans (retire_of_opcode hop _ _), rfl, ?_⟩
  simp only [retired_cpu, shiftOperand, setP_cpu, setA_cpu, hf]
  exact ⟨hr, setsCNZ_withShift ⟨BitVec.ofNat 8 r, out⟩ _⟩

/-- Settles O29: each form is its shift of A and the old C. -/
theorem accumulatorShiftsAreArithmetic : Obligations.AccumulatorShiftsAreArithmetic := by
  intro s v c
  have hv : v < 256 := s.cpu.a.isLt
  have hc : c = bitNat (flagOf .c s.cpu.p) := carry_eq_bitNat _
  have hle := bitNat_le (flagOf .c s.cpu.p)
  rw [hc]
  refine ⟨?asl, ?lsr, ?rol, ?ror⟩
  case asl => exact exec_shift_acc rfl rfl (aslByte_eq _) rfl
  case lsr => exact exec_shift_acc rfl rfl (lsrByte_eq _) (by omega)
  case rol => exact exec_shift_acc rfl rfl (rolByte_eq _ _) rfl
  case ror => exact exec_shift_acc rfl rfl (rorByte_eq _ _) (by omega)

/-- A memory shift completes in every state, writes the flags of its result, and stores it in the one cell of the effective
address. -/
theorem exec_shift_mem {i : Instr} {m : MemMode} {f : Byte → ShiftResult} {s : State} {r : Byte} {out : Bool}
    (hexec : exec i s = retire i 0 (shiftOperand (.mem m) f s)) (hf : f (dataAt m s) = ⟨r, out⟩)
    (hw : i.wellFormed = true) :
    ∃ t, exec i s = .next t ∧ t.cpu = { s.cpu with p := t.cpu.p } ∧ SetsCNZ out r s.cpu.p t.cpu.p ∧
      (HostStoresNothing s → cellAt t (resolve m s).ea = r ∧ KeepsCellsBut [(resolve m s).ea] s t) := by
  obtain ⟨t, ht, hcpu, hcells⟩ := exec_modify (fun v => (f v).result) (fun v => withShift (f v)) hw hexec
  rw [hf] at hcpu hcells
  exact ⟨t, ht, by rw [hcpu], by rw [hcpu]; exact setsCNZ_withShift ⟨r, out⟩ _, hcells⟩

/-- Settles O30: each form is its shift of the byte read and the old C. -/
theorem memoryShiftsWriteTheCell : Obligations.MemoryShiftsWriteTheCell := by
  intro s m ea v c shifts
  have hc : c = bitNat (flagOf .c s.cpu.p) := carry_eq_bitNat _
  rw [hc]
  refine ⟨?asl, ?lsr, ?rol, ?ror⟩
  case asl => exact exec_shift_mem rfl (aslByte_eq _)
  case lsr => exact exec_shift_mem rfl (lsrByte_eq _)
  case rol => exact exec_shift_mem rfl (rolByte_eq _ _)
  case ror => exact exec_shift_mem rfl (rorByte_eq _ _)

end Sys2Proof.Machine
end

section
/-! SUPPORT. Proofs about jumps, subroutines and handlers (46_control_transfer.md, 47_flags_system.md, 60_exceptions.md): the
frames on the stack, and that the returns undo them. -/

namespace Sys2Proof.Machine

/-! ### States that differ in registers and cells only -/

/-- `t` is `s` but for its registers and its cells. -/
def CpuAndCells (s t : State) : Prop := ∃ c m, t = { s with cpu := c, bus.cells := m }

theorem CpuAndCells.ofCpu (s : State) (c : Cpu) : CpuAndCells s { s with cpu := c } := ⟨c, s.bus.cells, rfl⟩

theorem CpuAndCells.storeCell (a : Word) (v : Byte) (s : State) : CpuAndCells s (storeCell a v s) := ⟨s.cpu, _, rfl⟩

theorem CpuAndCells.trans {s t u : State} (h : CpuAndCells s t) (k : CpuAndCells t u) : CpuAndCells s u := by
  obtain ⟨c, m, rfl⟩ := h
  obtain ⟨c', m', rfl⟩ := k
  exact ⟨c', m', rfl⟩

theorem CpuAndCells.quiet {s t : State} (h : CpuAndCells s t) (hs : Quiet s) : Quiet t := by
  obtain ⟨c, m, rfl⟩ := h
  exact ⟨hs.noRead, hs.noWrite, hs.noRng⟩

/-! ### Stack pointers that count down and up (R23) -/

theorem sub_two (sp : Byte) : sp - 1 - 1 = sp - 2 := BitVec.sub_sub sp 1 1

theorem sub_three (sp : Byte) : sp - 1 - 1 - 1 = sp - 3 := by
  rw [sub_two]
  exact BitVec.sub_sub sp 1 2

theorem add_two (sp : Byte) : sp + 1 + 1 = sp + 2 := BitVec.add_assoc sp 1 1

theorem add_three (sp : Byte) : sp + 1 + 1 + 1 = sp + 3 := by
  rw [add_two]
  exact BitVec.add_assoc sp 1 2

/-- The three bytes of a frame have three places, wherever the stack pointer stands. -/
theorem frame_distinct (sp : Byte) : sp ≠ sp - 1 ∧ sp ≠ sp - 1 - 1 ∧ sp - 1 ≠ sp - 1 - 1 := by
  revert sp
  decide

/-! ### JMP (R104, R107, R199) -/

theorem hiByte_samePageNext (w : Word) : hiByte (samePageNext w) = hiByte w := by
  have hpage : BitVec.extractLsb' 8 8 (0xFF00 : Word) = BitVec.allOnes 8 := rfl
  have hoffset : BitVec.extractLsb' 8 8 (0x00FF : Word) = 0#8 := rfl
  simp only [samePageNext, hiByte, BitVec.extractLsb'_or, BitVec.extractLsb'_and, hpage, hoffset, BitVec.and_allOnes,
    BitVec.and_zero, BitVec.or_zero]

theorem loByte_samePageNext (w : Word) : loByte (samePageNext w) = loByte (w + 1) := by
  have hpage : BitVec.extractLsb' 0 8 (0xFF00 : Word) = 0#8 := rfl
  have hoffset : BitVec.extractLsb' 0 8 (0x00FF : Word) = BitVec.allOnes 8 := rfl
  simp only [samePageNext, loByte, BitVec.extractLsb'_or, BitVec.extractLsb'_and, hpage, hoffset, BitVec.and_allOnes,
    BitVec.and_zero, BitVec.zero_or]

/-- The high byte of an indirect target stands in the pointer's own page (R107). -/
theorem samePageNext_eq_ofNat (w : Word) :
    samePageNext w = BitVec.ofNat 16 (w.toNat / 256 * 256 + (w.toNat + 1) % 256) := by
  have hw := w.isLt
  have hnext : (w + 1).toNat = (w.toNat + 1) % 65536 := BitVec.toNat_add w 1
  apply BitVec.eq_of_toNat_eq
  rw [← wordOf_hiByte_loByte (samePageNext w), hiByte_samePageNext, loByte_samePageNext, wordOf_toNat, hiByte_toNat,
    loByte_toNat, hnext, BitVec.toNat_ofNat]
  omega

/-- Settles O32: JMP writes PC alone, with its operand or the word at the pointer. -/
theorem jumpsReadTheirTarget : Obligations.JumpsReadTheirTarget := by
  intro s w
  have hop : (Instr.jmp (.abs w)).opcode = some 0x4C := rfl
  have hop' : (Instr.jmp (.ind w)).opcode = some 0x6C := rfl
  refine ⟨⟨_, retire_of_opcode hop _ _, rfl⟩, ⟨_, retire_of_opcode hop' _ _, by simp, fun h => ?_⟩⟩
  rw [retired_cpu, setPC_cpu, jumpTarget, readPair_quiet h, ← samePageNext_eq_ofNat]
  rfl

/-! ### JSR and RTS (R200, R201) -/

/-- Where no callback can store, a word push leaves its two bytes and every other cell. -/
theorem pushWord_frame {w : Word} {s t : State} (h : HostStoresNothing s)
    (ht : t.bus.cells = (pushWord w s).bus.cells) :
    cellAt t (stackAddr s.cpu.s) = hiByte w ∧ cellAt t (stackAddr (s.cpu.s - 1)) = loByte w ∧
      KeepsCellsBut [stackAddr s.cpu.s, stackAddr (s.cpu.s - 1)] s t := by
  rw [pushWord_cells h] at ht
  obtain ⟨hne, -, -⟩ := frame_distinct s.cpu.s
  refine ⟨?_, ?_, keepsCellsBut_of_stores [(_, hiByte w), (_, loByte w)] ht⟩
  · rw [cellAt, ht, readCell_writeCell, if_neg (mt stackAddr_inj.1 hne), readCell_writeCell, if_pos rfl]
  · rw [cellAt, ht, readCell_writeCell, if_pos rfl]

/-- JSR completes in every state: a word push, then the jump (R200). -/
theorem exec_jsr (w : Word) (s : State) :
    ∃ t, exec (.jsr w) s = .next t ∧ t.cpu = { s.cpu with s := s.cpu.s - 1 - 1, pc := w } ∧
      t.bus = (pushWord (s.cpu.pc - 1) s).bus := by
  have hop : (Instr.jsr w).opcode = some 0x20 := rfl
  exact ⟨_, retire_of_opcode hop _ _, by simp, rfl⟩

/-- RTS completes in every state: a word pull, then the jump past it (R201). -/
theorem exec_rts (s : State) :
    ∃ t, exec .rts s = .next t ∧ t.cpu = { s.cpu with s := s.cpu.s + 1 + 1, pc := (pullWord s).1 + 1 } := by
  have hop : Instr.rts.opcode = some 0x60 := rfl
  exact ⟨_, retire_of_opcode hop _ _, by simp⟩

/-- With no hook and no RNG binding a word pull gives the two cells above S (R11). -/
theorem pullWord_quiet_value {s : State} (h : Quiet s) :
    (pullWord s).1 = wordAt s (stackAddr (s.cpu.s + 1)) (stackAddr (s.cpu.s + 1 + 1)) := by
  rw [pullWord_quiet h]
  rfl

theorem pushWord_quiet_state {s : State} (h : Quiet s) (w : Word) : CpuAndCells s (pushWord w s) := by
  rw [pushWord_quiet h]
  exact ((CpuAndCells.storeCell _ _ s).trans (.storeCell _ _ _)).trans (.ofCpu _ _)

/-- Settles O33: the word pushed is one before PC. -/
theorem jsrPushesItsLastAddress : Obligations.JsrPushesItsLastAddress := by
  intro s w high low ret
  have hhigh : stackAddr s.cpu.s = high := stackAddr_eq_ofNat s.cpu.s
  have hlow : stackAddr (s.cpu.s - 1) = low := by rw [stackAddr_eq_ofNat, byte_sub_one_toNat]
  have hret : (s.cpu.pc - 1).toNat = ret := by
    have hsub : (s.cpu.pc - 1).toNat = (65536 - 1 + s.cpu.pc.toNat) % 65536 := BitVec.toNat_sub s.cpu.pc 1
    omega
  obtain ⟨t, ht, hcpu, hbus⟩ := exec_jsr w s
  refine ⟨t, ht, by rw [hcpu, sub_two], fun hs => ?_⟩
  obtain ⟨hhi, hlo, hkeep⟩ := pushWord_frame hs (congrArg Bus.cells hbus)
  rw [← hhigh, ← hlow, hhi, hlo, hiByte_toNat, loByte_toNat, hret]
  exact ⟨rfl, rfl, hkeep⟩

/-- Settles O34: the word pulled stands in the two cells above S. -/
theorem rtsReturnsPastThePulledAddress : Obligations.RtsReturnsPastThePulledAddress := by
  intro s low high
  have hlow : stackAddr (s.cpu.s + 1) = low := by rw [stackAddr_eq_ofNat, BitVec.toNat_add]; rfl
  have hhigh : stackAddr (s.cpu.s + 1 + 1) = high := by rw [add_two, stackAddr_eq_ofNat, BitVec.toNat_add]; rfl
  obtain ⟨t, ht, hcpu⟩ := exec_rts s
  refine ⟨t, ht, by rw [hcpu, add_two], fun h => ?_⟩
  rw [hcpu, pullWord_quiet_value h, hlow, hhigh, BitVec.toNat_add, wordAt, wordOf_toNat]
  rfl

/-- Settles O35: RTS pulls the two bytes that JSR pushed, from the same two places. -/
theorem rtsUndoesJsr : Obligations.RtsUndoesJsr := by
  intro s w pc h
  obtain ⟨t, ht, hcpu, hbus⟩ := exec_jsr w s
  obtain ⟨hhi, hlo, -⟩ := pushWord_frame (.ofQuiet h) (congrArg Bus.cells hbus)
  have hquiet : Quiet (setPC pc t) := ((pushWord_quiet_state h _).quiet h).ofBus hbus
  have hword : (pullWord (setPC pc t)).1 = s.cpu.pc - 1 :=
    calc (pullWord (setPC pc t)).1
      _ = wordAt t (stackAddr (t.cpu.s + 1)) (stackAddr (t.cpu.s + 1 + 1)) := pullWord_quiet_value hquiet
      _ = wordAt t (stackAddr (s.cpu.s - 1)) (stackAddr s.cpu.s) := by rw [hcpu]; simp only [BitVec.sub_add_cancel]
      _ = s.cpu.pc - 1 := by rw [wordAt, hhi, hlo, wordOf_hiByte_loByte]
  obtain ⟨u, hu, hcpu'⟩ := exec_rts (setPC pc t)
  refine ⟨t, u, ht, hu, ?_⟩
  rw [hcpu', hword, setPC_cpu, hcpu]
  simp only [BitVec.sub_add_cancel]

/-! ### Handler entry (R218, R236) -/

/-- Where no callback can store, vector entry leaves its frame of three bytes and every other cell. -/
theorem enterHandler_frame {copy : Byte → Byte} {vector : Word} {s t : State} (h : HostStoresNothing s)
    (ht : t.bus.cells = (enterHandler copy vector s).bus.cells) :
    cellAt t (stackAddr s.cpu.s) = hiByte s.cpu.pc ∧ cellAt t (stackAddr (s.cpu.s - 1)) = loByte s.cpu.pc ∧
      cellAt t (stackAddr (s.cpu.s - 2)) = copy s.cpu.p ∧
      KeepsCellsBut [stackAddr s.cpu.s, stackAddr (s.cpu.s - 1), stackAddr (s.cpu.s - 2)] s t := by
  rw [enterHandler_cells h] at ht
  obtain ⟨h01, h02, h12⟩ := frame_distinct s.cpu.s
  rw [← sub_two]
  refine ⟨?_, ?_, ?_, keepsCellsBut_of_stores [(_, hiByte s.cpu.pc), (_, loByte s.cpu.pc), (_, copy s.cpu.p)] ht⟩
  · rw [cellAt, ht, readCell_writeCell, if_neg (mt stackAddr_inj.1 h02), readCell_writeCell,
      if_neg (mt stackAddr_inj.1 h01), readCell_writeCell, if_pos rfl]
  · rw [cellAt, ht, readCell_writeCell, if_neg (mt stackAddr_inj.1 h12), readCell_writeCell, if_pos rfl]
  · rw [cellAt, ht, readCell_writeCell, if_pos rfl]

/-- With no hook and no RNG binding vector entry changes registers and cells only. -/
theorem enterHandler_quiet_state {s : State} (h : Quiet s) (copy : Byte → Byte) (vector : Word) :
    CpuAndCells s (enterHandler copy vector s) := by
  rw [enterHandler_quiet h]
  exact (((CpuAndCells.storeCell _ _ s).trans (.storeCell _ _ _)).trans (.storeCell _ _ _)).trans (.ofCpu _ _)

/-- With no hook and no RNG binding PC comes from the vector's cells as they stand after the frame (R218, R236). -/
theorem enterHandler_quiet_pc {s : State} (h : Quiet s) (copy : Byte → Byte) (vector : Word) :
    (enterHandler copy vector s).cpu.pc = wordAt (enterHandler copy vector s) vector (vector + 1) := by
  rw [enterHandler_quiet h]
  simp only [wordAt, cellAt, setPC_cpu, setPC_bus, setP_bus, setS_bus]

/-- A frame never reaches the vectors: it stands in page 1. -/
theorem ne_stackAddr {a : Word} (h : 512 ≤ a.toNat) (sp : Byte) : a ≠ stackAddr sp := by
  rintro rfl
  rw [stackAddr_toNat] at h
  omega

/-- Cells outside page 1 are those of before the vector entry. -/
theorem enterHandler_quiet_pc_before {s : State} (h : Quiet s) (copy : Byte → Byte) {vector : Word}
    (hlow : 512 ≤ vector.toNat) (hhigh : 512 ≤ (vector + 1).toNat) :
    (enterHandler copy vector s).cpu.pc = wordAt s vector (vector + 1) := by
  obtain ⟨-, -, -, hkeep⟩ := enterHandler_frame (copy := copy) (vector := vector) (.ofQuiet h) rfl
  have hcell : ∀ a : Word, 512 ≤ a.toNat → cellAt (enterHandler copy vector s) a = cellAt s a :=
    fun a ha => hkeep a (by simp [ne_stackAddr ha])
  rw [enterHandler_quiet_pc h, wordAt, hcell _ hlow, hcell _ hhigh, wordAt]

/-! ### BRK and RTI (R218, R219) -/

/-- BRK completes in every state: the vector entry from past its padding byte (R218). -/
theorem exec_brk (s : State) :
    ∃ t, exec .brk s = .next t ∧ t.cpu = (enterHandler pushedCopy irqVector (setPC (s.cpu.pc + 1) s)).cpu ∧
      t.bus = (enterHandler pushedCopy irqVector (setPC (s.cpu.pc + 1) s)).bus := by
  have hop : Instr.brk.opcode = some 0x00 := rfl
  exact ⟨_, retire_of_opcode hop _ _, retired_cpu _ _ _ _, retired_bus _ _ _ _⟩

/-- Settles O38: the frame of the vector entry holds PC past the padding byte and the copy of P. -/
theorem brkEntersTheHandler : Obligations.BrkEntersTheHandler := by
  intro s ret
  have hret : (s.cpu.pc + 1).toNat = ret := BitVec.toNat_add s.cpu.pc 1
  obtain ⟨t, ht, hcpu, hbus⟩ := exec_brk s
  obtain ⟨pc, hentry⟩ := enterHandler_cpu pushedCopy irqVector (setPC (s.cpu.pc + 1) s)
  have hregs : t.cpu = { s.cpu with s := s.cpu.s - 3, p := withFlag .i true s.cpu.p, pc := pc } := by
    rw [hcpu, hentry, sub_three, setPC_cpu]
  refine ⟨t, ht, by rw [hregs], ?i, ?flags, fun hs => ?frame, fun h => ?pc⟩
  case i => rw [hregs, flagOf_withFlag, if_pos rfl]
  case flags =>
    rw [hregs]
    exact keepsFlagsBut_withFlag .i true s.cpu.p
  case frame =>
    have hs' : HostStoresNothing (setPC (s.cpu.pc + 1) s) := hs
    obtain ⟨hhi, hlo, hp, hkeep⟩ := enterHandler_frame hs' (congrArg Bus.cells hbus)
    rw [setPC_cpu] at hhi hlo hp
    exact ⟨by rw [hhi, hiByte_toNat, hret], by rw [hlo, loByte_toNat, hret], hp, hkeep⟩
  case pc =>
    rw [hcpu]
    exact enterHandler_quiet_pc_before (h.setPC _) pushedCopy (by decide) (by decide)

/-- Settles O39: RTI is the return from a handler, three pulls. -/
theorem rtiRestoresStatusAndPc : Obligations.RtiRestoresStatusAndPc := by
  intro s
  have hop : Instr.rti.opcode = some 0x40 := rfl
  refine ⟨_, (pull s).1, retire_of_opcode hop _ _, ?cpu, fun h => ⟨?copy, ?pc⟩⟩
  case cpu =>
    rw [retired_cpu, ← add_three]
    simp [leaveHandler, writePByte]
  case copy => exact pull_quiet_value h
  case pc =>
    rw [retired_cpu, leaveHandler_quiet h, add_three, add_two]
    rfl

/-! ### The service of an interrupt and the return from it (R236, R242) -/

/-- A service is the vector entry with P as held, its own request cleared, and its ticks. -/
theorem service_eq (line : Line) (s : State) : service line s =
    addTicks s.params.interruptTicks (clearPending line (enterHandler (fun p => p) line.vector s)) := by
  have hparams := (enterHandler_busOnly (fun p => p) line.vector s).params
  cases line with
  | irq | nmi => simp only [service, clearPending_irq_params, clearPending_nmi_params, hparams]

theorem service_cpu (line : Line) (s : State) :
    (service line s).cpu = (enterHandler (fun p => p) line.vector s).cpu := by
  rw [service_eq, addTicks_cpu]
  cases line with
  | irq => exact clearPending_irq_cpu _
  | nmi => exact clearPending_nmi_cpu _

theorem service_bus (line : Line) (s : State) :
    (service line s).bus = (enterHandler (fun p => p) line.vector s).bus := by
  rw [service_eq, addTicks_bus]
  cases line with
  | irq => exact clearPending_irq_bus _
  | nmi => exact clearPending_nmi_bus _

/-- A service leaves A, X and Y, lowers S by three and sets I. -/
theorem service_registers (line : Line) (s : State) :
    ∃ pc, (service line s).cpu = { s.cpu with s := s.cpu.s - 3, p := withFlag .i true s.cpu.p, pc := pc } := by
  obtain ⟨pc, hcpu⟩ := enterHandler_cpu (fun p => p) line.vector s
  exact ⟨pc, by rw [service_cpu, hcpu, sub_three]⟩

theorem service_counters (line : Line) (s : State) :
    (service line s).tickCount = s.tickCount + s.params.interruptTicks ∧
      (service line s).instructionCount = s.instructionCount := by
  have hbus := enterHandler_busOnly (fun p => p) line.vector s
  rw [service_eq]
  cases line with
  | irq | nmi => simp [hbus.tickCount, hbus.instructionCount]

theorem service_clears (line : Line) (s : State) :
    (line = .irq → (service line s).pendingIRQ = false) ∧ (line = .nmi → (service line s).pendingNMI = false) := by
  constructor
  · rintro rfl
    rfl
  · rintro rfl
    rfl

/-- With no hook and no RNG binding a service leaves the other line's request. -/
theorem service_quiet_other {s : State} (h : Quiet s) :
    (service .irq s).pendingNMI = s.pendingNMI ∧ (service .nmi s).pendingIRQ = s.pendingIRQ := by
  rw [service_eq, service_eq]
  obtain ⟨c, m, hirq⟩ := enterHandler_quiet_state h (fun p => p) Line.irq.vector
  obtain ⟨c', m', hnmi⟩ := enterHandler_quiet_state h (fun p => p) Line.nmi.vector
  rw [hirq, hnmi]
  exact ⟨rfl, rfl⟩

/-- Settles O54: a service is a vector entry through its line's vector. -/
theorem servicePushesItsFrame : Obligations.ServicePushesItsFrame := by
  intro line s t
  obtain ⟨pc, hcpu⟩ := service_registers line s
  obtain ⟨hticks, hcount⟩ := service_counters line s
  obtain ⟨hirq, hnmi⟩ := service_clears line s
  refine ⟨?cpu, ?i, ?flags, hticks, hcount, hirq, hnmi, fun hs => ?frame, fun h => ⟨?irqVector, ?nmiVector⟩⟩
  case cpu => rw [hcpu]
  case i => rw [hcpu, flagOf_withFlag, if_pos rfl]
  case flags =>
    rw [hcpu]
    exact keepsFlagsBut_withFlag .i true s.cpu.p
  case frame =>
    obtain ⟨hhi, hlo, hp, hkeep⟩ := enterHandler_frame hs (congrArg Bus.cells (service_bus line s))
    exact ⟨by rw [hhi, hiByte_toNat], by rw [hlo, loByte_toNat], hp, hkeep⟩
  case irqVector =>
    rintro rfl
    refine ⟨?_, (service_quiet_other h).1⟩
    rw [service_cpu]
    exact enterHandler_quiet_pc_before h _ (by decide) (by decide)
  case nmiVector =>
    rintro rfl
    refine ⟨?_, (service_quiet_other h).2⟩
    rw [service_cpu]
    exact enterHandler_quiet_pc_before h _ (by decide) (by decide)

/-- A status byte with its fixed bits is what `WriteP` makes of it (R25). -/
theorem writePByte_of_statusFixed : ∀ p : Byte, statusFixed p = true → writePByte p = p := by decide

theorem Quiet.service {s : State} (h : Quiet s) (line : Line) : Quiet (service line s) :=
  ((enterHandler_quiet_state h _ _).quiet h).ofBus (service_bus line s)

/-- Settles O58: the return pulls the three bytes that the service pushed, from the same three places. -/
theorem returnUndoesService : Obligations.ReturnUndoesService := by
  intro line s h hp
  obtain ⟨pc, hcpu⟩ := service_registers line s
  obtain ⟨hhi, hlo, hcopy, -⟩ := enterHandler_frame (.ofQuiet h) (congrArg Bus.cells (service_bus line s))
  have hup1 : s.cpu.s - 3 + 1 = s.cpu.s - 2 := by rw [← sub_three, BitVec.sub_add_cancel, sub_two]
  have hup2 : s.cpu.s - 2 + 1 = s.cpu.s - 1 := by rw [← sub_two, BitVec.sub_add_cancel]
  rw [cellAt] at hhi hlo hcopy
  rw [leaveHandler_quiet (h.service line)]
  simp only [setPC_cpu, setP_cpu, setS_cpu, hcpu, hup1, hup2, BitVec.sub_add_cancel, hhi, hlo, hcopy,
    wordOf_hiByte_loByte, writePByte_of_statusFixed _ hp]

/-! ### NOP and the illegal bytes (R125, R217) -/

theorem penalty_zero (params : Config.Params) : penalty params 0 = 0 := by
  rw [penalty_eq_ite, ite_self]

/-- Settles O37: NOP retires at once, and so does an illegal byte unless the policy faults it. -/
theorem nopAndIllegalBytes : Obligations.NopAndIllegalBytes := by
  intro s op opAddr
  have hop : (Instr.illegal op).wellFormed = true → (Instr.illegal op).opcode = some op := fun hw => if_pos hw
  refine ⟨runsAs_of_exec_eq_retire rfl nofun rfl rfl, fun hw => ?bytes, rfl, rfl, fun hnop hw => ?nop, fun hfault hpc => ?fault⟩
  case bytes =>
    simp only [encode, hop hw]
    rfl
  case nop =>
    simp only [exec, execIllegal, hnop]
    rw [retire_of_opcode (hop hw), retired, penalty_zero]
    rfl
  case fault => simp only [exec, execIllegal, hfault, hpc, BitVec.add_sub_cancel]

end Sys2Proof.Machine
end

section
/-! SUPPORT. Proofs about every execute phase at once: which registers, flags and cells it leaves, what its callbacks see, and
what it counts (10_state.md R21 to R28; 40_step_cycle.md R123, R124, R132). -/

namespace Sys2Proof.Machine

/-! ### An execute phase as a sequence of byte accesses -/

/-- `t` is reached from `s` by CPU byte accesses and moves of S. -/
inductive Accesses (s : State) : State → Prop where
  | refl : Accesses s s
  | read {t : State} (h : Accesses s t) (a : Word) : Accesses s (memRead a t).2
  | write {t : State} (h : Accesses s t) (a : Word) (v : Byte) : Accesses s (memWrite a v t)
  | moveS {t : State} (h : Accesses s t) (v : Byte) : Accesses s (setS v t)

theorem Accesses.push {s t : State} (h : Accesses s t) (v : Byte) : Accesses s (push v t) := (h.write _ v).moveS _

theorem Accesses.pull {s t : State} (h : Accesses s t) : Accesses s (pull t).2 := (h.moveS _).read _

theorem Accesses.readPair {s t : State} (h : Accesses s t) (a b : Word) : Accesses s (readPair a b t).2 :=
  (h.read a).read b

theorem accesses_resolve (m : MemMode) (s : State) : Accesses s (resolve m s).state := by
  cases m with
  | indX z | indY z => exact Accesses.refl.readPair _ _
  | zp _ | zpX _ | zpY _ | abs _ | absX _ | absY _ => exact .refl

theorem accesses_readOperand (o : ReadOperand) (s : State) : Accesses s (readOperand o s).state := by
  cases o with
  | imm v => exact .refl
  | mem m => exact (accesses_resolve m s).read _

theorem accesses_jumpTarget (j : JumpOperand) (s : State) : Accesses s (jumpTarget j s).2 := by
  cases j with
  | abs w => exact .refl
  | ind ptr => exact Accesses.refl.readPair _ _

/-- A state reached by byte accesses, and then given registers `c`. -/
def AccessesThenCpu (s t : State) : Prop := ∃ w c, Accesses s w ∧ t = { w with cpu := c }

section
variable {s t : State}

theorem Accesses.done (h : Accesses s t) : AccessesThenCpu s t := ⟨t, t.cpu, h, rfl⟩

theorem AccessesThenCpu.setCpu (h : AccessesThenCpu s t) (c : Cpu) : AccessesThenCpu s { t with cpu := c } := by
  obtain ⟨w, c', hw, rfl⟩ := h
  exact ⟨w, c, hw, rfl⟩

theorem AccessesThenCpu.setA (h : AccessesThenCpu s t) (v : Byte) : AccessesThenCpu s (setA v t) := h.setCpu _
theorem AccessesThenCpu.setX (h : AccessesThenCpu s t) (v : Byte) : AccessesThenCpu s (setX v t) := h.setCpu _
theorem AccessesThenCpu.setY (h : AccessesThenCpu s t) (v : Byte) : AccessesThenCpu s (setY v t) := h.setCpu _
theorem AccessesThenCpu.setP (h : AccessesThenCpu s t) (v : Byte) : AccessesThenCpu s (setP v t) := h.setCpu _
theorem AccessesThenCpu.setPC (h : AccessesThenCpu s t) (v : Word) : AccessesThenCpu s (setPC v t) := h.setCpu _

end

theorem accesses_modifyMem (m : MemMode) (f : Byte → Byte) (flags : Byte → Byte → Byte) (s : State) :
    AccessesThenCpu s (modifyMem m f (fun v t => setP (flags v t.cpu.p) t) s) :=
  (((accesses_resolve m s).read _).write _ _).done.setP _

theorem accesses_shiftOperand (o : ShiftOperand) (f : Byte → ShiftResult) (s : State) :
    AccessesThenCpu s (shiftOperand o f s) := by
  cases o with
  | acc => exact (Accesses.refl.done.setA _).setP _
  | mem m => exact accesses_modifyMem m (fun v => (f v).result) (fun v => withShift (f v)) s

/-- EVERYTHING AN EXECUTE PHASE but BRK's CAN DO, access by access: byte accesses and moves of S, then its registers, then its
retirement (R132). BRK sets I before its vector reads (log 14). -/
theorem exec_accesses {i : Instr} {s t : State} (h : exec i s = .next t) (hbrk : i ≠ .brk) :
    ∃ op extra u, t = retired i op extra u ∧ AccessesThenCpu s u := by
  have retires : ∀ {extra : Nat} {u : State}, retire i extra u = .next t → AccessesThenCpu s u →
      ∃ op extra u, t = retired i op extra u ∧ AccessesThenCpu s u := by
    intro extra u hr hu
    obtain ⟨op, -, rfl⟩ := retire_next hr
    exact ⟨op, extra, u, rfl, hu⟩
  cases i with
  | lda o | adc o | sbc o | and o | eor o | ora o => exact retires h (((accesses_readOperand o s).done.setA _).setP _)
  | ldx o => exact retires h (((accesses_readOperand o s).done.setX _).setP _)
  | ldy o => exact retires h (((accesses_readOperand o s).done.setY _).setP _)
  | cmp o | cpx o | cpy o => exact retires h ((accesses_readOperand o s).done.setP _)
  | bit m => exact retires h ((accesses_readOperand (.mem m) s).done.setP _)
  | sta m | stx m | sty m => exact retires h ((accesses_resolve m s).write _ _).done
  | inc m => exact retires h (accesses_modifyMem m _ (fun v => withNZ (v + 1)) s)
  | dec m => exact retires h (accesses_modifyMem m _ (fun v => withNZ (v - 1)) s)
  | asl o | lsr o | rol o | ror o => exact retires h (accesses_shiftOperand o _ s)
  | tax | tsx | inx | dex => exact retires h ((Accesses.refl.done.setX _).setP _)
  | tay | iny | dey => exact retires h ((Accesses.refl.done.setY _).setP _)
  | txa | tya => exact retires h ((Accesses.refl.done.setA _).setP _)
  | txs => exact retires h (Accesses.refl.moveS _).done
  | pha | php => exact retires h (Accesses.refl.push _).done
  | pla => exact retires h ((Accesses.refl.pull.done.setA _).setP _)
  | plp => exact retires h (Accesses.refl.pull.done.setP _)
  | bpl d | bmi d | bvc d | bvs d | bcc d | bcs d | bne d | beq d =>
    simp only [exec, execBpl, execBmi, execBvc, execBvs, execBcc, execBcs, execBne, execBeq, branch] at h
    split at h
    · exact retires h (Accesses.refl.done.setPC _)
    · exact retires h Accesses.refl.done
  | jmp j => exact retires h ((accesses_jumpTarget j s).done.setPC _)
  | jsr w => exact retires h (((Accesses.refl.push _).push _).done.setPC _)
  | rts => exact retires h (Accesses.refl.pull.pull.done.setPC _)
  | clc | sec | cli | sei | clv | cld | sed => exact retires h (Accesses.refl.done.setP _)
  | nop => exact retires h Accesses.refl.done
  | brk => exact absurd rfl hbrk
  | rti => exact retires h ((Accesses.refl.pull.pull.pull.done.setP _).setPC _)
  | illegal op =>
    simp only [exec, execIllegal] at h
    split at h
    · exact retires h Accesses.refl.done
    · cases h

/-! ### What the callbacks of an execute phase see (R132) -/

/-- The registers but S, and the counters, that an event shows are those of `s`. -/
def ShowsBefore (s : State) (e : HookEvent) : Prop :=
  e.cpu = { s.cpu with s := e.cpu.s } ∧ e.instructionCount = s.instructionCount ∧ e.tickCount = s.tickCount

/-- From `s` to `t` the registers but S, and the counters, stay, and so every event in between shows those of `s`. -/
structure SeesBefore (s t : State) : Prop where
  cpu              : t.cpu = { s.cpu with s := t.cpu.s }
  instructionCount : t.instructionCount = s.instructionCount
  tickCount        : t.tickCount = s.tickCount
  log              : ∃ events, t.hookLog = s.hookLog ++ events ∧ ∀ e ∈ events, ShowsBefore s e

/-- A bus hook fired where the registers and the counters are those of before shows them. -/
theorem SeesBefore.fireBusHook {s t : State} (h : SeesBefore s t) (table : HookTable) (kind : HookKind) (a : Word) :
    SeesBefore s (fireBusHook table kind a t) := by
  unfold Machine.fireBusHook
  split
  · exact h
  · next callback _ =>
    obtain ⟨hcpu, hcount, hticks, events, hlog, hevents⟩ := h
    have hacted := invoke_hostActed callback kind t
    refine ⟨by rw [invoke_cpu, hcpu], hacted.instructionCount.trans hcount, hacted.tickCount.trans hticks,
      events ++ [eventAt callback kind t], by rw [invoke_hookLog, hlog, List.append_assoc], fun e he => ?_⟩
    rcases List.mem_append.1 he with he | he
    · exact hevents e he
    · rw [List.mem_singleton.1 he]
      exact ⟨hcpu, hcount, hticks⟩

theorem SeesBefore.readValue {s t : State} (h : SeesBefore s t) (a : Word) : SeesBefore s (readValue a t).2 := by
  obtain ⟨draws, hv⟩ := readValue_state a t
  rw [hv]
  exact ⟨h.cpu, h.instructionCount, h.tickCount, h.log⟩

theorem Accesses.seesBefore {s t : State} (h : Accesses s t) : SeesBefore s t := by
  induction h with
  | refl => exact ⟨rfl, rfl, rfl, [], (List.append_nil _).symm, by simp⟩
  | read _ a ih => exact (ih.readValue a).fireBusHook _ _ _
  | @write t _ a v ih =>
    have hstore : SeesBefore s (storeCell a v t) := ⟨ih.cpu, ih.instructionCount, ih.tickCount, ih.log⟩
    exact hstore.fireBusHook _ _ _
  | moveS _ v ih => exact ⟨by rw [setS_cpu, ih.cpu], ih.instructionCount, ih.tickCount, ih.log⟩

/-- Settles O12: all byte accesses come before the registers and the counters are written. -/
theorem callbacksSeeRegistersOfBefore : Obligations.CallbacksSeeRegistersOfBefore := by
  intro i s t h hbrk
  obtain ⟨op, extra, u, rfl, w, c, hw, rfl⟩ := exec_accesses h hbrk
  exact hw.seesBefore.log

/-- Instruction hooks each record one event, all with the same registers and counters. -/
theorem invokeAll_hookLog (callbacks : List Nat) (s : State) :
    (callbacks.foldl (fun t callback => invoke callback .instruction t) s).hookLog =
      s.hookLog ++ callbacks.map fun callback => eventAt callback .instruction s := by
  induction callbacks generalizing s with
  | nil => simp
  | cons c cs ih =>
    have hacted := invoke_hostActed c .instruction s
    have hevent : ∀ callback, eventAt callback .instruction (invoke c .instruction s) = eventAt callback .instruction s := by
      intro callback
      simp only [eventAt, invoke_cpu, hacted.instructionCount, hacted.tickCount]
    simp only [List.foldl_cons, ih, invoke_hookLog, hevent, List.map_cons, List.append_assoc, List.singleton_append]

/-- Settles O11: the hooks of the list fire one after the other, and none writes a register or a counter. -/
theorem instructionHooksFireInOrder : Obligations.InstructionHooksFireInOrder := fun s => invokeAll_hookLog _ s

/-! ### What an execute phase leaves alone with no hook and no RNG binding -/

theorem Accesses.cpuAndCells {s t : State} (h : Accesses s t) (hs : Quiet s) : CpuAndCells s t := by
  induction h with
  | refl => exact .ofCpu s s.cpu
  | read _ a ih =>
    rw [memRead_quiet (ih.quiet hs)]
    exact ih
  | write _ a v ih =>
    rw [memWrite_quiet (ih.quiet hs)]
    exact ih.trans (.storeCell _ _ _)
  | moveS _ v ih => exact ih.trans (.ofCpu _ _)

/-- With no hook and no RNG binding an execute phase changes registers, cells and the two counters only. -/
theorem exec_quiet {i : Instr} {s t : State} (h : exec i s = .next t) (hs : Quiet s) :
    ∃ op extra u, t = retired i op extra u ∧ CpuAndCells s u := by
  by_cases hbrk : i = .brk
  · subst hbrk
    obtain ⟨op, -, rfl⟩ := retire_next (i := .brk) h
    exact ⟨op, _, _, rfl, (CpuAndCells.ofCpu s _).trans (enterHandler_quiet_state (hs.setPC _) _ _)⟩
  · obtain ⟨op, extra, u, rfl, w, c, hw, rfl⟩ := exec_accesses h hbrk
    exact ⟨op, extra, _, rfl, (hw.cpuAndCells hs).trans (.ofCpu w c)⟩

/-- Settles O43: before its retirement the phase changes registers and cells only. -/
theorem executeLeavesTheRestAlone : Obligations.ExecuteLeavesTheRestAlone := by
  intro i s t h hs
  obtain ⟨op, extra, u, rfl, c, m, rfl⟩ := exec_quiet h hs
  rfl

end Sys2Proof.Machine
end

section
/-! SUPPORT. Proofs about the frame of every execute phase (10_state.md R21 to R28): the registers, flags and cells that it leaves,
and its ticks. -/

namespace Sys2Proof.Machine

/-- An instruction whose execute phase is a retirement answers with what that leaves. -/
theorem exec_retired {i : Instr} {extra : Nat} {s t u : State} (h : exec i s = .next t)
    (hexec : exec i s = retire i extra u) : ∃ op, i.opcode = some op ∧ t = retired i op extra u :=
  retire_next (hexec.symm.trans h)

/-- A branch answers with its target or with the next address in PC, and with no other change before its retirement. -/
theorem branch_next {i : Instr} {d : Byte} {taken : Bool} {s t : State} (h : branch i d taken s = .next t) :
    ∃ op extra pc, t = retired i op extra (setPC pc s) := by
  unfold branch at h
  dsimp only at h
  split at h
  · obtain ⟨op, -, rfl⟩ := retire_next h
    exact ⟨op, _, _, rfl⟩
  · obtain ⟨op, -, rfl⟩ := retire_next h
    exact ⟨op, _, s.cpu.pc, rfl⟩

/-- An illegal byte answers under `illegalPolicy = nop` only, and then retires at once (R125). -/
theorem illegal_next {b : Byte} {s t : State} (h : exec (.illegal b) s = .next t) :
    ∃ op, (Instr.illegal b).opcode = some op ∧ t = retired (.illegal b) op 0 s := by
  simp only [exec, execIllegal] at h
  split at h
  · exact retire_next h
  · cases h

/-! ### Registers (R21, R22, R23, R27) -/

/-- Settles O40: the registers an execute phase leaves, instruction by instruction. -/
theorem onlyListedInstructionsWriteARegister : Obligations.OnlyListedInstructionsWriteARegister := by
  intro i s t h
  cases i with
  | bpl d | bmi d | bvc d | bvs d | bcc d | bcs d | bne d | beq d =>
    obtain ⟨op, extra, pc, rfl⟩ := branch_next h
    simp [writesPC]
  | asl o | lsr o | rol o | ror o =>
    obtain ⟨op, -, rfl⟩ := exec_retired h rfl
    cases o with
    | acc => simp [shiftOperand, writesA]
    | mem m => simp [shiftOperand, modifyMem]
  | inc m | dec m =>
    obtain ⟨op, -, rfl⟩ := exec_retired h rfl
    simp [modifyMem]
  | brk =>
    obtain ⟨t', ht, hcpu, -⟩ := exec_brk s
    obtain ⟨pc, hentry⟩ := enterHandler_cpu pushedCopy irqVector (setPC (s.cpu.pc + 1) s)
    cases h.symm.trans ht
    simp only [hcpu, hentry, setPC_cpu]
    simp [writesS, writesPC]
  | rti =>
    obtain ⟨op, -, rfl⟩ := exec_retired h rfl
    obtain ⟨pc, v, hcpu⟩ := leaveHandler_cpu s
    simp [hcpu, writesS, writesPC]
  | illegal b =>
    obtain ⟨op, -, rfl⟩ := illegal_next h
    simp
  | _ =>
    obtain ⟨op, -, rfl⟩ := exec_retired h rfl
    simp [writesA, writesX, writesY, writesS, writesPC]

/-! ### Flags (R25, R26) -/

/-- Settles O41: the status byte an execute phase leaves, instruction by instruction; its fixed bits stay by `exec_acted`. -/
theorem onlyListedFlagsChange : Obligations.OnlyListedFlagsChange := by
  intro i s t h
  suffices hkeep : (∀ f, f ∉ flagsWritten i → flagOf f t.cpu.p = flagOf f s.cpu.p) ∧
      (flagsWritten i = [] → t.cpu.p = s.cpu.p) by
    obtain ⟨op, extra, u, -, -, rfl, -, hstatus⟩ := exec_acted h
    exact ⟨hkeep.1, hstatus, hkeep.2⟩
  cases i with
  | bpl d | bmi d | bvc d | bvs d | bcc d | bcs d | bne d | beq d =>
    obtain ⟨op, extra, pc, rfl⟩ := branch_next h
    exact ⟨fun _ _ => rfl, fun _ => rfl⟩
  | illegal b =>
    obtain ⟨op, -, rfl⟩ := illegal_next h
    exact ⟨fun _ _ => rfl, fun _ => rfl⟩
  | sta m | stx m | sty m | pha | php | jmp j | jsr w | rts | txs | nop =>
    obtain ⟨op, -, rfl⟩ := exec_retired h rfl
    simp
  | plp | rti =>
    refine ⟨fun f hf => ?_, nofun⟩
    cases f <;> simp [flagsWritten] at hf
  | brk =>
    obtain ⟨t', ht, hcpu, -⟩ := exec_brk s
    obtain ⟨pc, hentry⟩ := enterHandler_cpu pushedCopy irqVector (setPC (s.cpu.pc + 1) s)
    cases h.symm.trans ht
    rw [hcpu, hentry]
    exact ⟨(keepsFlagsBut_withFlag .i true s.cpu.p).flags, nofun⟩
  | asl o | lsr o | rol o | ror o =>
    obtain ⟨op, -, rfl⟩ := exec_retired h rfl
    refine ⟨fun f hf => ?_, nofun⟩
    simp [flagsWritten] at hf
    cases o with
    | acc => simp [shiftOperand, hf]
    | mem m => simp [shiftOperand, modifyMem, hf]
  | inc m | dec m =>
    obtain ⟨op, -, rfl⟩ := exec_retired h rfl
    refine ⟨fun f hf => ?_, nofun⟩
    simp [flagsWritten] at hf
    simp [modifyMem, hf]
  | _ =>
    obtain ⟨op, -, rfl⟩ := exec_retired h rfl
    refine ⟨fun f hf => ?_, nofun⟩
    simp [flagsWritten] at hf
    simp [hf]

/-! ### Cells (R111) -/

section
variable {s : State} (hs : HostStoresNothing s)
include hs

/-- A write of the effective address keeps every other cell. -/
theorem write_keeps (m : MemMode) (v : Byte) :
    KeepsCellsBut [(resolve m s).ea] s (memWrite (resolve m s).ea v (resolve m s).state) := by
  have hcells := memWrite_cells (a := (resolve m s).ea) (v := v) ((resolve_busOnly m s).storeless hs)
  rw [resolve_cells hs] at hcells
  exact (stored_of_cells hcells).2

/-- A read-modify-write keeps every cell but that of its effective address. -/
theorem modify_keeps (m : MemMode) (f : Byte → Byte) {act : Byte → State → State} (hact : ∀ v t, (act v t).bus = t.bus) :
    KeepsCellsBut [(resolve m s).ea] s (modifyMem m f act s) := (stored_of_cells (modifyMem_cells hs hact)).2

theorem shift_keeps (m : MemMode) (f : Byte → ShiftResult) :
    KeepsCellsBut [(resolve m s).ea] s (shiftOperand (.mem m) f s) :=
  modify_keeps hs m (fun v => (f v).result) (act := fun v t => setP (withShift (f v) t.cpu.p) t) fun _ _ => rfl

end

/-- A retirement keeps the cells that the phase before it keeps. -/
theorem keeps_of_exec {i : Instr} {extra : Nat} {s t u : State} {stored : List Word} (h : exec i s = .next t)
    (hexec : exec i s = retire i extra u) (hu : KeepsCellsBut stored s u) : KeepsCellsBut stored s t := by
  obtain ⟨op, -, rfl⟩ := exec_retired h hexec
  exact hu

/-- Settles O42: the cells an execute phase leaves, by the operation it stores with, if any. -/
theorem onlyStoredCellsChange : Obligations.OnlyStoredCellsChange := by
  intro i s t h hs
  cases i with
  | lda o | ldx o | ldy o | adc o | sbc o | cmp o | cpx o | cpy o | and o | eor o | ora o =>
    exact keeps_of_exec h rfl (keepsCellsBut_of_cells_eq (readOperand_cells hs) _)
  | bit m => exact keeps_of_exec h rfl (keepsCellsBut_of_cells_eq (readOperand_cells (o := .mem m) hs) _)
  | sta m | stx m | sty m => exact keeps_of_exec h rfl (write_keeps hs m _)
  | inc m | dec m => exact keeps_of_exec h rfl (modify_keeps hs m _ fun _ _ => rfl)
  | asl o | lsr o | rol o | ror o =>
    cases o with
    | acc => exact keeps_of_exec h rfl (keepsCellsBut_of_cells_eq rfl _)
    | mem m => exact keeps_of_exec h rfl (shift_keeps hs m _)
  | pha | php => exact keeps_of_exec h rfl (stored_of_cells (push_cells hs)).2
  | pla | plp => exact keeps_of_exec h rfl (keepsCellsBut_of_cells_eq (pull_cells hs) _)
  | jmp j => exact keeps_of_exec h rfl (keepsCellsBut_of_cells_eq (jumpTarget_cells hs) _)
  | jsr w => exact keeps_of_exec h rfl (pushWord_frame hs rfl).2.2
  | rts => exact keeps_of_exec h rfl (keepsCellsBut_of_cells_eq (pullWord_cells hs) _)
  | brk =>
    have hs' : HostStoresNothing (setPC (s.cpu.pc + 1) s) := hs
    obtain ⟨-, -, -, hkeep⟩ := enterHandler_frame (copy := pushedCopy) (vector := irqVector) hs' rfl
    rw [storedTo, sub_two]
    exact keeps_of_exec h rfl hkeep
  | rti => exact keeps_of_exec h rfl (keepsCellsBut_of_cells_eq (leaveHandler_cells hs) _)
  | bpl d | bmi d | bvc d | bvs d | bcc d | bcs d | bne d | beq d =>
    obtain ⟨op, extra, pc, rfl⟩ := branch_next h
    exact keepsCellsBut_of_cells_eq rfl _
  | illegal b =>
    obtain ⟨op, -, rfl⟩ := illegal_next h
    exact keepsCellsBut_of_cells_eq rfl _
  | tax | tay | tsx | txa | txs | tya | inx | iny | dex | dey | clc | sec | cli | sei | clv | cld | sed | nop =>
    exact keeps_of_exec h rfl (keepsCellsBut_of_cells_eq rfl _)

/-! ### Ticks (R123, R271, R272) -/

/-- What a retirement after byte accesses counts: one instruction, its cost, and under `nmos` the penalty. -/
theorem counts_of_exec {i : Instr} {n : Nat} {s t u : State} (h : exec i s = .next t) (hexec : exec i s = retire i n u)
    (hu : BusOnly s u) :
    ∃ op extra, i.opcode = some op ∧ t.instructionCount = s.instructionCount + 1 ∧
      t.tickCount = s.tickCount + tickCost s.params i op + extra ∧
      (s.params.penaltyPolicy = .none → extra = 0) ∧ (s.params.penaltyPolicy = .nmos → extra = n) := by
  obtain ⟨op, hop, rfl⟩ := exec_retired h hexec
  refine ⟨op, penalty s.params n, hop, ?_, ?_, fun hp => ?_, fun hp => ?_⟩
  · rw [retired_instructionCount, hu.instructionCount]
  · rw [retired_tickCount, hu.tickCount, hu.params, Nat.add_assoc]
  · simp only [penalty, hp]
  · simp only [penalty, hp]

/-- An instruction that answers has the form it carries. -/
theorem wellFormed_of_exec {i : Instr} {s t : State} (h : exec i s = .next t) : i.wellFormed = true := by
  obtain ⟨op, -, -, hop, -⟩ := exec_acted h
  rw [← opcode_isSome, hop]
  rfl

/-- No memory form of CPX, CPY or BIT crosses a page (R167, R168, R173). -/
theorem resolve_cross_of_formats {m : MemMode} (h : m.format ∈ cpxFormats) (s : State) : (resolve m s).cross = false := by
  cases m with
  | zp _ | abs _ => rfl
  | zpX _ | zpY _ | absX _ | absY _ | indX _ | indY _ => simp [MemMode.format, cpxFormats] at h

theorem modifyMem_busOnly (m : MemMode) (f : Byte → Byte) {act : Byte → State → State} (hact : ∀ v u, BusOnly u (act v u))
    (s : State) : BusOnly s (modifyMem m f act s) := by
  obtain ⟨v, u, hmodify, -, hu⟩ := modifyMem_cpu m f act s
  rw [hmodify]
  exact hu.trans (hact v u)

theorem shiftOperand_busOnly (o : ShiftOperand) (f : Byte → ShiftResult) (s : State) : BusOnly s (shiftOperand o f s) := by
  cases o with
  | acc => exact .ofCpu _
  | mem m =>
    exact modifyMem_busOnly m (fun v => (f v).result) (act := fun v t => setP (withShift (f v) t.cpu.p) t)
      (fun _ _ => .ofCpu _) s

/-- Settles O44: the retirement of each instruction counts its own cost, and a page cross for the read class only. -/
theorem executeCountsItsTicks : Obligations.ExecuteCountsItsTicks := by
  intro i s t h hformat
  cases i with
  | lda o | ldx o | ldy o | adc o | sbc o | cmp o | and o | eor o | ora o =>
    cases o with
    | imm v => exact counts_of_exec h rfl (.ofCpu _)
    | mem m => exact counts_of_exec h rfl ((readOperand_busOnly (.mem m) s).trans (.ofCpu _))
  | cpx o | cpy o =>
    cases o with
    | imm v => exact counts_of_exec h rfl (.ofCpu _)
    | mem m =>
      have hcross := resolve_cross_of_formats (List.contains_iff_mem.1 (wellFormed_of_exec h)) s
      have hcounts := counts_of_exec (n := bitNat (resolve m s).cross) h rfl
        ((readOperand_busOnly (.mem m) s).trans (.ofCpu _))
      rwa [hcross] at hcounts
  | bit m =>
    have hcross := resolve_cross_of_formats (List.mem_cons_of_mem _ (List.contains_iff_mem.1 (wellFormed_of_exec h))) s
    have hcounts := counts_of_exec (n := bitNat (resolve m s).cross) h rfl
      ((readOperand_busOnly (.mem m) s).trans (.ofCpu _))
    rwa [hcross] at hcounts
  | sta m | stx m | sty m => exact counts_of_exec h rfl ((resolve_busOnly m s).trans (memWrite_busOnly _ _ _))
  | inc m | dec m => exact counts_of_exec h rfl (modifyMem_busOnly m _ (fun _ _ => .ofCpu _) s)
  | asl o | lsr o | rol o | ror o => exact counts_of_exec h rfl (shiftOperand_busOnly o _ s)
  | bpl d | bmi d | bvc d | bvs d | bcc d | bcs d | bne d | beq d => exact absurd rfl hformat
  | pha | php => exact counts_of_exec h rfl (push_busOnly _ s)
  | pla | plp => exact counts_of_exec h rfl ((pull_busOnly s).trans (.ofCpu _))
  | jmp j => exact counts_of_exec h rfl ((jumpTarget_busOnly j s).trans (.ofCpu _))
  | jsr w => exact counts_of_exec h rfl ((pushWord_busOnly _ s).trans (.ofCpu _))
  | rts => exact counts_of_exec h rfl ((pullWord_busOnly s).trans (.ofCpu _))
  | brk => exact counts_of_exec h rfl ((BusOnly.ofCpu _).trans (enterHandler_busOnly _ _ _))
  | rti => exact counts_of_exec h rfl (leaveHandler_busOnly s)
  | illegal b =>
    obtain ⟨op, hop, rfl⟩ := illegal_next h
    exact counts_of_exec h (h.trans (retire_of_opcode hop 0 s).symm) (.refl s)
  | tax | tay | tsx | txa | txs | tya | inx | iny | dex | dey | clc | sec | cli | sei | clv | cld | sed | nop =>
    exact counts_of_exec h rfl (.ofCpu _)

end Sys2Proof.Machine
end

section
/-! SUPPORT. Proofs about running the core (40_step_cycle.md R120 to R130; 60_exceptions.md R235, R244; 70_reset_and_hazards.md
R260 to R265): what a step fetches, what its check point serves, the host's exec, and reset. -/

namespace Sys2Proof.Machine

/-! ### The fetch over plain cells (R96) -/

/-- Neither a read hook nor the RNG stands at an address. -/
def PlainAt (s : State) (a : Word) : Prop := lookupKey a.toNat s.bus.readHooks = none ∧ s.bus.rngBinding ≠ some a

theorem fetchByte_plain {s : State} {a : Word} (h : PlainAt s a) :
    fetchByte (setPC a s) = (cellAt s a, setPC (a + 1) s) := by
  have hread : memRead a (setPC a s) = (cellAt s a, setPC a s) := memRead_plain h.2 h.1
  simp only [fetchByte, setPC_cpu, hread]
  rfl

/-- A fetch over plain cells is a decode of the cells at PC and up, and moves PC past the instruction. -/
theorem fetchInstr_plain {s : State} {i : Instr} {rest : List Byte}
    (hdecode : decode [cellAt s s.cpu.pc, cellAt s (s.cpu.pc + 1), cellAt s (s.cpu.pc + 2)] = .ok (i, rest))
    (hplain : ∀ k, k < i.length → PlainAt s (s.cpu.pc + BitVec.ofNat 16 k)) :
    fetchInstr s = (i, setPC (s.cpu.pc + BitVec.ofNat 16 i.length) s) := by
  have hself : setPC s.cpu.pc s = s := rfl
  have hsecond : s.cpu.pc + 1 + 1 = s.cpu.pc + 2 := BitVec.add_assoc _ 1 1
  have hthird : s.cpu.pc + 2 + 1 = s.cpu.pc + 3 := BitVec.add_assoc _ 2 1
  have hop : i.length ≥ 1 → fetchByte s = (cellAt s s.cpu.pc, setPC (s.cpu.pc + 1) s) := fun hk => by
    simpa [hself] using fetchByte_plain (hplain 0 hk)
  have hb1 : i.length ≥ 2 → fetchByte (setPC (s.cpu.pc + 1) s) = (cellAt s (s.cpu.pc + 1), setPC (s.cpu.pc + 2) s) :=
    fun hk => by rw [← hsecond]; exact fetchByte_plain (hplain 1 hk)
  have hb2 : i.length ≥ 3 → fetchByte (setPC (s.cpu.pc + 2) s) = (cellAt s (s.cpu.pc + 2), setPC (s.cpu.pc + 3) s) :=
    fun hk => by rw [← hthird]; exact fetchByte_plain (hplain 2 hk)
  rcases lengthOf_cases (cellAt s s.cpu.pc) with hl | hl | hl
  · rw [decode_of_lengthOf_one hl] at hdecode
    cases hdecode
    have hlen := (length_ofOpcode (cellAt s s.cpu.pc) 0 0).trans hl
    simp only [fetchInstr, hop (by omega), hl, hlen]
    rfl
  · rw [decode_of_lengthOf_two hl] at hdecode
    cases hdecode
    have hlen := (length_ofOpcode (cellAt s s.cpu.pc) (cellAt s (s.cpu.pc + 1)) 0).trans hl
    simp only [fetchInstr, hop (by omega), hb1 (by omega), hl, hlen]
    rfl
  · rw [decode_of_lengthOf_three hl] at hdecode
    cases hdecode
    have hlen := (length_ofOpcode (cellAt s s.cpu.pc) (cellAt s (s.cpu.pc + 1)) (cellAt s (s.cpu.pc + 2))).trans hl
    simp only [fetchInstr, hop (by omega), hb1 (by omega), hb2 (by omega), hl, hlen]
    rfl

/-- A running step whose fetch makes no refused call runs what it fetched, and then hooks and check point (R120). -/
theorem step_of_fetch {s f : State} {i : Instr} (hrunning : s.phase = .running) (hidle : s.inStep = false)
    (hfetch : fetchInstr (beginStep s) = (i, f)) (hstop : f.stop = none) :
    step s = followedBy afterExecute (exec i f) := by
  simp only [step, hrunning, hidle, Bool.false_eq_true, if_false, runStep, hfetch, executeAndFinish_eq, hstop]
  rfl

/-- Settles O45: the fetch over plain cells is the decode, and the step goes on from there. -/
theorem stepRunsTheDecodedInstruction : Obligations.StepRunsTheDecodedInstruction := by
  intro s i rest hrunning hidle hdecode hplain
  have hfetch : fetchInstr (beginStep s) = (i, { s with inStep := true, stop := none, cpu.pc := s.cpu.pc + BitVec.ofNat 16 i.length }) :=
    fetchInstr_plain (s := beginStep s) hdecode hplain
  rw [step_of_fetch hrunning hidle hfetch rfl]
  cases exec i { s with inStep := true, stop := none, cpu.pc := s.cpu.pc + BitVec.ofNat 16 i.length } <;> rfl

/-! ### The check point (R235) -/

theorem checkPoint_of_nmi {s : State} (h : s.pendingNMI = true) : checkPoint s = service .nmi s := by
  simp only [checkPoint, h, if_true]

theorem checkPoint_of_irq {s : State} (hn : s.pendingNMI = false) (hi : s.pendingIRQ = true)
    (hflag : flagOf .i s.cpu.p = false) : checkPoint s = service .irq s := by
  simp [checkPoint, hn, hi, hflag]

theorem checkPoint_of_none {s : State} (hn : s.pendingNMI = false)
    (h : s.pendingIRQ = false ∨ flagOf .i s.cpu.p = true) : checkPoint s = s := by
  rcases h with h | h <;> simp [checkPoint, hn, h]

/-- A service sets I and adds its ticks (R236, R237). -/
theorem service_marks (line : Line) (s : State) : flagOf .i (service line s).cpu.p = true ∧
    (service line s).tickCount = s.tickCount + s.params.interruptTicks := by
  obtain ⟨pc, hcpu⟩ := service_registers line s
  exact ⟨by rw [hcpu, flagOf_withFlag, if_pos rfl], (service_counters line s).1⟩

/-- A check point that changes anything is a service, and shows its marks. -/
theorem checkPoint_marks (s : State) : checkPoint s = s ∨
    (flagOf .i (checkPoint s).cpu.p = true ∧ (checkPoint s).tickCount = s.tickCount + s.params.interruptTicks) := by
  rcases checkPoint_shape s with h | ⟨-, h⟩ | ⟨-, -, -, h⟩
  · exact .inl h
  · rw [h]
    exact .inr (service_marks .nmi s)
  · rw [h]
    exact .inr (service_marks .irq s)

theorem service_quiet_stop {s : State} (h : Quiet s) (line : Line) : (service line s).stop = s.stop := by
  obtain ⟨c, m, he⟩ := enterHandler_quiet_state h (fun p => p) line.vector
  rw [service_eq, he]
  cases line <;> rfl

/-- With no hook and no RNG binding a service takes PC from the line's vector (R236). -/
theorem service_quiet_pc {s : State} (h : Quiet s) (line : Line) :
    (service line s).cpu.pc = wordAt (service line s) line.vector (line.vector + 1) := by
  rw [service_cpu, enterHandler_quiet_pc h]
  simp only [wordAt, cellAt, service_bus]

theorem endStep_of_stop_none {s : State} (h : s.stop = none) : endStep s = .next { s with inStep := false } := by
  simp only [endStep, h]

theorem endStep_next {s t : State} (h : endStep s = .next t) : t = { s with inStep := false } := by
  unfold endStep at h
  split at h
  · cases h
  · exact (Host.Outcome.next.inj h).symm

/-- With no hook at all the instruction hooks do nothing. -/
theorem fireInstructionHooks_of_nil {s : State} (h : s.bus.instructionHooks = []) : fireInstructionHooks s = s := by
  rw [fireInstructionHooks, h]
  rfl

/-- With no hook and no RNG binding an execute phase keeps the requests, `stop` and the hook tables. -/
theorem exec_quiet_keeps {i : Instr} {s u : State} (h : exec i s = .next u) (hs : Quiet s) :
    u.pendingNMI = s.pendingNMI ∧ u.pendingIRQ = s.pendingIRQ ∧ u.stop = s.stop ∧
      u.bus.instructionHooks = s.bus.instructionHooks ∧ Quiet u := by
  obtain ⟨op, extra, w, rfl, c, m, rfl⟩ := exec_quiet h hs
  exact ⟨rfl, rfl, rfl, rfl, hs.noRead, hs.noWrite, hs.noRng⟩

/-- Settles O55: the check point looks at the state the execute phase left, which has the step's requests. -/
theorem checkPointServesOneRequest : Obligations.CheckPointServesOneRequest := by
  intro s u i rest h hhooks hrunning hidle hdecode hexec
  obtain ⟨hnmi, hirq, hstop, hhooks', hquiet⟩ := exec_quiet_keeps hexec ⟨h.noRead, h.noWrite, h.noRng⟩
  have hstep : step s = endStep (checkPoint u) := by
    rw [stepRunsTheDecodedInstruction s i rest hrunning hidle hdecode (fun k _ => by simp [h.noRead, h.noRng]), hexec]
    exact congrArg (fun v => endStep (checkPoint v)) (fireInstructionHooks_of_nil (hhooks'.trans hhooks))
  refine ⟨hnmi, hirq, fun hn => ?nmi, fun hn hi hflag => ?irq, fun hn hi => ?none⟩
  case nmi =>
    rw [hstep, checkPoint_of_nmi (hnmi.trans hn)]
    exact endStep_of_stop_none ((service_quiet_stop hquiet _).trans hstop)
  case irq =>
    rw [hstep, checkPoint_of_irq (hnmi.trans hn) (hirq.trans hi) hflag]
    exact endStep_of_stop_none ((service_quiet_stop hquiet _).trans hstop)
  case none =>
    rw [hstep, checkPoint_of_none (hnmi.trans hn) (by rwa [hirq])]
    exact endStep_of_stop_none hstop

/-- Settles O56: what comes before the check point raises requests only, and a check point that clears one is a service. -/
theorem onlyServiceClearsARequest : Obligations.OnlyServiceClearsARequest := by
  refine ⟨fun i s t h => ?exec, fun s t h hcleared => ?step⟩
  case exec =>
    obtain ⟨op, extra, u, -, -, rfl, hu, -⟩ := exec_acted h
    exact ⟨hu.irq, hu.nmi⟩
  case step =>
    obtain ⟨-, v, hv, -, rfl⟩ := step_checkPoint h
    have hticks := hv.ticks
    rcases checkPoint_marks v with hsame | ⟨hflag, hserved⟩
    · rw [hsame] at hcleared
      rcases hcleared with ⟨hs, ht⟩ | ⟨hs, ht⟩
      · exact absurd (hv.irq hs) (by simp [show v.pendingIRQ = false from ht])
      · exact absurd (hv.nmi hs) (by simp [show v.pendingNMI = false from ht])
    · rw [hv.params] at hserved
      exact ⟨hflag, by show _ ≤ (checkPoint v).tickCount; omega⟩

/-- With no hook and no RNG binding a fetch moves PC only. -/
theorem fetchInstr_quiet_state {s : State} (h : Quiet s) : CpuAndCells s (fetchInstr s).2 := by
  have hfetch : ∀ {t : State}, CpuAndCells s t → CpuAndCells s (fetchByte t).2 := fun {t} ht => by
    rw [fetchByte_quiet (ht.quiet h)]
    exact ht.trans (.ofCpu _ _)
  have hself : CpuAndCells s s := .ofCpu s s.cpu
  unfold fetchInstr
  dsimp only
  split
  · exact hfetch (hfetch hself)
  · exact hfetch (hfetch (hfetch hself))
  · exact hfetch hself

/-- With no hook at all and no RNG binding a step that answers reaches its check point in such a state, its requests kept. -/
theorem step_quiet {s t : State} (hq : Quiet s) (hhooks : s.bus.instructionHooks = []) (h : step s = .next t) :
    ∃ u, Quiet u ∧ u.pendingNMI = s.pendingNMI ∧ t = { checkPoint u with inStep := false } := by
  obtain ⟨-, -, i, f, u, hf, -, hu, -, rfl⟩ := step_next h
  have hbegin : Quiet (beginStep s) := hq.ofBus rfl
  have hfetch := fetchInstr_quiet_state hbegin
  rw [hf] at hfetch
  obtain ⟨hnmi, -, -, hsame, hquiet⟩ := exec_quiet_keeps hu (hfetch.quiet hbegin)
  obtain ⟨c, m, hfetched⟩ := hfetch
  dsimp only at hfetched
  subst hfetched
  rw [fireInstructionHooks_of_nil (hsame.trans hhooks)]
  exact ⟨u, hquiet, hnmi, rfl⟩

/-- Settles O57: the request is still pending at the check point, which serves an NMI first. -/
theorem pendingNmiIsServedByTheNextStep : Obligations.PendingNmiIsServedByTheNextStep := by
  intro s t hn h
  obtain ⟨-, v, hv, -, hserved⟩ := step_checkPoint h
  rw [checkPoint_of_nmi (hv.nmi hn)] at hserved
  obtain ⟨hflag, hticks⟩ := service_marks .nmi v
  have hbefore := hv.ticks
  rw [hv.params] at hticks
  refine ⟨by rw [hserved]; exact (service_clears .nmi v).2 rfl, by rw [hserved]; exact hflag, ?_, fun hq hhooks => ?vector⟩
  · rw [hserved]
    show _ ≤ (service .nmi v).tickCount
    omega
  case vector =>
    obtain ⟨u, hquiet, hpending, rfl⟩ := step_quiet hq hhooks h
    rw [checkPoint_of_nmi (hpending.trans hn)]
    have hpc := service_quiet_pc hquiet .nmi
    simp only [wordAt, cellAt] at hpc ⊢
    exact hpc

/-! ### Calls out of place (R65, R120, R130, R263) -/

theorem step_uninitialized {s : State} (h : s.phase = .uninitialized) : step s = .refused .notReset := by
  simp only [step, h]

theorem step_reentrant {s : State} (hrunning : s.phase = .running) (hin : s.inStep = true) :
    step s = .refused .reentrantStep := by
  simp only [step, hrunning, hin, if_true]

/-- The first refusal of a step stands (log 8). -/
theorem refuseLater_of_stop_none {s : State} (h : s.stop = none) (r : Refusal) : refuseLater r s = { s with stop := some r } := by
  simp only [refuseLater, h, Option.getD_none]

/-- The loop of exec runs no step when its target is reached (R128). -/
theorem execLoop_of_reached {target : Nat} {s : State} (h : target ≤ s.tickCount) (fuel : Nat) :
    execLoop target fuel s = some (.next s) := by
  have hnot : ¬ s.tickCount < target := by omega
  cases fuel <;> simp only [execLoop, if_neg hnot]

/-- The loop of exec takes a step when its target is not reached (R128). -/
theorem execLoop_of_next {target fuel : Nat} {s t : State} (h : s.tickCount < target) (hstep : step s = .next t) :
    execLoop target (fuel + 1) s = execLoop target fuel t := by
  simp only [execLoop, if_pos h, hstep]

/-- The first fault ends the loop of exec (R128). -/
theorem execLoop_of_fault {target fuel : Nat} {s : State} {r : Fault} (h : s.tickCount < target) (hstep : step s = .fault r) :
    execLoop target (fuel + 1) s = some (.fault r) := by
  simp only [execLoop, if_pos h, hstep]

/-- The first refusal ends the loop of exec (R128). -/
theorem execLoop_of_refused {target fuel : Nat} {s : State} {r : Refusal} (h : s.tickCount < target)
    (hstep : step s = .refused r) : execLoop target (fuel + 1) s = some (.refused r) := by
  simp only [execLoop, if_pos h, hstep]

/-- Between steps exec is its loop. -/
theorem execTo_eq_execLoop {s : State} (h : s.inStep = false) (target : Nat) :
    execTo target s = execLoop target (target - s.tickCount) s := by
  simp [execTo, h]

/-- Settles O46: phase and `inStep` are tested before anything else. -/
theorem stepsAreRefusedOutOfPlace : Obligations.StepsAreRefusedOutOfPlace := by
  intro s n target
  refine ⟨step_uninitialized, fun hphase hidle => ⟨?stepTimes, stepTimes_eq_stepMany hidle 0, fun hlt => ?exec, fun hle => ?reached⟩,
    step_reentrant, fun hin => ⟨?_, ?_, ?_⟩, fun hstop c hc => ?inside⟩
  case stepTimes => rw [stepTimes_eq_stepMany hidle, stepMany_succ_eq, step_uninitialized hphase, followedBy]
  case exec =>
    obtain ⟨fuel, hfuel⟩ : ∃ fuel, target - s.tickCount = fuel + 1 := ⟨target - s.tickCount - 1, by omega⟩
    rw [execTo_eq_execLoop hidle, hfuel, execLoop_of_refused hlt (step_uninitialized hphase)]
  case reached => rw [execTo_eq_execLoop hidle, execLoop_of_reached hle]
  case inside => rcases hc with rfl | rfl | rfl | rfl <;> exact refuseLater_of_stop_none hstop _
  · exact if_pos hin
  · exact if_pos hin
  · exact if_pos hin

/-! ### The host's exec (R128) -/

/-- Under the default parameters a step keeps them and adds 2 to 14 ticks. -/
theorem step_default {s t : State} (h : step s = .next t) (hparams : s.params = {}) :
    t.params = {} ∧ s.tickCount + 2 ≤ t.tickCount ∧ t.tickCount ≤ s.tickCount + 14 := by
  refine ⟨?_, (eachStepCountsOneInstruction s t h).2 hparams⟩
  obtain ⟨-, v, hv, -, rfl⟩ := step_checkPoint h
  obtain ⟨-, -, -, hkeep, -⟩ := checkPoint_keeps v
  exact hkeep.trans (hv.params.trans hparams)

/-- Under the default parameters as many steps as ticks to go are enough (log 21). -/
theorem execLoop_answers {target fuel : Nat} {s : State} (hparams : s.params = {}) (hfuel : target ≤ s.tickCount + fuel) :
    ∃ r, execLoop target fuel s = some r := by
  induction fuel generalizing s with
  | zero => exact ⟨_, execLoop_of_reached hfuel 0⟩
  | succ fuel ih =>
    by_cases hlt : s.tickCount < target
    · cases hstep : step s with
      | next u =>
        obtain ⟨hparams', hmore, -⟩ := step_default hstep hparams
        rw [execLoop_of_next hlt hstep]
        exact ih hparams' (by omega)
      | fault r => exact ⟨_, execLoop_of_fault hlt hstep⟩
      | refused r => exact ⟨_, execLoop_of_refused hlt hstep⟩
    · exact ⟨_, execLoop_of_reached (by omega) _⟩

/-- A loop of exec that ends in a next state ran whole steps up to its target, and less than one more (R128). -/
theorem execLoop_next {target fuel : Nat} {s t : State} (hparams : s.params = {})
    (h : execLoop target fuel s = some (.next t)) :
    (∃ n, stepMany n s = .next t) ∧ (s.tickCount < target → target ≤ t.tickCount ∧ t.tickCount < target + 14) := by
  induction fuel generalizing s with
  | zero =>
    by_cases hlt : s.tickCount < target
    · rw [execLoop, if_pos hlt] at h
      cases h
    · rw [execLoop_of_reached (by omega)] at h
      cases h
      exact ⟨⟨0, rfl⟩, fun hlt' => absurd hlt' hlt⟩
  | succ fuel ih =>
    by_cases hlt : s.tickCount < target
    · cases hstep : step s with
      | next u =>
        rw [execLoop_of_next hlt hstep] at h
        obtain ⟨hparams', -, hover⟩ := step_default hstep hparams
        obtain ⟨⟨n, hn⟩, hreach⟩ := ih hparams' h
        refine ⟨⟨n + 1, by rw [stepMany_succ_eq, hstep]; exact hn⟩, fun _ => ?_⟩
        by_cases hlt' : u.tickCount < target
        · exact hreach hlt'
        · rw [execLoop_of_reached (by omega)] at h
          cases h
          omega
      | fault r => cases (execLoop_of_fault hlt hstep).symm.trans h
      | refused r => cases (execLoop_of_refused hlt hstep).symm.trans h
    · rw [execLoop_of_reached (by omega)] at h
      cases h
      exact ⟨⟨0, rfl⟩, fun hlt' => absurd hlt' hlt⟩

/-- Settles O50: every step brings the target at least two and at most 14 ticks nearer. -/
theorem execReachesItsTarget : Obligations.ExecReachesItsTarget := by
  intro target s hparams hidle
  rw [execTo_eq_execLoop hidle]
  refine ⟨fun hle => execLoop_of_reached hle _, execLoop_answers hparams (by omega), fun t h => ?_⟩
  simp only [← stepMany_eq_run]
  exact execLoop_next hparams h

/-! ### Reset (R38, R260 to R265) -/

/-- EVERYTHING A RESET CAN DO when it answers: it reads the vector, and sets every register and counter to its reset value. -/
theorem hostReset_next {s t : State} (h : hostReset s = .next t) :
    ∃ pc u, t = { applyReset pc u with inStep := false } := by
  unfold hostReset at h
  split at h
  · cases h
  · exact ⟨_, _, endStep_next h⟩

/-- With no read hook a byte read takes its value and does nothing more (R56). -/
theorem memRead_of_no_hooks {s : State} (h : s.bus.readHooks = []) (a : Word) : memRead a s = readValue a s := by
  rw [memRead, fireBusHook_none (by rw [readValue_bus, h]; rfl)]

/-- With no read hook two byte reads use up draws at most. -/
theorem readPair_of_no_hooks {s : State} (h : s.bus.readHooks = []) (a b : Word) :
    ∃ draws, (readPair a b s).2 = { s with rngDraws := draws } := by
  obtain ⟨d, ha⟩ := readValue_state a s
  have h' : (readValue a s).2.bus.readHooks = [] := by rw [readValue_bus, h]
  obtain ⟨d', hb⟩ := readValue_state b (readValue a s).2
  refine ⟨d', ?_⟩
  show (memRead b (memRead a s).2).2 = _
  rw [memRead_of_no_hooks h, memRead_of_no_hooks h', hb, ha]

/-- With no read hook a reset between steps answers (R260, R262). -/
theorem hostReset_of_no_hooks {s : State} (hidle : s.inStep = false) (h : s.bus.readHooks = []) :
    ∃ t, hostReset s = .next t ∧ t.bus = s.bus ∧ t.cpu.pc = (read16 resetVector (beginStep s)).1 := by
  obtain ⟨draws, hread⟩ := readPair_of_no_hooks (s := beginStep s) h resetVector (resetVector + 1)
  refine ⟨{ applyReset (read16 resetVector (beginStep s)).1 (read16 resetVector (beginStep s)).2 with inStep := false },
    ?_, ?_, rfl⟩
  · simp only [hostReset, hidle, Bool.false_eq_true, if_false]
    refine endStep_of_stop_none ?_
    show (readPair _ _ (beginStep s)).2.stop = none
    rw [hread]
    rfl
  · show (readPair _ _ (beginStep s)).2.bus = s.bus
    rw [hread]
    rfl

/-- Settles O59: the vector reads change nothing that the reset keeps. -/
theorem resetGivesTheResetValues : Obligations.ResetGivesTheResetValues := by
  intro s
  refine ⟨fun t h => ?values, fun hidle h => ?answers⟩
  case values =>
    obtain ⟨pc, u, rfl⟩ := hostReset_next h
    exact ⟨rfl, rfl, rfl, rfl, rfl, rfl, rfl⟩
  case answers =>
    obtain ⟨t, ht, hbus, hpc⟩ := hostReset_of_no_hooks hidle h
    refine ⟨t, ht, hbus, fun hrng => ?_⟩
    have hcell : ∀ a, memRead a (beginStep s) = (cellAt s a, beginStep s) :=
      fun a => memRead_plain (by simp [hrng]) (by simp [h])
    rw [hpc, read16, readPair, hcell, hcell]
    rfl

/-- Settles O60: both runs are over the empty memory. -/
theorem resetOfTheConstructedCore : Obligations.ResetOfTheConstructedCore := by
  refine ⟨rfl, _, rfl, ?_⟩
  decide

end Sys2Proof.Machine
end
